-- ==== Sys2Proof/Word.lean ====
section
/-! DEFINITION. The byte and the control word. -/

namespace Sys2Proof

/-- A byte is 8 bits (R16). -/
abbrev Byte := BitVec 8

/-- The register `WORD`: a control word has `8*C` bits, at most 120 (R88). -/
abbrev Word := BitVec 120

end Sys2Proof
end

