-- ==== Sys2Proof/Syntax.lean ====
section
/-! DEFINITION. The instructions: one constructor for each row of spec/opcode_table.json. -/

namespace Sys2Proof

/-- The 40 rows of the opcode table (R75): the header, `LIT` and `MATCH` for every width `C`, and the
nine host operations. Field widths are those of R66. The payload of a `LIT` is data that follows the
control field (R63) and is read when the instruction runs. -/
inductive Instr where
  /-- HDR: width nibble and extension code (R60). -/
  | hdr (c e : BitVec 4)
  | litC1 (len : BitVec 7)
  | litC2 (len : BitVec 15)
  | litC3 (len : BitVec 23)
  | litC4 (len : BitVec 31)
  | litC5 (len : BitVec 39)
  | litC6 (len : BitVec 47)
  | litC7 (len : BitVec 55)
  | litC8 (len : BitVec 63)
  | litC9 (len : BitVec 71)
  | litC10 (len : BitVec 79)
  | litC11 (len : BitVec 87)
  | litC12 (len : BitVec 95)
  | litC13 (len : BitVec 103)
  | litC14 (len : BitVec 111)
  | litC15 (len : BitVec 119)
  | matchC1 (len : BitVec 3) (dist : BitVec 4)
  | matchC2 (len : BitVec 5) (dist : BitVec 10)
  | matchC3 (len : BitVec 7) (dist : BitVec 16)
  | matchC4 (len : BitVec 10) (dist : BitVec 21)
  | matchC5 (len : BitVec 13) (dist : BitVec 26)
  | matchC6 (len : BitVec 15) (dist : BitVec 32)
  | matchC7 (len : BitVec 18) (dist : BitVec 37)
  | matchC8 (len : BitVec 21) (dist : BitVec 42)
  | matchC9 (len : BitVec 23) (dist : BitVec 48)
  | matchC10 (len : BitVec 26) (dist : BitVec 53)
  | matchC11 (len : BitVec 29) (dist : BitVec 58)
  | matchC12 (len : BitVec 31) (dist : BitVec 64)
  | matchC13 (len : BitVec 34) (dist : BitVec 69)
  | matchC14 (len : BitVec 37) (dist : BitVec 74)
  | matchC15 (len : BitVec 39) (dist : BitVec 80)
  | layout
  | findmatch
  | tokenize
  | genhdr
  | parsehdr
  | hdrchk
  | encode
  | compress
  | decompress
deriving DecidableEq, Repr

end Sys2Proof
end

