-- ==== Sys2Proof/WellFormed.lean ====
section
/-! DEFINITION. Which instructions are well formed. -/

namespace Sys2Proof

/-- A legal header carries a width in `1..15`, every extension code being legal (R61); every value of
the operand fields of a `LIT` or a `MATCH` is a valid control field (R69). The one check is the
header's width. -/
def Instr.wellFormed : Instr → Bool
  | .hdr c _ => decide (c ≠ 0#4)
  | .litC1 _ => true
  | .litC2 _ => true
  | .litC3 _ => true
  | .litC4 _ => true
  | .litC5 _ => true
  | .litC6 _ => true
  | .litC7 _ => true
  | .litC8 _ => true
  | .litC9 _ => true
  | .litC10 _ => true
  | .litC11 _ => true
  | .litC12 _ => true
  | .litC13 _ => true
  | .litC14 _ => true
  | .litC15 _ => true
  | .matchC1 _ _ => true
  | .matchC2 _ _ => true
  | .matchC3 _ _ => true
  | .matchC4 _ _ => true
  | .matchC5 _ _ => true
  | .matchC6 _ _ => true
  | .matchC7 _ _ => true
  | .matchC8 _ _ => true
  | .matchC9 _ _ => true
  | .matchC10 _ _ => true
  | .matchC11 _ _ => true
  | .matchC12 _ _ => true
  | .matchC13 _ _ => true
  | .matchC14 _ _ => true
  | .matchC15 _ _ => true
  | .layout => true
  | .findmatch => true
  | .tokenize => true
  | .genhdr => true
  | .parsehdr => true
  | .hdrchk => true
  | .encode => true
  | .compress => true
  | .decompress => true

end Sys2Proof
end

