-- ==== Sys2Proof/Decode.lean ====
section
/-! DEFINITION. The bit layout of a control field, byte order, the decoder, the encoder, and the
reading of an opcode-table word. -/

namespace Sys2Proof

/-! ### Parameter and field widths -/

/-- MAGIC, header byte 0 (R9): the spec's value, unaudited. UNVERIFIED, log entry 1; statements name
it only as `magic`. -/
def magic : Byte := 0xC7#8

/-- `usable_bits`, also `literal_length_bits` (R81). -/
def usableBits (c : Nat) : Nat := 8 * c - 1

/-- `match_length_bits` (R82). -/
def matchLengthBits (c : Nat) : Nat := if c = 1 then 3 else usableBits c / 3

/-- `distance_bits` (R82). -/
def distanceBits (c : Nat) : Nat := if c = 1 then 4 else usableBits c - matchLengthBits c

/-! ### Byte order (R17, R40) -/

/-- `be n v`, the `n`-byte big-endian sequence of `v` (R17). -/
def be : Nat → Nat → List Byte
  | 0, _ => []
  | n + 1, v => BitVec.ofNat 8 (v / 2 ^ (8 * n)) :: be n v

/-- `from_be s`, the integer a big-endian sequence spells (R17). -/
def fromBe (s : List Byte) : Nat := s.foldl (fun acc b => acc * 256 + b.toNat) 0

/-! ### Operand assembly and packing (R65) -/

/-- The signal bit of the control word `w`: `w div 2^(8C-1)` (R65). -/
def signalOf (c w : Nat) : Nat := w / 2 ^ usableBits c

/-- The length field of a `LIT` (R65). -/
def litLenOf (c w : Nat) : Nat := w % 2 ^ usableBits c

/-- The length field of a `MATCH` (R65). -/
def matchLenOf (c w : Nat) : Nat := w / 2 ^ distanceBits c % 2 ^ matchLengthBits c

/-- The distance field of a `MATCH` (R65). -/
def matchDistOf (c w : Nat) : Nat := w % 2 ^ distanceBits c

/-- The control word of a `LIT` equals its length (R63). -/
def litWord (len : Nat) : Nat := len

/-- The control word of a `MATCH` (R64). -/
def matchWord (c len dist : Nat) : Nat := 2 ^ usableBits c + len * 2 ^ distanceBits c + dist

/-! ### The decoder -/

/-- What the next bytes are read as: a host operation code, the header, or a control field of width
`c`, the one mode that changes decoding (R67). -/
inductive Mode where
  | host
  | header
  | field (c : Nat)
deriving DecidableEq, Repr

/-- Why bytes are no instruction. -/
inductive Reject where
  /-- No operation code was given. -/
  | noOp
  /-- A reserved operation code (R74). -/
  | reservedOp (code : Nat)
  /-- Fewer than 2 header bytes (R68). -/
  | hdrShort
  /-- Header byte 0 is not MAGIC (R68). -/
  | badMagic
  /-- Fewer than `C` bytes where a control field must start (R143). -/
  | cfTrunc
  /-- No row of the table has this control-field width. -/
  | noWidth
deriving DecidableEq, Repr

/-- The operation codes of R74. -/
def decodeOp : Nat → Except Reject Instr
  | 1 => .ok .layout
  | 2 => .ok .findmatch
  | 3 => .ok .tokenize
  | 4 => .ok .genhdr
  | 5 => .ok .parsehdr
  | 6 => .ok .hdrchk
  | 7 => .ok .encode
  | 8 => .ok .compress
  | 9 => .ok .decompress
  | n => .error (.reservedOp n)

/-- The row `LIT.C<c>` with the given length. -/
def litInstr (c len : Nat) : Except Reject Instr :=
  match c with
  | 1 => .ok (.litC1 (BitVec.ofNat 7 len))
  | 2 => .ok (.litC2 (BitVec.ofNat 15 len))
  | 3 => .ok (.litC3 (BitVec.ofNat 23 len))
  | 4 => .ok (.litC4 (BitVec.ofNat 31 len))
  | 5 => .ok (.litC5 (BitVec.ofNat 39 len))
  | 6 => .ok (.litC6 (BitVec.ofNat 47 len))
  | 7 => .ok (.litC7 (BitVec.ofNat 55 len))
  | 8 => .ok (.litC8 (BitVec.ofNat 63 len))
  | 9 => .ok (.litC9 (BitVec.ofNat 71 len))
  | 10 => .ok (.litC10 (BitVec.ofNat 79 len))
  | 11 => .ok (.litC11 (BitVec.ofNat 87 len))
  | 12 => .ok (.litC12 (BitVec.ofNat 95 len))
  | 13 => .ok (.litC13 (BitVec.ofNat 103 len))
  | 14 => .ok (.litC14 (BitVec.ofNat 111 len))
  | 15 => .ok (.litC15 (BitVec.ofNat 119 len))
  | _ => .error .noWidth

/-- The row `MATCH.C<c>` with the given length and distance. -/
def matchInstr (c len dist : Nat) : Except Reject Instr :=
  match c with
  | 1 => .ok (.matchC1 (BitVec.ofNat 3 len) (BitVec.ofNat 4 dist))
  | 2 => .ok (.matchC2 (BitVec.ofNat 5 len) (BitVec.ofNat 10 dist))
  | 3 => .ok (.matchC3 (BitVec.ofNat 7 len) (BitVec.ofNat 16 dist))
  | 4 => .ok (.matchC4 (BitVec.ofNat 10 len) (BitVec.ofNat 21 dist))
  | 5 => .ok (.matchC5 (BitVec.ofNat 13 len) (BitVec.ofNat 26 dist))
  | 6 => .ok (.matchC6 (BitVec.ofNat 15 len) (BitVec.ofNat 32 dist))
  | 7 => .ok (.matchC7 (BitVec.ofNat 18 len) (BitVec.ofNat 37 dist))
  | 8 => .ok (.matchC8 (BitVec.ofNat 21 len) (BitVec.ofNat 42 dist))
  | 9 => .ok (.matchC9 (BitVec.ofNat 23 len) (BitVec.ofNat 48 dist))
  | 10 => .ok (.matchC10 (BitVec.ofNat 26 len) (BitVec.ofNat 53 dist))
  | 11 => .ok (.matchC11 (BitVec.ofNat 29 len) (BitVec.ofNat 58 dist))
  | 12 => .ok (.matchC12 (BitVec.ofNat 31 len) (BitVec.ofNat 64 dist))
  | 13 => .ok (.matchC13 (BitVec.ofNat 34 len) (BitVec.ofNat 69 dist))
  | 14 => .ok (.matchC14 (BitVec.ofNat 37 len) (BitVec.ofNat 74 dist))
  | 15 => .ok (.matchC15 (BitVec.ofNat 39 len) (BitVec.ofNat 80 dist))
  | _ => .error .noWidth

/-- The instruction of a control word (R62, R65): the signal bit is the whole opcode. -/
def decodeWord (c w : Nat) : Except Reject Instr :=
  if signalOf c w = 0 then litInstr c (litLenOf c w)
  else matchInstr c (matchLenOf c w) (matchDistOf c w)

/-- The header (R60): the tests on length and magic in the order of R124. A width nibble of 0 is read
as a header; the machine raises HDR_WIDTH for it when it runs (R68, R124). DESIGN CHOICE, log entry 30. -/
def decodeHeader : List Byte → Except Reject (Instr × List Byte)
  | m :: b :: rest =>
    if m = magic then .ok (.hdr (b.extractLsb' 4 4) (b.extractLsb' 0 4), rest)
    else .error .badMagic
  | _ => .error .hdrShort

/-- A control field of `c` bytes (R62, R143). -/
def decodeField (c : Nat) (bs : List Byte) : Except Reject (Instr × List Byte) :=
  if bs.length < c then .error .cfTrunc
  else match decodeWord c (fromBe (bs.take c)) with
    | .ok i => .ok (i, bs.drop c)
    | .error r => .error r

/-- The decoder: total on any bytes; gives the instruction and the bytes after it. -/
def decode : Mode → List Byte → Except Reject (Instr × List Byte)
  | .host, b :: rest =>
    match decodeOp b.toNat with
    | .ok i => .ok (i, rest)
    | .error r => .error r
  | .host, [] => .error .noOp
  | .header, bs => decodeHeader bs
  | .field c, bs => decodeField c bs

/-! ### The encoder -/

/-- The mode an instruction is read in. -/
def Instr.mode : Instr → Mode
  | .hdr _ _ => .header
  | .litC1 _ => .field 1
  | .litC2 _ => .field 2
  | .litC3 _ => .field 3
  | .litC4 _ => .field 4
  | .litC5 _ => .field 5
  | .litC6 _ => .field 6
  | .litC7 _ => .field 7
  | .litC8 _ => .field 8
  | .litC9 _ => .field 9
  | .litC10 _ => .field 10
  | .litC11 _ => .field 11
  | .litC12 _ => .field 12
  | .litC13 _ => .field 13
  | .litC14 _ => .field 14
  | .litC15 _ => .field 15
  | .matchC1 _ _ => .field 1
  | .matchC2 _ _ => .field 2
  | .matchC3 _ _ => .field 3
  | .matchC4 _ _ => .field 4
  | .matchC5 _ _ => .field 5
  | .matchC6 _ _ => .field 6
  | .matchC7 _ _ => .field 7
  | .matchC8 _ _ => .field 8
  | .matchC9 _ _ => .field 9
  | .matchC10 _ _ => .field 10
  | .matchC11 _ _ => .field 11
  | .matchC12 _ _ => .field 12
  | .matchC13 _ _ => .field 13
  | .matchC14 _ _ => .field 14
  | .matchC15 _ _ => .field 15
  | .layout => .host
  | .findmatch => .host
  | .tokenize => .host
  | .genhdr => .host
  | .parsehdr => .host
  | .hdrchk => .host
  | .encode => .host
  | .compress => .host
  | .decompress => .host

/-- The bytes of an instruction: header byte 1 is `C*16 + E` (R60), a control field is big-endian
(R63, R64), an operation code stands in one byte (R74). -/
def encode : Instr → List Byte
  | .hdr c e => [magic, BitVec.ofNat 8 (c.toNat * 16 + e.toNat)]
  | .litC1 len => be 1 (litWord len.toNat)
  | .litC2 len => be 2 (litWord len.toNat)
  | .litC3 len => be 3 (litWord len.toNat)
  | .litC4 len => be 4 (litWord len.toNat)
  | .litC5 len => be 5 (litWord len.toNat)
  | .litC6 len => be 6 (litWord len.toNat)
  | .litC7 len => be 7 (litWord len.toNat)
  | .litC8 len => be 8 (litWord len.toNat)
  | .litC9 len => be 9 (litWord len.toNat)
  | .litC10 len => be 10 (litWord len.toNat)
  | .litC11 len => be 11 (litWord len.toNat)
  | .litC12 len => be 12 (litWord len.toNat)
  | .litC13 len => be 13 (litWord len.toNat)
  | .litC14 len => be 14 (litWord len.toNat)
  | .litC15 len => be 15 (litWord len.toNat)
  | .matchC1 len dist => be 1 (matchWord 1 len.toNat dist.toNat)
  | .matchC2 len dist => be 2 (matchWord 2 len.toNat dist.toNat)
  | .matchC3 len dist => be 3 (matchWord 3 len.toNat dist.toNat)
  | .matchC4 len dist => be 4 (matchWord 4 len.toNat dist.toNat)
  | .matchC5 len dist => be 5 (matchWord 5 len.toNat dist.toNat)
  | .matchC6 len dist => be 6 (matchWord 6 len.toNat dist.toNat)
  | .matchC7 len dist => be 7 (matchWord 7 len.toNat dist.toNat)
  | .matchC8 len dist => be 8 (matchWord 8 len.toNat dist.toNat)
  | .matchC9 len dist => be 9 (matchWord 9 len.toNat dist.toNat)
  | .matchC10 len dist => be 10 (matchWord 10 len.toNat dist.toNat)
  | .matchC11 len dist => be 11 (matchWord 11 len.toNat dist.toNat)
  | .matchC12 len dist => be 12 (matchWord 12 len.toNat dist.toNat)
  | .matchC13 len dist => be 13 (matchWord 13 len.toNat dist.toNat)
  | .matchC14 len dist => be 14 (matchWord 14 len.toNat dist.toNat)
  | .matchC15 len dist => be 15 (matchWord 15 len.toNat dist.toNat)
  | .layout => [1#8]
  | .findmatch => [2#8]
  | .tokenize => [3#8]
  | .genhdr => [4#8]
  | .parsehdr => [5#8]
  | .hdrchk => [6#8]
  | .encode => [7#8]
  | .compress => [8#8]
  | .decompress => [9#8]

/-! ### Words of the opcode table -/

/-- In which mode a table word of `nbits` bits is read. The table alone does not tell: a one-byte word
may be an operation code or a control field of width 1, a two-byte word a header or a control field of
width 2. DESIGN CHOICE, log entry 16: the words of the other rows win over `LIT.C1`, `LIT.C2` and
`MATCH.C2`. The only row narrower than a byte is the 4-bit operation code, so a word of at most 4 bits is
one, the reserved codes 0x0 and 0xA to 0xF among them, which decode to nothing (R74). -/
def tableMode (nbits w : Nat) : Option Mode :=
  if nbits ≤ 4 then some .host
  else if nbits = 8 then (if 1 ≤ w ∧ w ≤ 9 then some .host else some (.field 1))
  else if nbits = 16 then (if w / 256 = magic.toNat then some .header else some (.field 2))
  else if nbits % 8 = 0 ∧ nbits ≤ 120 then some (.field (nbits / 8))
  else none

/-- The bytes of a table word: the table numbers a row as one word, stored big-endian (R17). -/
def tableBytes (nbits w : Nat) : List Byte := be ((nbits + 7) / 8) w

/-- What the decoder reads from a table word. -/
def decodeTableWord (nbits w : Nat) : Option Instr :=
  match tableMode nbits w with
  | none => none
  | some m =>
    match decode m (tableBytes nbits w) with
    | .ok (i, _) => some i
    | .error _ => none

end Sys2Proof
end

