-- ==== Sys2Proof/Config.lean ====
section
/-! DEFINITION. What an implementation fixes (R31) and the free values.
The parameter MAGIC (R9) and the table EXT_TABLE (R10) built from `rawExtTable` stand with the
functions that use them, in Decode.lean and Machine/HeaderCodec.lean. -/

namespace Sys2Proof

/-- MEM_CAP (R13), the capacity of each memory in bytes: `none` is the spec's default, unbounded.
DESIGN CHOICE, log entry 3. -/
def Config.memCap : Option Nat := none

/-- How many bytes of the memory TOK a literal of so many bytes, or a match (`none`), occupies: the
spec does not say (R13). Consulted only where `memCap` is a number. Log entry 3. -/
opaque Config.tokenBytes : Option Nat → Nat

/-- W_CFG (R12), the width of the port that carries C_ARG: the spec's default. Log entry 4. -/
def Config.cfgWidth : Nat := 8

/-- The entries behind EXT_TABLE (R10): the spec prints none. Log entry 2. -/
opaque Config.rawExtTable : Nat → List Byte

/-! The free values of the request registers: what one that no host has written since reset holds when an
operation starts (R32, 93 U7). Log entry 28. -/

opaque Config.freeCArg : Nat → BitVec Config.cfgWidth
opaque Config.freeExtArg : Nat → List Byte
opaque Config.freePosArg : Nat → Nat

/-! The free values of the result registers that an operation leaves unspecified (R26, R180), one
fresh value for each reading of the counter `freeCtr`. Log entry 6. -/

opaque Config.freeResC : Nat → BitVec 4
opaque Config.freeResExt : Nat → BitVec 4
opaque Config.freeResLen : Nat → Nat
opaque Config.freeResDist : Nat → Nat
opaque Config.freeResFlag : Nat → BitVec 1

/-- The free value of field `k` of the layout registers after a failed operation (R180). -/
opaque Config.freeLayout : Nat → Fin 10 → Nat

end Sys2Proof
end

