-- ==== Sys2Proof/Machine/State.lean ====
section
/-! DEFINITION. Everything the spec gives the machine, as plain data, and the state after reset. -/

namespace Sys2Proof.Machine

/-! ### Tokens and the BitLayout record -/

/-- A token (R90). A Literal carries only its bytes, so that `length = |bytes|` cannot be broken. -/
inductive Token where
  /-- `Literal{bytes}`. -/
  | lit (bytes : List Byte)
  /-- `Match{distance, length}`. -/
  | copy (distance length : Nat)
deriving DecidableEq, Repr

/-- The BitLayout record, also the ten `LY_*` registers (R27, R80). -/
structure BitLayout where
  totalBits : Nat
  usableBits : Nat
  literalLengthBits : Nat
  matchLengthBits : Nat
  distanceBits : Nat
  maxLiteralRun : Nat
  maxMatchLength : Nat
  maxDistance : Nat
  windowSize : Nat
  lookaheadLimit : Nat
deriving DecidableEq, Repr

/-! ### Memories -/

/-- A byte memory (R44): the (index, byte) pairs it holds. An index that is not listed has no value
(log entry 8). In canonical form (`Memory.wf`, Ops.lean) the indices are 0, 1, 2, … in order, and the
length register (ILEN, OLEN) is the number of entries. -/
structure Memory where
  cells : List Host.Cell
deriving DecidableEq, Repr

/-! ### Registers with named values -/

/-- STATUS (R24); the 2-bit codes are `Status.code`, Flags.lean. -/
inductive Status where
  | idle
  | busy
  | done
  | error
deriving DecidableEq, Repr

/-- The nine causes of R170; class and cause codes are in Flags.lean. -/
inductive Cause where
  | widthRange
  | tokenRange
  | hdrShort
  | badMagic
  | hdrWidth
  | cfTrunc
  | litTrunc
  | backrefRange
  | srcNotWritten
deriving DecidableEq, Repr

/-- DSTATE (R28, R141). `readingHeader` is the model's own name for step 1 of R140 (log entry 11). -/
inductive DState where
  | readingHeader
  | readingControlField
  | readingLiteralPayload
  | copyingMatch
deriving DecidableEq, Repr

/-- Which result registers, whether the layout registers, and whether OUT with OLEN and TOK with TLEN hold
specified values: the explicit wrapper of 93 U7 (log entries 6, 7 and 27). -/
structure Valid where
  resC : Bool := false
  resExt : Bool := false
  resLen : Bool := false
  resDist : Bool := false
  resFlag : Bool := false
  ly : Bool := false
  out : Bool := false
  tok : Bool := false
deriving DecidableEq, Repr

/-- A set of the request registers that carry operands (R23). -/
structure RequestSet where
  cArg : Bool := false
  extArg : Bool := false
  posArg : Bool := false
deriving DecidableEq, Repr

/-! ### The host (R20, R199; log entry 13) -/

/-- What the host can read (R24 to R27, R44). -/
inductive ReadReg where
  | status
  | errClass
  | errCause
  | errPos
  | resC
  | resExt
  | resLen
  | resDist
  | resFlag
  | ly
  | olen
  | outBytes
  | tlen
  | tokens
deriving DecidableEq, Repr

/-- What a read returned. -/
inductive HostValue where
  | num (n : Nat)
  | layout (l : BitLayout)
  | bytes (bs : List Byte)
  | tokens (ts : List Token)
  /-- The explicit "unspecified" wrapper of 93 U7: some value, of which nothing can be claimed (R26, 93 U13;
  log entry 31). -/
  | unspecified
deriving DecidableEq, Repr

/-- A move of the host. `start` writes OP, which is the start event (R199); `fine` asks that a
DECOMPRESS be shown instruction by instruction (log entry 10). -/
inductive HostMove where
  /-- Write C_ARG through the W_CFG bits of its port (R12, log entry 4). -/
  | writeC (n : BitVec Config.cfgWidth)
  | writeExt (s : List Byte)
  | writePos (n : Nat)
  | loadIn (bs : List Byte)
  | loadTok (ts : List Token)
  | start (op : BitVec 4) (fine : Bool)
  | read (r : ReadReg)
  | reset
deriving DecidableEq, Repr

/-- Whose move comes next. -/
inductive Turn where
  | engine
  | host (m : HostMove)
deriving DecidableEq, Repr

/-! ### Stops -/

/-- Why a step can stop with a fault. No instruction raises one. -/
inductive Fault where
  /-- Raised by a host move while BUSY for which the spec gives the host no move, "stuck": writing an operand,
  or reading anything but STATUS (R20, R200, 93 U8). SAFE: the model stops. -/
  | hostNoMove
deriving DecidableEq, Repr

/-- Why a step can be refused. -/
inductive Refusal where
  /-- Raised by `exec` for an instruction with no meaning yet. No arm does. SAFE. -/
  | notModelled (mnemonic : String)
  /-- Raised by a start whose operation code is reserved (R74, 93 U9). SAFE: no state changes. -/
  | reservedOp (code : BitVec 4)
  /-- Raised by a start of FINDMATCH with a legal width and a POS_ARG that exceeds ILEN, and by FINDMATCH
  itself in a state that holds such operands (R100, 93 U12). SAFE: no state changes. -/
  | posBeyondInput
  /-- Raised where an input, a token list or an output exceeds MEM_CAP (R13, 93 U10). SAFE. -/
  | overCapacity
deriving DecidableEq, Repr

/-! ### The state -/

/-- The state of the machine (10_state.md). ILEN, OLEN and TLEN are the sizes of `inp`, `out` and
`tok`. -/
structure State where
  /-- OP (R23). -/
  op : BitVec 4
  /-- C_ARG (R23, R12). -/
  cArg : Nat
  /-- EXT_ARG (R23). -/
  extArg : List Byte
  /-- POS_ARG (R23). -/
  posArg : Nat
  /-- STATUS (R24). -/
  status : Status
  /-- ERR_CLASS (R25). -/
  errClass : BitVec 2
  /-- ERR_CAUSE (R25). -/
  errCause : BitVec 4
  /-- ERR_POS (R25). -/
  errPos : Nat
  /-- RES_C (R26). -/
  resC : BitVec 4
  /-- RES_EXT (R26). -/
  resExt : BitVec 4
  /-- RES_LEN (R26). -/
  resLen : Nat
  /-- RES_DIST (R26). -/
  resDist : Nat
  /-- RES_FLAG (R26). -/
  resFlag : BitVec 1
  /-- The ten LY_* registers (R27). -/
  ly : BitLayout
  /-- The memory IN (R44). -/
  inp : Memory
  /-- The memory OUT (R44). -/
  out : Memory
  /-- The memory TOK (R44). -/
  tok : List Token
  /-- ICUR (R28, R30). -/
  icur : Nat
  /-- RUN (R28). -/
  run : Nat
  /-- WORD (R28). -/
  word : Word
  /-- F_LEN (R28). -/
  fLen : Nat
  /-- F_DIST (R28). -/
  fDist : Nat
  /-- CP_SRC (R28). -/
  cpSrc : Nat
  /-- CP_REM (R28). -/
  cpRem : Nat
  /-- CUR_C (R28). -/
  curC : BitVec 4
  /-- DSTATE (R28, R141). -/
  dstate : DState
  /-- The model's own: the local `E` of R140, from the header to step 3 (log entry 11). -/
  curE : BitVec 4
  /-- The model's own: a start the engine has not taken yet (log entry 13). -/
  startPending : Bool
  /-- The model's own: DECOMPRESS is shown instruction by instruction (log entry 10). -/
  fine : Bool
  /-- The model's own: the turns to come; when empty, the engine moves (log entry 13). -/
  schedule : List Turn
  /-- The model's own: what the host's last read returned (log entry 13). -/
  hostSaw : Option HostValue
  /-- The model's own: which results hold specified values (log entries 6 and 27). -/
  valid : Valid
  /-- The model's own: which request registers no longer hold what they held after reset (log entry 28). -/
  written : RequestSet
  /-- The model's own: how many times free values were drawn (log entry 6). -/
  freeCtr : Nat
deriving DecidableEq, Repr

/-- ILEN. -/
abbrev State.ilen (s : State) : Nat := s.inp.cells.length

/-- OLEN. -/
abbrev State.olen (s : State) : Nat := s.out.cells.length

/-- TLEN. -/
abbrev State.tlen (s : State) : Nat := s.tok.length

/-- The machine right after reset (R32, R195): STATUS, the error registers and the three memories as
the spec says. The other registers are unspecified there, and the zeros they hold here are the model's
choice: DESIGN CHOICE, log entry 5. -/
def State.reset : State where
  op := 0
  cArg := 0
  extArg := []
  posArg := 0
  status := .idle
  errClass := 0
  errCause := 0
  errPos := 0
  resC := 0
  resExt := 0
  resLen := 0
  resDist := 0
  resFlag := 0
  ly := ⟨0, 0, 0, 0, 0, 0, 0, 0, 0, 0⟩
  inp := ⟨[]⟩
  out := ⟨[]⟩
  tok := []
  icur := 0
  run := 0
  word := 0
  fLen := 0
  fDist := 0
  cpSrc := 0
  cpRem := 0
  curC := 0
  dstate := .readingControlField
  curE := 0
  startPending := false
  fine := false
  schedule := []
  hostSaw := none
  valid := { out := true, tok := true }
  written := {}
  freeCtr := 0

/-- What one turn amounts to before an instruction runs: run `i` in a state, or an outcome in which no
instruction runs. -/
inductive Fetch where
  | run (i : Instr) (s : State)
  | stop (o : Host.Outcome State Fault Refusal)

end Sys2Proof.Machine
end

