-- ==== Sys2Proof/Machine/Flags.lean ====
section
/-! DEFINITION. The one flag register STATUS and the error registers: their codes, and what the end of
an operation writes to them. -/

namespace Sys2Proof.Machine

/-- The 2-bit codes of STATUS (R24). -/
def Status.code : Status → BitVec 2
  | .idle => 0
  | .busy => 1
  | .done => 2
  | .error => 3

/-- ERR_CLASS of a cause (R170): 1 ConfigurationError, 2 FormatError, 3 DecodeError. -/
def Cause.errorClass : Cause → BitVec 2
  | .widthRange | .tokenRange => 1
  | .hdrShort | .badMagic | .hdrWidth | .cfTrunc | .litTrunc => 2
  | .backrefRange | .srcNotWritten => 3

/-- ERR_CAUSE of a cause (R170). -/
def Cause.code : Cause → BitVec 4
  | .widthRange => 1
  | .tokenRange => 2
  | .hdrShort => 3
  | .badMagic => 4
  | .hdrWidth => 5
  | .cfTrunc => 6
  | .litTrunc => 7
  | .backrefRange => 8
  | .srcNotWritten => 9

/-- The flags of an operation that completes: DONE, error registers zero (R24, R25). -/
def flagDone (s : State) : State :=
  { s with status := .done, errClass := 0, errCause := 0, errPos := 0 }

/-- The flags of an operation that fails: ERROR, the error record written (R24, R25, R170). -/
def flagError (cause : Cause) (pos : Nat) (s : State) : State :=
  { s with status := .error, errClass := cause.errorClass, errCause := cause.code, errPos := pos }

end Sys2Proof.Machine
end

