-- ==== Sys2Proof/Machine/Ops.lean ====
section
/-! DEFINITION. The named operations over memory and registers, the capacity test, the end of an
operation, and raising an error. -/

namespace Sys2Proof.Machine

/-- What a step answers. -/
abbrev Out := Host.Outcome State Fault Refusal

/-! ### Memory (R44, R46) -/

/-- Consecutive cells from index `a`. -/
def numbered : Nat → List Byte → List Host.Cell
  | _, [] => []
  | a, b :: bs => (a, b) :: numbered (a + 1) bs

/-- The memory that holds exactly the sequence `bs`. -/
def Memory.ofBytes (bs : List Byte) : Memory := ⟨numbered 0 bs⟩

/-- The empty memory. -/
def Memory.empty : Memory := ⟨[]⟩

/-- The length register of a memory (ILEN, OLEN). -/
def Memory.size (m : Memory) : Nat := m.cells.length

/-- The sequence a memory holds. -/
def Memory.bytes (m : Memory) : List Byte := m.cells.map Prod.snd

/-- One byte by its index; `none` where no byte has been written. -/
def Memory.read (m : Memory) (a : Nat) : Option Byte :=
  (m.cells.find? fun cell => cell.1 == a).map Prod.snd

/-- `MemRead(S, a, n)`, the bytes `S[a:a+n)` (R16, R18). -/
def Memory.slice (m : Memory) (a n : Nat) : List Byte := (m.bytes.drop a).take n

/-- `MemWrite(S, OLEN, 1, b)` and `OLEN <- OLEN + 1`, the only store there is (R18, R152). -/
def Memory.append (m : Memory) (b : Byte) : Memory := ⟨m.cells ++ [(m.size, b)]⟩

/-- The stores of a sequence of bytes, in order. -/
def Memory.appendAll (m : Memory) (bs : List Byte) : Memory := bs.foldl Memory.append m

/-- The canonical form: the indices listed are 0, 1, …, size - 1 in order (R44). They rise strictly, and
no entry equals what an unlisted index reads as, since an unlisted index has no value. -/
abbrev Memory.wf (m : Memory) : Prop := m.cells.map Prod.fst = List.range m.size

/-! ### Capacity (R13) -/

/-- Whether `n` bytes fit in a memory of capacity `cap`. -/
def fitsIn (cap : Option Nat) (n : Nat) : Bool :=
  match cap with
  | none => true
  | some k => decide (n ≤ k)

/-- The bytes a token list occupies in TOK. -/
def tokenBytes (ts : List Token) : Nat :=
  ts.foldr (fun t n => (match t with
    | .lit bs => Config.tokenBytes (some bs.length)
    | .copy _ _ => Config.tokenBytes none) + n) 0

/-- Whether the memories of `s` are within MEM_CAP (R13). -/
def withinCapacity (s : State) : Bool :=
  match Config.memCap with
  | none => true
  | some k => fitsIn (some k) s.inp.size && fitsIn (some k) s.out.size &&
      fitsIn (some k) (tokenBytes s.tok)

/-- The end of a start or of a meaning that stores: the state, if all three memories are within MEM_CAP, else
the refusal of R13. DESIGN CHOICE, log entry 3: the spec does not say at which point an operation that does
not fit is refused. Where `Config.memCap` is a number, operands that do not fit are refused at the start; an
output that does not fit, at the engine's turn that would store it, of a start already accepted. -/
def commit (s : State) : Out :=
  if withinCapacity s then .next s else .refused .overCapacity

/-! ### The end of an operation (R24 to R26) -/

/-- Every result register becomes unspecified: a free value each, and neither a register nor a memory is
valid until the operation writes it (R26, U7; log entries 6 and 27). -/
def openResults (s : State) : State :=
  { s with
    resC := Config.freeResC s.freeCtr
    resExt := Config.freeResExt s.freeCtr
    resLen := Config.freeResLen s.freeCtr
    resDist := Config.freeResDist s.freeCtr
    resFlag := Config.freeResFlag s.freeCtr
    valid := {}
    freeCtr := s.freeCtr + 1 }

/-- An operation completes: DONE, no error, every result register unspecified but those the operation
then writes (R24, R25, R26). DESIGN CHOICE, log entry 27: OUT, OLEN, TOK and TLEN that the operation does
not write keep their content, which the host then reads as "unspecified" (log entry 31). -/
def complete (s : State) : State := flagDone (openResults s)

/-- The layout registers hold free values. -/
def freeLayout (n : Nat) : BitLayout :=
  ⟨Config.freeLayout n 0, Config.freeLayout n 1, Config.freeLayout n 2, Config.freeLayout n 3,
   Config.freeLayout n 4, Config.freeLayout n 5, Config.freeLayout n 6, Config.freeLayout n 7,
   Config.freeLayout n 8, Config.freeLayout n 9⟩

/-- TAKING AN EXCEPTION, `raise E(cause, pos)` (R180): the error registers are written, OLEN becomes 0,
the result and layout registers become unspecified, STATUS becomes ERROR; IN, TOK and the request
registers are unchanged. There is no handler and no return (R184). -/
def raise (cause : Cause) (pos : Nat) (s : State) : State :=
  flagError cause pos
    { openResults s with out := Memory.empty, ly := freeLayout s.freeCtr }

end Sys2Proof.Machine
end

