-- ==== Sys2Proof/Machine/Operands.lean ====
section
/-! DEFINITION. The operands of the operations: the width in C_ARG, and the windows of raw bytes. -/

namespace Sys2Proof.Machine

/-- The width operand: `C_ARG` when it lies in `1..15` (R8, R171). -/
def widthOperand (s : State) : Option Nat :=
  if 1 ≤ s.cArg ∧ s.cArg ≤ 15 then some s.cArg else none

/-- The operands with which FINDMATCH is refused: a legal width, which is tested first, and a cursor beyond
the input (R100, 93 U12; log entry 22). -/
def cursorBeyond (s : State) : Bool := (widthOperand s).isSome && decide (s.ilen < s.posArg)

/-- `D[a:a+n)` (R16). -/
def sliceOf (d : List Byte) (a n : Nat) : List Byte := (d.drop a).take n

end Sys2Proof.Machine
end

