-- ==== Sys2Proof/Machine/Layout.lean ====
section
/-! DEFINITION. Unit lz77_bit_layout_calc: the function `layout` and the operation LAYOUT. -/

namespace Sys2Proof.Machine

/-- `layout(C)` (R81 to R84). -/
def layout (c : Nat) : BitLayout where
  totalBits := 8 * c
  usableBits := Sys2Proof.usableBits c
  literalLengthBits := Sys2Proof.usableBits c
  matchLengthBits := Sys2Proof.matchLengthBits c
  distanceBits := Sys2Proof.distanceBits c
  maxLiteralRun := 2 ^ Sys2Proof.usableBits c - 1
  maxMatchLength := 2 ^ Sys2Proof.matchLengthBits c - 1
  maxDistance := 2 ^ Sys2Proof.distanceBits c - 1
  windowSize := 2 ^ Sys2Proof.distanceBits c - 1
  lookaheadLimit := 2 ^ Sys2Proof.matchLengthBits c - 1

/-- LAYOUT (R80). -/
def execLayout (s : State) : Out :=
  match widthOperand s with
  | none => .next (raise .widthRange 0 s)
  | some c => .next { complete s with ly := layout c, valid := { ly := true } }

end Sys2Proof.Machine
end

