-- ==== Sys2Proof/Machine/HeaderCodec.lean ====
section
/-! DEFINITION. Unit lz77_header_codec: the extension table, the operations GENHDR, PARSEHDR and HDRCHK,
and the stream's HDR. -/

namespace Sys2Proof.Machine

/-! ### The extension table (R10, R121, R122) -/

/-- Whether an entry of a lower code, from 1 to `k`, is `v`. -/
def entryBelow (v : List Byte) : Nat → Bool
  | 0 => false
  | k + 1 => Config.rawExtTable (k + 1) == v || entryBelow v k

/-- EXT_TABLE (R10): `EXT_TABLE(0)` is empty and non-empty entries are distinct, whatever the entries
printed nowhere are: an entry that repeats a lower code's counts as unassigned (log entry 2). -/
def extTable (e : Nat) : List Byte :=
  match e with
  | 0 => []
  | k + 1 => if entryBelow (Config.rawExtTable (k + 1)) k then [] else Config.rawExtTable (k + 1)

/-- The least code in `e, e+1, …, e+k-1` whose entry is `s`, else 0. -/
def searchExt (s : List Byte) : Nat → Nat → Nat
  | _, 0 => 0
  | e, k + 1 => if extTable e = s then e else searchExt s (e + 1) k

/-- `ext_to_code` (R121): exact equality of byte strings; 0 for an empty or unrecognised one. -/
def extToCode (s : List Byte) : BitVec 4 :=
  if s = [] then 0 else BitVec.ofNat 4 (searchExt s 1 15)

/-- `code_to_ext` (R122). -/
def codeToExt (e : BitVec 4) : List Byte := extTable e.toNat

/-! ### The header bytes (R60) -/

/-- The two header bytes: `[MAGIC, C*16 + E]`. -/
def headerBytes (c : Nat) (e : BitVec 4) : List Byte := [magic, BitVec.ofNat 8 (c * 16 + e.toNat)]

/-- What the header tests find: a cause and a position, or `C` and `E` (R123, R124: length, then magic,
then width). -/
def parseHeader : List Byte → Except (Cause × Nat) (BitVec 4 × BitVec 4)
  | m :: b :: _ =>
    if m ≠ magic then .error (.badMagic, 0)
    else if b.extractLsb' 4 4 = 0#4 then .error (.hdrWidth, 1)
    else .ok (b.extractLsb' 4 4, b.extractLsb' 0 4)
  | _ => .error (.hdrShort, 0)

/-- GENHDR (R120). -/
def execGenhdr (s : State) : Out :=
  match widthOperand s with
  | none => .next (raise .widthRange 0 s)
  | some c => commit { complete s with
      out := Memory.ofBytes (headerBytes c (extToCode s.extArg))
      resExt := extToCode s.extArg
      valid := { resExt := true, out := true } }

/-- PARSEHDR (R123). -/
def execParsehdr (s : State) : Out :=
  match parseHeader s.inp.bytes with
  | .error (cause, pos) => .next (raise cause pos s)
  | .ok (c, e) => commit { complete s with
      out := Memory.ofBytes (s.inp.bytes.drop 2)
      resC := c
      resExt := e
      valid := { resC := true, resExt := true, out := true } }

/-- HDRCHK (R126): at least two bytes, and the first is MAGIC; the width is not tested; never fails.
OUT, which it does not write, keeps its content, unreadable to the host (DESIGN CHOICE, log entry 27). -/
def execHdrchk (s : State) : Out :=
  .next { complete s with
    resFlag := if 2 ≤ s.ilen ∧ s.inp.bytes.head? = some magic then 1 else 0
    valid := { resFlag := true } }

/-- HDR in a stream, the end of step 1 of R140: a width of 0 is HDR_WIDTH (R175; log entry 30); otherwise CUR_C and
the code are kept, OLEN becomes 0 and ICUR 2. -/
def execHdr (c e : BitVec 4) (s : State) : Out :=
  if c = 0#4 then .next (raise .hdrWidth 1 s)
  else .next { s with
    curC := c
    curE := e
    out := Memory.empty
    icur := 2
    dstate := .readingControlField }

end Sys2Proof.Machine
end

