-- ==== Sys2Proof/Machine/Decoder.lean ====
section
/-! DEFINITION. Unit lz77_stream_decoder: the stream instructions LIT and MATCH, and the operation
DECOMPRESS. -/

namespace Sys2Proof.Machine

/-! ### LIT (R144, R145) -/

/-- `LIT` with control-field width `c`: ICUR is at the control field, whose offset `T` an error reports.
The whole payload is tested before a byte is appended. What STATUS and CUR_C hold is not looked at (log
entry 18). -/
def runLit (c len : Nat) (s : State) : Out :=
  if s.ilen - (s.icur + c) < len then
    .next (raise .litTrunc s.icur
      { s with icur := s.icur + c, fLen := len, dstate := .readingLiteralPayload })
  else
    commit { s with
      out := s.out.appendAll (s.inp.slice (s.icur + c) len)
      icur := s.icur + c + len
      fLen := len
      dstate := .readingControlField }

/-! ### MATCH (R146, R147) -/

/-- The registers of a match copy: CP_SRC, CP_REM and OUT. -/
structure CopyRegs where
  src : Nat
  left : Nat
  out : Memory
deriving DecidableEq, Repr

/-- The copy loop of R146: one byte a pass, read and write index advancing together (R47). It stops
early, with `left > 0`, at a source byte that has not been written (R147). -/
def copyLoop : Nat → Nat → Memory → CopyRegs
  | 0, src, m => ⟨src, 0, m⟩
  | k + 1, src, m =>
    match m.read src with
    | none => ⟨src, k + 1, m⟩
    | some b => copyLoop k (src + 1) (m.append b)

/-- `MATCH` with control-field width `c`: `start = OLEN - distance` must not be negative, even when
nothing is copied. What STATUS and CUR_C hold is not looked at (log entry 18). -/
def runMatch (c len dist : Nat) (s : State) : Out :=
  if s.olen < dist then
    .next (raise .backrefRange s.icur
      { s with icur := s.icur + c, fLen := len, fDist := dist, dstate := .copyingMatch })
  else
    match copyLoop len (s.olen - dist) s.out with
    | ⟨src, 0, m⟩ =>
      commit { s with
        out := m
        icur := s.icur + c
        fLen := len
        fDist := dist
        cpSrc := src
        cpRem := 0
        dstate := .readingControlField }
    | ⟨src, k + 1, _⟩ =>
      .next (raise .srcNotWritten s.icur
        { s with
          icur := s.icur + c
          fLen := len
          fDist := dist
          cpSrc := src
          cpRem := k + 1
          dstate := .copyingMatch })

/-! ### The thirty stream instructions -/

/-- LIT.C1 (R144; field of R66). -/
def execLitC1 (len : BitVec 7) (s : State) : Out := runLit 1 len.toNat s

/-- LIT.C2 (R144; field of R66). -/
def execLitC2 (len : BitVec 15) (s : State) : Out := runLit 2 len.toNat s

/-- LIT.C3 (R144; field of R66). -/
def execLitC3 (len : BitVec 23) (s : State) : Out := runLit 3 len.toNat s

/-- LIT.C4 (R144; field of R66). -/
def execLitC4 (len : BitVec 31) (s : State) : Out := runLit 4 len.toNat s

/-- LIT.C5 (R144; field of R66). -/
def execLitC5 (len : BitVec 39) (s : State) : Out := runLit 5 len.toNat s

/-- LIT.C6 (R144; field of R66). -/
def execLitC6 (len : BitVec 47) (s : State) : Out := runLit 6 len.toNat s

/-- LIT.C7 (R144; field of R66). -/
def execLitC7 (len : BitVec 55) (s : State) : Out := runLit 7 len.toNat s

/-- LIT.C8 (R144; field of R66). -/
def execLitC8 (len : BitVec 63) (s : State) : Out := runLit 8 len.toNat s

/-- LIT.C9 (R144; field of R66). -/
def execLitC9 (len : BitVec 71) (s : State) : Out := runLit 9 len.toNat s

/-- LIT.C10 (R144; field of R66). -/
def execLitC10 (len : BitVec 79) (s : State) : Out := runLit 10 len.toNat s

/-- LIT.C11 (R144; field of R66). -/
def execLitC11 (len : BitVec 87) (s : State) : Out := runLit 11 len.toNat s

/-- LIT.C12 (R144; field of R66). -/
def execLitC12 (len : BitVec 95) (s : State) : Out := runLit 12 len.toNat s

/-- LIT.C13 (R144; field of R66). -/
def execLitC13 (len : BitVec 103) (s : State) : Out := runLit 13 len.toNat s

/-- LIT.C14 (R144; field of R66). -/
def execLitC14 (len : BitVec 111) (s : State) : Out := runLit 14 len.toNat s

/-- LIT.C15 (R144; field of R66). -/
def execLitC15 (len : BitVec 119) (s : State) : Out := runLit 15 len.toNat s

/-- MATCH.C1 (R146; fields of R66). -/
def execMatchC1 (len : BitVec 3) (dist : BitVec 4) (s : State) : Out :=
  runMatch 1 len.toNat dist.toNat s

/-- MATCH.C2 (R146; fields of R66). -/
def execMatchC2 (len : BitVec 5) (dist : BitVec 10) (s : State) : Out :=
  runMatch 2 len.toNat dist.toNat s

/-- MATCH.C3 (R146; fields of R66). -/
def execMatchC3 (len : BitVec 7) (dist : BitVec 16) (s : State) : Out :=
  runMatch 3 len.toNat dist.toNat s

/-- MATCH.C4 (R146; fields of R66). -/
def execMatchC4 (len : BitVec 10) (dist : BitVec 21) (s : State) : Out :=
  runMatch 4 len.toNat dist.toNat s

/-- MATCH.C5 (R146; fields of R66). -/
def execMatchC5 (len : BitVec 13) (dist : BitVec 26) (s : State) : Out :=
  runMatch 5 len.toNat dist.toNat s

/-- MATCH.C6 (R146; fields of R66). -/
def execMatchC6 (len : BitVec 15) (dist : BitVec 32) (s : State) : Out :=
  runMatch 6 len.toNat dist.toNat s

/-- MATCH.C7 (R146; fields of R66). -/
def execMatchC7 (len : BitVec 18) (dist : BitVec 37) (s : State) : Out :=
  runMatch 7 len.toNat dist.toNat s

/-- MATCH.C8 (R146; fields of R66). -/
def execMatchC8 (len : BitVec 21) (dist : BitVec 42) (s : State) : Out :=
  runMatch 8 len.toNat dist.toNat s

/-- MATCH.C9 (R146; fields of R66). -/
def execMatchC9 (len : BitVec 23) (dist : BitVec 48) (s : State) : Out :=
  runMatch 9 len.toNat dist.toNat s

/-- MATCH.C10 (R146; fields of R66). -/
def execMatchC10 (len : BitVec 26) (dist : BitVec 53) (s : State) : Out :=
  runMatch 10 len.toNat dist.toNat s

/-- MATCH.C11 (R146; fields of R66). -/
def execMatchC11 (len : BitVec 29) (dist : BitVec 58) (s : State) : Out :=
  runMatch 11 len.toNat dist.toNat s

/-- MATCH.C12 (R146; fields of R66). -/
def execMatchC12 (len : BitVec 31) (dist : BitVec 64) (s : State) : Out :=
  runMatch 12 len.toNat dist.toNat s

/-- MATCH.C13 (R146; fields of R66). -/
def execMatchC13 (len : BitVec 34) (dist : BitVec 69) (s : State) : Out :=
  runMatch 13 len.toNat dist.toNat s

/-- MATCH.C14 (R146; fields of R66). -/
def execMatchC14 (len : BitVec 37) (dist : BitVec 74) (s : State) : Out :=
  runMatch 14 len.toNat dist.toNat s

/-- MATCH.C15 (R146; fields of R66). -/
def execMatchC15 (len : BitVec 39) (dist : BitVec 80) (s : State) : Out :=
  runMatch 15 len.toNat dist.toNat s

/-! ### DECOMPRESS (R140) -/

/-- The start of a DECOMPRESS, before its header is read. The pseudocode of R140 writes ICUR only after the
header tests; until then, and after a header error, it is 0 here, the index of the next byte not yet
consumed (R30). DESIGN CHOICE, log entry 29. -/
def beginDecompress (s : State) : State :=
  { s with status := .busy, icur := 0, dstate := .readingHeader }

/-- Step 3 of R140: the results, and DONE. -/
def finishDecompress (s : State) : State :=
  { complete s with
    resC := s.curC
    resExt := s.curE
    valid := { resC := true, resExt := true, out := true } }

/-- Step 1 of R140: the header tests of R124 and what a header does. -/
def headerTick (s : State) : Out :=
  match s.inp.bytes with
  | m :: b :: _ =>
    if m ≠ magic then .next (raise .badMagic 0 s)
    else execHdr (b.extractLsb' 4 4) (b.extractLsb' 0 4) s
  | _ => .next (raise .hdrShort 0 s)

/-- A control field is read and its token executed (R143, then R144 or R146). The width is never 0 once a
header has been read; with a width of 0 the error is HDR_WIDTH (log entry 19). -/
def tokenTick (s : State) : Out :=
  if s.ilen - s.icur < s.curC.toNat then .next (raise .cfTrunc s.icur s)
  else if s.curC = 0#4 then .next (raise .hdrWidth 1 s)
  else
    if signalOf s.curC.toNat (fromBe (s.inp.slice s.icur s.curC.toNat)) = 0 then
      runLit s.curC.toNat (litLenOf s.curC.toNat (fromBe (s.inp.slice s.icur s.curC.toNat)))
        { s with word := BitVec.ofNat 120 (fromBe (s.inp.slice s.icur s.curC.toNat)) }
    else
      runMatch s.curC.toNat (matchLenOf s.curC.toNat (fromBe (s.inp.slice s.icur s.curC.toNat)))
        (matchDistOf s.curC.toNat (fromBe (s.inp.slice s.icur s.curC.toNat)))
        { s with word := BitVec.ofNat 120 (fromBe (s.inp.slice s.icur s.curC.toNat)) }

/-- One tick of the decoder: the header, a token, or, when ICUR has consumed IN, the end (R141). -/
def decoderTick (s : State) : Out :=
  match s.dstate with
  | .readingHeader => headerTick s
  | _ => if s.icur < s.ilen then tokenTick s else .next (finishDecompress s)

/-- Ticks until the operation has ended, at most `k`. -/
def runDecoder : Nat → State → Out
  | 0, s => .next s
  | k + 1, s =>
    match s.status with
    | .busy =>
      match decoderTick s with
      | .next t => runDecoder k t
      | .fault r => .fault r
      | .refused r => .refused r
    | _ => .next s

/-- DECOMPRESS (R140): run to its end, or, where the host asked for the finer grain, only begun, so that
the following steps run the stream one instruction at a time (R21, log entry 10). Every token takes at
least one byte of IN, so `ILEN + 2` ticks are enough (R148). -/
def execDecompress (s : State) : Out :=
  if s.fine then .next (beginDecompress s) else runDecoder (s.ilen + 2) (beginDecompress s)

end Sys2Proof.Machine
end

