-- ==== Sys2Proof/Machine/MatchFinder.lean ====
section
/-! DEFINITION. Unit lz77_match_finder: the search and the operation FINDMATCH. -/

namespace Sys2Proof.Machine

/-- Whether `D[p:p+j) = D[i:i+j)` (R102). -/
def occurs (d : List Byte) (p i j : Nat) : Bool := sliceOf d p j == sliceOf d i j

/-- The largest start `p` in `[w0, w0 + k)` at which length `j` occurs. -/
def lastOccurrence (d : List Byte) (w0 i j : Nat) : Nat → Option Nat
  | 0 => none
  | k + 1 => if occurs d (w0 + k) i j then some (w0 + k) else lastOccurrence d w0 i j k

/-- How many starts `p` satisfy `w0 <= p` and `p + j <= i` (R102). -/
def candidates (w0 i j : Nat) : Nat := i + 1 - (w0 + j)

/-- The loop of R102 from candidate length `j` on, with `r` lengths left to try and the best
`(length, distance)` so far: it ends at the first length that does not occur. -/
def grow (d : List Byte) (w0 i : Nat) : Nat → Nat → Nat × Nat → Nat × Nat
  | 0, _, best => best
  | r + 1, j, best =>
    match lastOccurrence d w0 i j (candidates w0 i j) with
    | none => best
    | some p => grow d w0 i r (j + 1) (j, i - p)

/-- The start of the search window (R101). -/
def windowStart (l : BitLayout) (i : Nat) : Nat := i - l.windowSize

/-- The size of the lookahead window (R101). -/
def lookaheadSize (l : BitLayout) (n i : Nat) : Nat := min l.lookaheadLimit (n - i)

/-- `findmatch(D, i, L)`: (length, distance), `(0, 0)` for no match (R102). -/
def findmatch (d : List Byte) (i : Nat) (l : BitLayout) : Nat × Nat :=
  grow d (windowStart l i) i (lookaheadSize l d.length i) 1 (0, 0)

/-- FINDMATCH (R100): the width is tested before anything else; POS_ARG beyond ILEN is refused. A start with
such operands is refused already (`hostStart`), so that only a state no run reaches is refused here. -/
def execFindmatch (s : State) : Out :=
  match widthOperand s with
  | none => .next (raise .widthRange 0 s)
  | some c =>
    if s.ilen < s.posArg then .refused .posBeyondInput
    else .next { complete s with
      resLen := (findmatch s.inp.bytes s.posArg (layout c)).1
      resDist := (findmatch s.inp.bytes s.posArg (layout c)).2
      valid := { resLen := true, resDist := true } }

end Sys2Proof.Machine
end

