-- ==== Sys2Proof/Machine/Tokenizer.lean ====
section
/-! DEFINITION. Unit lz77_tokenizer: the greedy token loop and the operation TOKENIZE; the token model's
`wf` and `expand`. -/

namespace Sys2Proof.Machine

/-! ### The token model (R90 to R95) -/

/-- Well-formedness of a token under a layout (R92). -/
def Token.wf (l : BitLayout) : Token → Bool
  | .lit bs => decide (bs.length ≤ l.maxLiteralRun)
  | .copy d n => decide (1 ≤ d ∧ d ≤ l.maxDistance ∧ n ≤ l.maxMatchLength)

/-- Copy `n` bytes one at a time, each the byte `d` before the write position (R94, R95). -/
def copyBack (d : Nat) : Nat → List Byte → List Byte
  | 0, o => o
  | n + 1, o => copyBack d n (o ++ [o.getD (o.length - d) 0#8])

/-- One token of `expand` (R94): the copy is defined only when `1 <= distance <= |o|`. -/
def expandToken (o : List Byte) : Token → Option (List Byte)
  | .lit bs => some (o ++ bs)
  | .copy d n => if 1 ≤ d ∧ d ≤ o.length then some (copyBack d n o) else none

/-- `expand` from an output `o` (R94). -/
def expandFrom (o : List Byte) : List Token → Option (List Byte)
  | [] => some o
  | t :: ts =>
    match expandToken o t with
    | none => none
    | some o' => expandFrom o' ts

/-- `expand(ts)` (R94). -/
def expand (ts : List Token) : Option (List Byte) := expandFrom [] ts

/-! ### The loop (R111) -/

/-- The tokenizer's registers: ICUR, RUN and the tokens emitted. -/
structure TokRegs where
  icur : Nat
  run : Nat
  toks : List Token
deriving DecidableEq, Repr

/-- Flush the pending literal run, the `run` bytes before index `e`; an empty run emits nothing
(R111). -/
def flushRun (d : List Byte) (e run : Nat) (ts : List Token) : List Token :=
  if 0 < run then ts ++ [.lit (sliceOf d (e - run) run)] else ts

/-- One pass of the loop (R111, R112): an accepted match flushes the run and is emitted; otherwise one
byte joins the run, which is flushed when it is full. -/
def tokPass (d : List Byte) (c : Nat) (l : BitLayout) (r : TokRegs) : TokRegs :=
  match findmatch d r.icur l with
  | (len, dist) =>
    if c < len then
      ⟨r.icur + len, 0, flushRun d r.icur r.run r.toks ++ [.copy dist len]⟩
    else if r.run + 1 = l.maxLiteralRun then
      ⟨r.icur + 1, 0, flushRun d (r.icur + 1) (r.run + 1) r.toks⟩
    else
      ⟨r.icur + 1, r.run + 1, r.toks⟩

/-- The loop while `ICUR < n`; every pass advances ICUR, so `n` passes are enough. -/
def tokLoop (d : List Byte) (c : Nat) (l : BitLayout) : Nat → TokRegs → TokRegs
  | 0, r => r
  | k + 1, r => if r.icur < d.length then tokLoop d c l k (tokPass d c l r) else r

/-- The registers when the loop has ended. -/
def tokRun (d : List Byte) (c : Nat) : TokRegs := tokLoop d c (layout c) d.length ⟨0, 0, []⟩

/-- `tokenize(D, C)` (R111): at the end of the input any pending run is flushed. -/
def tokenize (d : List Byte) (c : Nat) : List Token :=
  flushRun d d.length (tokRun d c).run (tokRun d c).toks

/-- TOKENIZE (R110). On the error TLEN becomes 0 (R180). -/
def execTokenize (s : State) : Out :=
  match widthOperand s with
  | none => .next { raise .widthRange 0 s with tok := [] }
  | some c => commit { complete s with
      tok := tokenize s.inp.bytes c
      valid := { tok := true }
      icur := (tokRun s.inp.bytes c).icur
      run := (tokRun s.inp.bytes c).run }

end Sys2Proof.Machine
end

