-- ==== Sys2Proof/Machine/Encoder.lean ====
section
/-! DEFINITION. Unit lz77_stream_encoder: packing tokens, and the operation ENCODE. -/

namespace Sys2Proof.Machine

/-- The control word of a token (R131, R132). -/
def tokenWord (c : Nat) : Token → Nat
  | .lit bs => litWord bs.length
  | .copy d n => matchWord c n d

/-- The payload that follows a token's control field (R131, R132). -/
def tokenPayload : Token → List Byte
  | .lit bs => bs
  | .copy _ _ => []

/-- `enc(t, L)` (R131, R132). -/
def encToken (c : Nat) (t : Token) : List Byte := be c (tokenWord c t) ++ tokenPayload t

/-- `encode(ts, C)` (R130, R133): no header, no terminator, no padding. -/
def encodeTokens (c : Nat) (ts : List Token) : List Byte := ts.flatMap (encToken c)

/-- The index, counted from `k`, of the first token that is not well-formed (R134). -/
def firstBad (l : BitLayout) : Nat → List Token → Option Nat
  | _, [] => none
  | k, t :: ts => if t.wf l then firstBad l (k + 1) ts else some k

/-- WORD after packing: the control word last built (R28); unchanged when there is no token. -/
def lastWord (c : Nat) (w : Word) (ts : List Token) : Word :=
  ts.foldl (fun _ t => BitVec.ofNat 120 (tokenWord c t)) w

/-- ENCODE (R130, R134). -/
def execEncode (s : State) : Out :=
  match widthOperand s with
  | none => .next (raise .widthRange 0 s)
  | some c =>
    match firstBad (layout c) 0 s.tok with
    | some k => .next (raise .tokenRange k { s with word := lastWord c s.word (s.tok.take k) })
    | none => commit { complete s with
        out := Memory.ofBytes (encodeTokens c s.tok)
        valid := { out := true }
        word := lastWord c s.word s.tok }

end Sys2Proof.Machine
end

