-- ==== Sys2Proof/Machine/Codec.lean ====
section
/-! DEFINITION. The codec entry point COMPRESS. DECOMPRESS is the stream decoder itself (R158). -/

namespace Sys2Proof.Machine

/-- COMPRESS (R155): header ++ encode(tokenize(IN)). TOK is not written (R156); the tokenizer's and the
encoder's working registers are (R28). -/
def execCompress (s : State) : Out :=
  match widthOperand s with
  | none => .next (raise .widthRange 0 s)
  | some c => commit { complete s with
      out := Memory.ofBytes
        (headerBytes c (extToCode s.extArg) ++ encodeTokens c (tokenize s.inp.bytes c))
      resExt := extToCode s.extArg
      valid := { resExt := true, out := true }
      icur := (tokRun s.inp.bytes c).icur
      run := (tokRun s.inp.bytes c).run
      word := lastWord c s.word (tokenize s.inp.bytes c) }

end Sys2Proof.Machine
end

