-- ==== Sys2Proof/Machine/Dispatch.lean ====
section
/-! DEFINITION. The dispatch: one arm for each instruction. -/

namespace Sys2Proof.Machine

def exec (i : Instr) (s : State) : Host.Outcome State Fault Refusal :=
  match i with
  | .hdr c e => Sys2Proof.Machine.execHdr c e s
  | .litC1 len => Sys2Proof.Machine.execLitC1 len s
  | .litC2 len => Sys2Proof.Machine.execLitC2 len s
  | .litC3 len => Sys2Proof.Machine.execLitC3 len s
  | .litC4 len => Sys2Proof.Machine.execLitC4 len s
  | .litC5 len => Sys2Proof.Machine.execLitC5 len s
  | .litC6 len => Sys2Proof.Machine.execLitC6 len s
  | .litC7 len => Sys2Proof.Machine.execLitC7 len s
  | .litC8 len => Sys2Proof.Machine.execLitC8 len s
  | .litC9 len => Sys2Proof.Machine.execLitC9 len s
  | .litC10 len => Sys2Proof.Machine.execLitC10 len s
  | .litC11 len => Sys2Proof.Machine.execLitC11 len s
  | .litC12 len => Sys2Proof.Machine.execLitC12 len s
  | .litC13 len => Sys2Proof.Machine.execLitC13 len s
  | .litC14 len => Sys2Proof.Machine.execLitC14 len s
  | .litC15 len => Sys2Proof.Machine.execLitC15 len s
  | .matchC1 len dist => Sys2Proof.Machine.execMatchC1 len dist s
  | .matchC2 len dist => Sys2Proof.Machine.execMatchC2 len dist s
  | .matchC3 len dist => Sys2Proof.Machine.execMatchC3 len dist s
  | .matchC4 len dist => Sys2Proof.Machine.execMatchC4 len dist s
  | .matchC5 len dist => Sys2Proof.Machine.execMatchC5 len dist s
  | .matchC6 len dist => Sys2Proof.Machine.execMatchC6 len dist s
  | .matchC7 len dist => Sys2Proof.Machine.execMatchC7 len dist s
  | .matchC8 len dist => Sys2Proof.Machine.execMatchC8 len dist s
  | .matchC9 len dist => Sys2Proof.Machine.execMatchC9 len dist s
  | .matchC10 len dist => Sys2Proof.Machine.execMatchC10 len dist s
  | .matchC11 len dist => Sys2Proof.Machine.execMatchC11 len dist s
  | .matchC12 len dist => Sys2Proof.Machine.execMatchC12 len dist s
  | .matchC13 len dist => Sys2Proof.Machine.execMatchC13 len dist s
  | .matchC14 len dist => Sys2Proof.Machine.execMatchC14 len dist s
  | .matchC15 len dist => Sys2Proof.Machine.execMatchC15 len dist s
  | .layout => Sys2Proof.Machine.execLayout s
  | .findmatch => Sys2Proof.Machine.execFindmatch s
  | .tokenize => Sys2Proof.Machine.execTokenize s
  | .genhdr => Sys2Proof.Machine.execGenhdr s
  | .parsehdr => Sys2Proof.Machine.execParsehdr s
  | .hdrchk => Sys2Proof.Machine.execHdrchk s
  | .encode => Sys2Proof.Machine.execEncode s
  | .compress => Sys2Proof.Machine.execCompress s
  | .decompress => Sys2Proof.Machine.execDecompress s

end Sys2Proof.Machine
end

