-- ==== Sys2Proof/Machine/HostPort.lean ====
section
/-! DEFINITION. The host's side of the block: what each of its moves does, by the protocol of R199 to
R202 (log entries 13 and 14). -/

namespace Sys2Proof.Machine

/-- Whether the host may write operands: not while an operation runs (R199, R200). -/
def hostMayWrite (s : State) : Bool := decide (s.status ≠ .busy)

/-- `v` where what is read holds a specified value, else the "unspecified" wrapper of 93 U7. -/
def readAs (specified : Bool) (v : HostValue) : HostValue := if specified then v else .unspecified

/-- What a register or memory reads as: its value where that is specified; "unspecified" for a result
register or the layout registers that no operation has written since reset or that the last one did not
write (R26, R27, R32, R202), and for the content and length of OUT or TOK after an operation that did not
write them (U7, U13; DESIGN CHOICE, log entries 27 and 31). After an ERROR OLEN reads as 0, and so does TLEN
after that of a TOKENIZE (R180, R202). -/
def readValue (s : State) : ReadReg → HostValue
  | .status => .num s.status.code.toNat
  | .errClass => .num s.errClass.toNat
  | .errCause => .num s.errCause.toNat
  | .errPos => .num s.errPos
  | .resC => readAs s.valid.resC (.num s.resC.toNat)
  | .resExt => readAs s.valid.resExt (.num s.resExt.toNat)
  | .resLen => readAs s.valid.resLen (.num s.resLen)
  | .resDist => readAs s.valid.resDist (.num s.resDist)
  | .resFlag => readAs s.valid.resFlag (.num s.resFlag.toNat)
  | .ly => readAs s.valid.ly (.layout s.ly)
  | .olen => readAs (s.valid.out || decide (s.status = .error)) (.num s.olen)
  | .outBytes => readAs s.valid.out (.bytes s.out.bytes)
  | .tlen => readAs (s.valid.tok || decide (s.status = .error ∧ s.op = 3#4)) (.num s.tlen)
  | .tokens => readAs s.valid.tok (.tokens s.tok)

/-- Whether the host may read `r` now: STATUS always, anything else when no operation runs (R199 step 4,
R200, U8). -/
def hostMayRead (s : State) : ReadReg → Bool
  | .status => true
  | _ => decide (s.status ≠ .busy)

/-- A write of an operand: no move while BUSY (R200, U8). A write of a request register also records that it
has been written (log entry 28). -/
def hostWrite (s t : State) : Out := if hostMayWrite s then .next t else .fault .hostNoMove

/-- The request registers as a start finds them: one that no host has written since reset holds any value
(R32, 93 U7), a free value, which it keeps from then on. DESIGN CHOICE, log entry 28. -/
def settleRequest (s : State) : State :=
  { s with
    cArg := if s.written.cArg then s.cArg else (Config.freeCArg s.freeCtr).toNat
    extArg := if s.written.extArg then s.extArg else Config.freeExtArg s.freeCtr
    posArg := if s.written.posArg then s.posArg else Config.freePosArg s.freeCtr
    written := ⟨true, true, true⟩
    freeCtr := s.freeCtr + 1 }

/-- The state a start leaves: OP is written, STATUS is BUSY, and the engine has the start to take (R24,
R199). -/
def started (op : BitVec 4) (fine : Bool) (s : State) : State :=
  { settleRequest s with op := op, fine := fine, status := .busy, startPending := true }

/-- A start (R199 step 3): ignored while BUSY (R201); refused, and no state changed, for a reserved code
(R74, U9), for a FINDMATCH with a legal width and POS_ARG beyond ILEN (R100, U12; log entry 22), and where
the operands exceed MEM_CAP (R13; log entry 3); else accepted. DESIGN CHOICE, log entry 28: every operand is
what its register or memory holds, whichever operations came since it was written, or, for a request register
never written, any value. -/
def hostStart (op : BitVec 4) (fine : Bool) (s : State) : Out :=
  if s.status = .busy then .next s
  else if op = 0#4 ∨ 9 < op.toNat then .refused (.reservedOp op)
  else if op = 2#4 ∧ cursorBeyond (settleRequest s) = true then .refused .posBeyondInput
  else commit (started op fine s)

/-- A read: what `readValue` says, and no move for anything but STATUS while BUSY (R200, U8). No register
has a side effect on read (R48). DESIGN CHOICE, log entry 31: a host that goes beyond the reads of R199
step 5 reads "unspecified". -/
def hostRead (r : ReadReg) (s : State) : Out :=
  if hostMayRead s r then .next { s with hostSaw := some (readValue s r) } else .fault .hostNoMove

/-- Reset, also of a running operation (R195, R196). The host's own plans and what it saw, and the count
of free values drawn, are not the block's and stay (log entry 21). -/
def hostReset (s : State) : State :=
  { State.reset with schedule := s.schedule, hostSaw := s.hostSaw, freeCtr := s.freeCtr }

/-- One move of the host. -/
def hostMove (m : HostMove) (s : State) : Out :=
  match m with
  | .writeC n => hostWrite s { s with cArg := n.toNat, written := { s.written with cArg := true } }
  | .writeExt e => hostWrite s { s with extArg := e, written := { s.written with extArg := true } }
  | .writePos n => hostWrite s { s with posArg := n, written := { s.written with posArg := true } }
  | .loadIn bs => hostWrite s { s with inp := Memory.ofBytes bs }
  | .loadTok ts => hostWrite s { s with tok := ts, valid := { s.valid with tok := true } }
  | .start op fine => hostStart op fine s
  | .read r => hostRead r s
  | .reset => .next (hostReset s)

end Sys2Proof.Machine
end

