-- ==== Sys2Proof/Machine/Fetch.lean ====
section
/-! DEFINITION. Which instruction the next turn runs. -/

namespace Sys2Proof.Machine

/-- The error of bytes that are no instruction (R143, R173, R174; the width 0 of log entry 19). -/
def rejectError (r : Reject) (s : State) : State :=
  match r with
  | .hdrShort => raise .hdrShort 0 s
  | .badMagic => raise .badMagic 0 s
  | .cfTrunc => raise .cfTrunc s.icur s
  | .noWidth => raise .hdrWidth 1 s
  | .noOp => raise .hdrWidth 1 s
  | .reservedOp _ => raise .hdrWidth 1 s

/-- The state in which the token at ICUR runs: WORD holds its control word (R140). -/
def withWord (s : State) : State :=
  { s with word := BitVec.ofNat 120 (fromBe (s.inp.slice s.icur s.curC.toNat)) }

/-- The pending start: OP is decoded (R74). -/
def fetchOp (s : State) : Fetch :=
  match decode .host [s.op.setWidth 8] with
  | .ok (i, _) => .run i { s with startPending := false }
  | .error _ => .stop (.refused (.reservedOp s.op))

/-- The next instruction of a stepped DECOMPRESS: the header, or the token at ICUR, or, when IN is
consumed, the end (R140, R141, R143). -/
def fetchStream (s : State) : Fetch :=
  match s.dstate with
  | .readingHeader =>
    match decode .header s.inp.bytes with
    | .ok (i, _) => .run i s
    | .error r => .stop (.next (rejectError r s))
  | _ =>
    if s.icur < s.ilen then
      match decode (.field s.curC.toNat) (s.inp.bytes.drop s.icur) with
      | .ok (i, _) => .run i (withWord s)
      | .error r => .stop (.next (rejectError r s))
    else .stop (.next (finishDecompress s))

/-- The engine's turn: a pending start, the running DECOMPRESS, or nothing to do (R33, log entry 15). -/
def engineTurn (s : State) : Fetch :=
  match s.status with
  | .busy => if s.startPending then fetchOp s else fetchStream s
  | _ => .stop (.next s)

/-- The next turn, as the schedule says; when the schedule is empty the engine moves. -/
def fetch (s : State) : Fetch :=
  match s.schedule with
  | .host m :: rest => .stop (hostMove m { s with schedule := rest })
  | .engine :: rest => engineTurn { s with schedule := rest }
  | [] => engineTurn s

/-! ### Placing a table word where the next step fetches it (log entry 17) -/

/-- The stream bytes a width-`c` control field stands in: a header of that width before it, and after it
zero bytes, for its payload if it has one. -/
def streamFor (c : Nat) (field : List Byte) : List Byte :=
  headerBytes c 0 ++ field ++
    List.replicate (if signalOf c (fromBe field) = 0 then min (litLenOf c (fromBe field)) 256 else 0) 0#8

/-- `s` with a table word placed as the next instruction. -/
def placeWord (s : State) (nbits w : Nat) : State :=
  match tableMode nbits w with
  | some .host =>
    { s with op := BitVec.ofNat 4 w, status := .busy, startPending := true, schedule := [] }
  | some .header =>
    { s with
      inp := Memory.ofBytes (tableBytes nbits w)
      icur := 0
      dstate := .readingHeader
      status := .busy
      startPending := false
      schedule := [] }
  | some (.field c) =>
    { s with
      inp := Memory.ofBytes (streamFor c (tableBytes nbits w))
      icur := 2
      curC := BitVec.ofNat 4 c
      dstate := .readingControlField
      status := .busy
      startPending := false
      schedule := [] }
  | none => s

end Sys2Proof.Machine
end

