-- ==== Sys2Proof/Safety.lean ====
section
/-! DEFINITION. What counts as a legal state and a safe step, in the terms the statements use. -/

namespace Sys2Proof.Machine

/-- The error registers hold zero (R25). -/
def NoError (s : State) : Prop := s.errClass = 0#2 ∧ s.errCause = 0#4 ∧ s.errPos = 0

/-- The error registers hold the record of `cause` at `pos` (R170). -/
def ErrorRecord (s : State) (cause : Cause) (pos : Nat) : Prop :=
  s.errClass = cause.errorClass ∧ s.errCause = cause.code ∧ s.errPos = pos

/-- The error registers fit STATUS: zero when IDLE or DONE, a record of the table of R170 when ERROR, one
or the other while BUSY (R24, R25, R170). -/
def LegalFlags (s : State) : Prop :=
  match s.status with
  | .idle | .done => NoError s
  | .error => ∃ cause pos, ErrorRecord s cause pos
  | .busy => NoError s ∨ ∃ cause pos, ErrorRecord s cause pos

/-- A start the engine has not taken yet: the block is BUSY, and the code is not a reserved one (R24,
R74). -/
def LegalStart (s : State) : Prop :=
  s.startPending = true → s.status = .busy ∧ 1 ≤ s.op.toNat ∧ s.op.toNat ≤ 9

/-- A running DECOMPRESS past its header has a legal width, and its cursor is within IN (R8, R30). -/
def LegalStream (s : State) : Prop :=
  s.status = .busy → s.startPending = false → s.dstate ≠ .readingHeader →
    s.curC ≠ 0#4 ∧ s.icur ≤ s.ilen

/-- The invariant of the machine: both byte memories in canonical form, the flags, the pending start and
the stream registers legal. -/
def Inv (s : State) : Prop :=
  s.inp.wf ∧ s.out.wf ∧ LegalFlags s ∧ LegalStart s ∧ LegalStream s

/-- A safe step: it does not stop with a fault. Faults are raised by host moves only, so a run is safe
exactly when the host follows the protocol of R199. -/
def SafeStep (s : State) : Prop := ∀ r, step s ≠ .fault r

end Sys2Proof.Machine
end

