-- ==== Sys2Proof/Certificates/Slice0/Obligations.lean ====
section
/-! DEFINITION. The statements for the provers, each from the numbered rules of spec/. -/

namespace Sys2Proof.Machine.Claims

/-! ### What stays as it was -/

/-- The request registers are unchanged (R23). -/
def KeepsRequest (s t : State) : Prop :=
  t.op = s.op ∧ t.cArg = s.cArg ∧ t.extArg = s.extArg ∧ t.posArg = s.posArg

/-- IN is unchanged: every byte reads as before, and so does ILEN. -/
def KeepsIn (s t : State) : Prop :=
  t.inp.bytes = s.inp.bytes ∧ t.ilen = s.ilen ∧ ∀ a, t.inp.read a = s.inp.read a

/-- OUT is unchanged: every byte reads as before, and so does OLEN. That it stays so through an operation
that does not write it is the model's choice (log entry 27). -/
def KeepsOut (s t : State) : Prop :=
  t.out.bytes = s.out.bytes ∧ t.olen = s.olen ∧ ∀ a, t.out.read a = s.out.read a

/-- The host's plans, what it saw, which request registers have been written, and the start latch, are
unchanged. -/
def KeepsHost (s t : State) : Prop :=
  t.startPending = s.startPending ∧ t.fine = s.fine ∧ t.schedule = s.schedule ∧
    t.hostSaw = s.hostSaw ∧ t.written = s.written

/-- STATUS and the error registers are unchanged. -/
def KeepsFlags (s t : State) : Prop :=
  t.status = s.status ∧ t.errClass = s.errClass ∧ t.errCause = s.errCause ∧ t.errPos = s.errPos

/-- The result registers are unchanged. -/
def KeepsResults (s t : State) : Prop :=
  t.resC = s.resC ∧ t.resExt = s.resExt ∧ t.resLen = s.resLen ∧ t.resDist = s.resDist ∧
    t.resFlag = s.resFlag ∧ t.valid = s.valid ∧ t.freeCtr = s.freeCtr

/-- The working registers of the decoder are unchanged. -/
def KeepsDecoder (s t : State) : Prop :=
  t.fLen = s.fLen ∧ t.fDist = s.fDist ∧ t.cpSrc = s.cpSrc ∧ t.cpRem = s.cpRem ∧ t.curC = s.curC ∧
    t.curE = s.curE ∧ t.dstate = s.dstate

/-- The working registers are unchanged. That a dead one keeps its value after an operation is the model's
choice (log entry 12). -/
def KeepsWorking (s t : State) : Prop :=
  t.icur = s.icur ∧ t.run = s.run ∧ t.word = s.word ∧ KeepsDecoder s t

/-! ### How an operation ends -/

/-- DONE, and the error registers zero (R24, R25). -/
def DoneRecord (t : State) : Prop := t.status = .done ∧ NoError t

/-- From `s`, the error entry of R180 led to `t`: the record, `OLEN = 0`, no specified result, STATUS
ERROR, the request registers and IN unchanged. -/
def ErrorEntry (s t : State) (cause : Cause) (pos : Nat) : Prop :=
  t.status = .error ∧ ErrorRecord t cause pos ∧ t.olen = 0 ∧ t.valid = {} ∧
    KeepsRequest s t ∧ KeepsIn s t ∧ KeepsHost s t

/-- It is the engine's turn in `s`, and taking the turn off the schedule leaves `u`. -/
def EngineTurn (s u : State) : Prop :=
  (s.schedule = [] ∧ u = s) ∨ ∃ rest, s.schedule = .engine :: rest ∧ u = { s with schedule := rest }

/-- The causes each instruction can raise (R170, R185). -/
def causesOf : Instr → List Cause
  | .hdr _ _ => [.hdrWidth]
  | .litC1 _ | .litC2 _ | .litC3 _ | .litC4 _ | .litC5 _ | .litC6 _ | .litC7 _ | .litC8 _ |
    .litC9 _ | .litC10 _ | .litC11 _ | .litC12 _ | .litC13 _ | .litC14 _ | .litC15 _ => [.litTrunc]
  | .matchC1 _ _ | .matchC2 _ _ | .matchC3 _ _ | .matchC4 _ _ | .matchC5 _ _ | .matchC6 _ _ |
    .matchC7 _ _ | .matchC8 _ _ | .matchC9 _ _ | .matchC10 _ _ | .matchC11 _ _ | .matchC12 _ _ |
    .matchC13 _ _ | .matchC14 _ _ | .matchC15 _ _ => [.backrefRange, .srcNotWritten]
  | .layout | .findmatch | .tokenize | .genhdr | .compress => [.widthRange]
  | .parsehdr => [.hdrShort, .badMagic, .hdrWidth]
  | .hdrchk => []
  | .encode => [.widthRange, .tokenRange]
  | .decompress =>
    [.hdrShort, .badMagic, .hdrWidth, .cfTrunc, .litTrunc, .backrefRange, .srcNotWritten]

/-- The registers and memories each operation writes when it completes: the writes column of R45. -/
def writesOf : Instr → Valid
  | .hdr _ _ => {}
  | .litC1 _ | .litC2 _ | .litC3 _ | .litC4 _ | .litC5 _ | .litC6 _ | .litC7 _ | .litC8 _ |
    .litC9 _ | .litC10 _ | .litC11 _ | .litC12 _ | .litC13 _ | .litC14 _ | .litC15 _ => {}
  | .matchC1 _ _ | .matchC2 _ _ | .matchC3 _ _ | .matchC4 _ _ | .matchC5 _ _ | .matchC6 _ _ |
    .matchC7 _ _ | .matchC8 _ _ | .matchC9 _ _ | .matchC10 _ _ | .matchC11 _ _ | .matchC12 _ _ |
    .matchC13 _ _ | .matchC14 _ _ | .matchC15 _ _ => {}
  | .layout => { ly := true }
  | .findmatch => { resLen := true, resDist := true }
  | .tokenize => { tok := true }
  | .encode => { out := true }
  | .genhdr | .compress => { resExt := true, out := true }
  | .parsehdr | .decompress => { resC := true, resExt := true, out := true }
  | .hdrchk => { resFlag := true }

/-- A set of operands: the request registers, and the input memories with their lengths (R23, the reads
column of R45). -/
structure OperandSet where
  cArg : Bool := false
  extArg : Bool := false
  posArg : Bool := false
  inp : Bool := false
  tok : Bool := false

/-- The operands of each host operation: the reads column of R45. A stream instruction has no operand among
them. -/
def readsOf : Instr → OperandSet
  | .hdr _ _ => {}
  | .litC1 _ | .litC2 _ | .litC3 _ | .litC4 _ | .litC5 _ | .litC6 _ | .litC7 _ | .litC8 _ |
    .litC9 _ | .litC10 _ | .litC11 _ | .litC12 _ | .litC13 _ | .litC14 _ | .litC15 _ => {}
  | .matchC1 _ _ | .matchC2 _ _ | .matchC3 _ _ | .matchC4 _ _ | .matchC5 _ _ | .matchC6 _ _ |
    .matchC7 _ _ | .matchC8 _ _ | .matchC9 _ _ | .matchC10 _ _ | .matchC11 _ _ | .matchC12 _ _ |
    .matchC13 _ _ | .matchC14 _ _ | .matchC15 _ _ => {}
  | .layout => { cArg := true }
  | .findmatch => { cArg := true, posArg := true, inp := true }
  | .tokenize => { cArg := true, inp := true }
  | .genhdr => { cArg := true, extArg := true }
  | .parsehdr | .hdrchk | .decompress => { inp := true }
  | .encode => { cArg := true, tok := true }
  | .compress => { cArg := true, extArg := true, inp := true }

/-- The host operations that write OUT (R45). -/
def outWriters : List Instr := [.genhdr, .parsehdr, .encode, .compress, .decompress]

/-- The nine host operations (R74). -/
def hostOps : List Instr :=
  [.layout, .findmatch, .tokenize, .genhdr, .parsehdr, .hdrchk, .encode, .compress, .decompress]

/-- A token whose fields fit the control field of width `c`, with `distance` not 0 (R92). -/
def FieldsFit (c : Nat) : Token → Prop
  | .lit bs => bs.length < 2 ^ (8 * c - 1)
  | .copy d n => 1 ≤ d ∧ d < 2 ^ distanceBits c ∧ n < 2 ^ matchLengthBits c

/-- A token whose fields fit a control field of width `c`, distance 0 included (R69). -/
def FieldsHold (c : Nat) : Token → Prop
  | .lit bs => bs.length < 2 ^ (8 * c - 1)
  | .copy d n => d < 2 ^ distanceBits c ∧ n < 2 ^ matchLengthBits c

/-- What a token sequence read from a stream decodes to: its expansion (R94), a `MATCH` with length 0 and
distance 0 being a no-op (R70, R147). -/
def streamOutput (ts : List Token) : Option (List Byte) :=
  expand (ts.filter fun tk => decide (tk ≠ .copy 0 0))

/-- How many bytes a token carries as a literal. -/
def literalBytes : Token → Nat
  | .lit bs => bs.length
  | .copy _ _ => 0

/-- An occurrence of length `j` at `p` of the bytes at `i`, wholly inside the window from `w0` (R102). -/
def Occurs (d : List Byte) (w0 i j p : Nat) : Prop :=
  w0 ≤ p ∧ p + j ≤ i ∧ ∀ q, q < j → d[p + q]? = d[i + q]?

/-! ### LIT and MATCH of one width -/

/-- `LIT` of width `c`, its payload being in IN (R144): what it appends, where ICUR goes, and its frame. -/
def LitAppends (c : Nat) {w : Nat} (mk : BitVec w → Instr) : Prop :=
  ∀ (len : BitVec w) (s : State), s.icur + c + len.toNat ≤ s.ilen →
    ∃ t, exec (mk len) s = .next t ∧
      t.out.bytes = s.out.bytes ++ (s.inp.bytes.drop (s.icur + c)).take len.toNat ∧
      t.olen = s.olen + len.toNat ∧
      (∀ a, a < s.olen ∨ s.olen + len.toNat ≤ a → t.out.read a = s.out.read a) ∧
      t.icur = s.icur + c + len.toNat ∧ t.fLen = len.toNat ∧ t.dstate = .readingControlField ∧
      KeepsRequest s t ∧ KeepsIn s t ∧ t.tok = s.tok ∧ KeepsHost s t ∧ KeepsFlags s t ∧
      KeepsResults s t ∧ t.ly = s.ly ∧ t.run = s.run ∧ t.word = s.word ∧ t.fDist = s.fDist ∧
      t.cpSrc = s.cpSrc ∧ t.cpRem = s.cpRem ∧ t.curC = s.curC ∧ t.curE = s.curE

/-- `LIT` of width `c` whose payload is cut short (R145). -/
def LitTruncated (c : Nat) {w : Nat} (mk : BitVec w → Instr) : Prop :=
  ∀ (len : BitVec w) (s : State), s.ilen - (s.icur + c) < len.toNat →
    ∃ t, exec (mk len) s = .next t ∧ ErrorEntry s t .litTrunc s.icur ∧ t.tok = s.tok

/-- `MATCH` of width `c` whose source is in OUT (R146, R47): each byte appended is the byte `dist` places
before it in the result; where ICUR goes, and its frame. -/
def MatchCopies (c : Nat) {wl wd : Nat} (mk : BitVec wl → BitVec wd → Instr) : Prop :=
  ∀ (len : BitVec wl) (dist : BitVec wd) (s : State), s.out.wf → dist.toNat ≤ s.olen →
    (1 ≤ dist.toNat ∨ len.toNat = 0) →
    ∃ t, exec (mk len dist) s = .next t ∧
      t.olen = s.olen + len.toNat ∧
      (∀ a, a < s.olen ∨ s.olen + len.toNat ≤ a → t.out.read a = s.out.read a) ∧
      (∀ q, q < len.toNat → (t.out.read (s.olen + q)).isSome ∧
        t.out.read (s.olen + q) = t.out.read (s.olen - dist.toNat + q)) ∧
      t.icur = s.icur + c ∧ t.fLen = len.toNat ∧ t.fDist = dist.toNat ∧
      t.cpSrc = s.olen - dist.toNat + len.toNat ∧ t.cpRem = 0 ∧ t.dstate = .readingControlField ∧
      KeepsRequest s t ∧ KeepsIn s t ∧ t.tok = s.tok ∧ KeepsHost s t ∧ KeepsFlags s t ∧
      KeepsResults s t ∧ t.ly = s.ly ∧ t.run = s.run ∧ t.word = s.word ∧ t.curC = s.curC ∧
      t.curE = s.curE

/-- A `MATCH` whose distance exceeds the output (R146). -/
def MatchBeforeOutput {wl wd : Nat} (mk : BitVec wl → BitVec wd → Instr) : Prop :=
  ∀ (len : BitVec wl) (dist : BitVec wd) (s : State), s.olen < dist.toNat →
    ∃ t, exec (mk len dist) s = .next t ∧ ErrorEntry s t .backrefRange s.icur ∧ t.tok = s.tok

/-- A `MATCH` with distance 0 and something to copy (R147). -/
def MatchUnwritten {wl wd : Nat} (mk : BitVec wl → BitVec wd → Instr) : Prop :=
  ∀ (len : BitVec wl) (dist : BitVec wd) (s : State), s.out.wf → dist.toNat = 0 → 1 ≤ len.toNat →
    ∃ t, exec (mk len dist) s = .next t ∧ ErrorEntry s t .srcNotWritten s.icur ∧ t.tok = s.tok

/-! ### The operands of an operation -/

/-- The two states hold the same operands of `i`; whatever is not an operand of `i` may differ. -/
def OperandsAgree (i : Instr) (s s' : State) : Prop :=
  ((readsOf i).cArg = true → s.cArg = s'.cArg) ∧
    ((readsOf i).extArg = true → s.extArg = s'.extArg) ∧
    ((readsOf i).posArg = true → s.posArg = s'.posArg) ∧
    ((readsOf i).inp = true → s.inp.bytes = s'.inp.bytes) ∧
    ((readsOf i).tok = true → s.tok = s'.tok)

/-- From `s`, a start of the operation with code `op` led to `t`: OP written, STATUS BUSY, the start left for
the engine; a request register that has been written keeps its value, one that has not holds any value
(R32, U7; log entry 28), and nothing else changes but the model's own record of them. -/
def Started (s t : State) (op : BitVec 4) (fine : Bool) (rest : List Turn) : Prop :=
  (s.written.cArg = true → t.cArg = s.cArg) ∧ (s.written.extArg = true → t.extArg = s.extArg) ∧
    (s.written.posArg = true → t.posArg = s.posArg) ∧
    t = { s with
      schedule := rest, op := op, fine := fine, status := .busy, startPending := true
      cArg := t.cArg, extArg := t.extArg, posArg := t.posArg
      written := t.written, freeCtr := t.freeCtr }

/-- Two outcomes of one host operation agree in everything the operation determines: the refusal, or
STATUS, the error registers, which results are specified and their values, the layout registers where
they are, TOK where the operation writes it, and OUT where the operation writes it or failed. -/
def AgreeOn (i : Instr) (o o' : Out) : Prop :=
  match o, o' with
  | .next t, .next t' =>
    t.status = t'.status ∧ t.errClass = t'.errClass ∧ t.errCause = t'.errCause ∧
      t.errPos = t'.errPos ∧ t.valid = t'.valid ∧
      (t.valid.resC = true → t.resC = t'.resC) ∧ (t.valid.resExt = true → t.resExt = t'.resExt) ∧
      (t.valid.resLen = true → t.resLen = t'.resLen) ∧
      (t.valid.resDist = true → t.resDist = t'.resDist) ∧
      (t.valid.resFlag = true → t.resFlag = t'.resFlag) ∧ (t.valid.ly = true → t.ly = t'.ly) ∧
      (i = .tokenize → t.tok = t'.tok) ∧
      (i ∈ outWriters ∨ t.status = .error → t.out.bytes = t'.out.bytes)
  | .fault r, .fault r' => r = r'
  | .refused r, .refused r' => r = r'
  | _, _ => False

/-! ### What the host reads -/

/-- What each register and memory holds, as the host reads it. -/
def contentOf (s : State) : ReadReg → HostValue
  | .status => .num s.status.code.toNat
  | .errClass => .num s.errClass.toNat
  | .errCause => .num s.errCause.toNat
  | .errPos => .num s.errPos
  | .resC => .num s.resC.toNat
  | .resExt => .num s.resExt.toNat
  | .resLen => .num s.resLen
  | .resDist => .num s.resDist
  | .resFlag => .num s.resFlag.toNat
  | .ly => .layout s.ly
  | .olen => .num s.olen
  | .outBytes => .bytes s.out.bytes
  | .tlen => .num s.tlen
  | .tokens => .tokens s.tok

/-- Whether what it holds is specified (R24 to R27, R32, U7); OLEN is after every error and TLEN after that
of a TOKENIZE (R180, R202). -/
def isSpecified (s : State) : ReadReg → Bool
  | .status | .errClass | .errCause | .errPos => true
  | .resC => s.valid.resC
  | .resExt => s.valid.resExt
  | .resLen => s.valid.resLen
  | .resDist => s.valid.resDist
  | .resFlag => s.valid.resFlag
  | .ly => s.valid.ly
  | .olen => s.valid.out || decide (s.status = .error)
  | .outBytes => s.valid.out
  | .tlen => s.valid.tok || decide (s.status = .error ∧ s.op = 3#4)
  | .tokens => s.valid.tok

end Sys2Proof.Machine.Claims

open Sys2Proof Sys2Proof.Machine Sys2Proof.Machine.Claims

/-! ### Reset, the invariant, and what a step is -/

/-- R195: after reset STATUS is IDLE, the error registers are zero, the three memories are empty, no
result or layout register holds a specified value, OUT and TOK do (they are empty), and the block
waits. That waiting changes nothing is the model's reading (log entry 15), and the marks of what is
specified are the model's choice (log entries 6 and 27). -/
def Obligations.ResetIsIdleAndEmpty : Prop :=
  State.reset.status = .idle ∧ State.reset.status.code = 0#2 ∧ NoError State.reset ∧
    State.reset.ilen = 0 ∧ State.reset.olen = 0 ∧ State.reset.tlen = 0 ∧
    State.reset.valid = { out := true, tok := true } ∧ step State.reset = .next State.reset

/-- The invariant holds at reset. -/
def Obligations.ResetMeetsInvariant : Prop := Inv State.reset

/-- Every step that answers a next state keeps the invariant: memories canonical, the error registers a
record of the table of R170 that fits STATUS, a pending start legal, the stream's width legal and its
cursor within IN. -/
def Obligations.StepKeepsInvariant : Prop :=
  ∀ s t : State, Inv s → step s = .next t → Inv t

/-- When it is the engine's turn and the bytes at the fetch place decode to an instruction, the step is
`exec` of it: for a pending start, with the start taken; for a header; for a control field at ICUR, with
WORD holding the control word. -/
def Obligations.StepRunsDecodedInstruction : Prop :=
  ∀ (s u : State) (i : Instr) (tail : List Byte), EngineTurn s u → s.status = .busy →
    (s.startPending = true → decode .host [s.op.setWidth 8] = .ok (i, tail) →
      step s = exec i { u with startPending := false }) ∧
    (s.startPending = false → s.dstate = .readingHeader →
      decode .header s.inp.bytes = .ok (i, tail) → step s = exec i u) ∧
    (s.startPending = false → s.dstate ≠ .readingHeader → s.icur < s.ilen →
      decode (.field s.curC.toNat) (s.inp.bytes.drop s.icur) = .ok (i, tail) →
      step s = exec i { u with
        word := BitVec.ofNat 120 (fromBe ((s.inp.bytes.drop s.icur).take s.curC.toNat)) })

/-- With no operation running, the engine's turn changes nothing: the block waits for the host (R33). -/
def Obligations.IdleEngineWaits : Prop :=
  ∀ s u : State, EngineTurn s u → s.status ≠ .busy → step s = .next u

/-- R141, R140 step 3: when ICUR has consumed IN the stepped DECOMPRESS ends: DONE, RES_C and RES_EXT as
the header gave them, OUT as it stands. That the layout registers and the dead working registers keep
their values is the model's (log entries 7 and 12). -/
def Obligations.StreamEndsAtInputEnd : Prop :=
  ∀ s u : State, EngineTurn s u → s.status = .busy → s.startPending = false →
    s.dstate ≠ .readingHeader → s.ilen ≤ s.icur →
    ∃ t, step s = .next t ∧ DoneRecord t ∧ t.resC = s.curC ∧ t.resExt = s.curE ∧
      t.valid = { resC := true, resExt := true, out := true } ∧ KeepsRequest u t ∧ KeepsIn u t ∧
      KeepsOut u t ∧
      t.tok = u.tok ∧ KeepsHost u t ∧ t.ly = u.ly ∧ KeepsWorking u t

/-- R176: between 1 and `C - 1` bytes remain where a control field must start. -/
def Obligations.TruncatedControlFieldRaises : Prop :=
  ∀ s u : State, EngineTurn s u → s.status = .busy → s.startPending = false →
    s.dstate ≠ .readingHeader → s.icur < s.ilen → s.ilen - s.icur < s.curC.toNat →
    ∃ t, step s = .next t ∧ ErrorEntry u t .cfTrunc s.icur ∧ t.tok = s.tok

/-! ### Encoding -/

/-- Decode of encode is the instruction, with the bytes that follow, for every well-formed instruction
of the table at every value of its operands. -/
def Obligations.DecodeOfEncode : Prop :=
  ∀ (i : Instr) (rest : List Byte), i.wellFormed = true →
    decode i.mode (encode i ++ rest) = .ok (i, rest)

/-- R69, R65: every pattern of `C` bytes is a control field, and packing what was read returns the same
bytes. -/
def Obligations.EncodeOfDecodedField : Prop :=
  ∀ (c : Nat) (bs : List Byte), 1 ≤ c → c ≤ 15 → c ≤ bs.length →
    ∃ i, decode (.field c) bs = .ok (i, bs.drop c) ∧ encode i = bs.take c ∧ i.mode = .field c

/-- R60, R68: byte 1 of a header is `C*16 + E`; another first byte and a short stream are rejected by
name. The third bad header of R68, a width nibble of 0, is accepted by the decoder, as a HDR of width 0
that is not well formed, and it is `exec` that raises HDR_WIDTH for it (HdrZeroWidthRaises): this split
is the model's choice (log entry 30). -/
def Obligations.HeaderDecodesByNibbles : Prop :=
  (∀ (b : Byte) (rest : List Byte), ∃ c e : BitVec 4,
    decode .header (magic :: b :: rest) = .ok (.hdr c e, rest) ∧
      c.toNat = b.toNat / 16 ∧ e.toNat = b.toNat % 16 ∧
      ((Instr.hdr c e).wellFormed = false ↔ b.toNat / 16 = 0)) ∧
  (∀ (m b : Byte) (rest : List Byte), m ≠ magic →
    decode .header (m :: b :: rest) = .error .badMagic) ∧
  (∀ bs : List Byte, bs.length < 2 → decode .header bs = .error .hdrShort)

/-- A few words written out from the encodings of R66 and R74. -/
def Obligations.DecodeSamples : Prop :=
  decode (.field 1) [0xA2] = .ok (.matchC1 2 2, []) ∧
  decode (.field 1) [0x7F] = .ok (.litC1 127, []) ∧
  decode (.field 2) [0x90, 0x04] = .ok (.matchC2 4 4, []) ∧
  decode (.field 2) [0xB0, 0x0C] = .ok (.matchC2 12 12, []) ∧
  decode (.field 3) [0x84, 0x00, 0x04] = .ok (.matchC3 4 4, []) ∧
  decode (.field 4) [0x80, 0xA0, 0x00, 0x05] = .ok (.matchC4 5 5, []) ∧
  decode (.field 4) [0x00, 0x00, 0x00, 0x0C] = .ok (.litC4 12, []) ∧
  decode .header [magic, 0x1F] = .ok (.hdr 1 15, []) ∧
  decode .host [0x9] = .ok (.decompress, [])

/-- R74: the nine operation codes, and the reserved ones, with which a start is refused. -/
def Obligations.OperationCodes : Prop :=
  (hostOps.map fun i => decode i.mode (encode i)) = hostOps.map (fun i => .ok (i, [])) ∧
  (hostOps.map encode = [[1], [2], [3], [4], [5], [6], [7], [8], [9]]) ∧
  ∀ (s : State) (op : BitVec 4) (fine : Bool) (rest : List Turn),
    s.schedule = .host (.start op fine) :: rest → s.status ≠ .busy →
    op = 0#4 ∨ 10 ≤ op.toNat → step s = .refused (.reservedOp op)

/-! ### LAYOUT -/

/-- R81 to R84: LAYOUT with a width in `1..15` completes and writes the ten layout registers; nothing else
is written but the flags and the result registers, which become unspecified. That OUT and the dead
working registers keep their content is the model's choice (log entries 27 and 12). -/
def Obligations.LayoutWritesRecord : Prop :=
  ∀ s : State, 1 ≤ s.cArg → s.cArg ≤ 15 →
    ∃ t, exec .layout s = .next t ∧ DoneRecord t ∧
      t.ly.totalBits = 8 * s.cArg ∧ t.ly.usableBits = t.ly.totalBits - 1 ∧
      t.ly.literalLengthBits = t.ly.usableBits ∧
      (s.cArg = 1 → t.ly.matchLengthBits = 3 ∧ t.ly.distanceBits = 4) ∧
      (s.cArg ≠ 1 → t.ly.matchLengthBits = t.ly.usableBits / 3 ∧
        t.ly.distanceBits = t.ly.usableBits - t.ly.matchLengthBits) ∧
      t.ly.maxLiteralRun = 2 ^ t.ly.literalLengthBits - 1 ∧
      t.ly.maxMatchLength = 2 ^ t.ly.matchLengthBits - 1 ∧
      t.ly.maxDistance = 2 ^ t.ly.distanceBits - 1 ∧
      t.ly.windowSize = t.ly.maxDistance ∧ t.ly.lookaheadLimit = t.ly.maxMatchLength ∧
      t.valid = { ly := true } ∧ KeepsRequest s t ∧ KeepsIn s t ∧ KeepsOut s t ∧ t.tok = s.tok ∧
      KeepsHost s t ∧ KeepsWorking s t

/-- R86: the whole table, columns `tb`, `ub`, `mlb`, `db` and the three capacities. -/
def Obligations.LayoutTable : Prop :=
  ((List.range' 1 15).map fun c => ((layout c).totalBits, (layout c).usableBits,
    (layout c).matchLengthBits, (layout c).distanceBits, (layout c).maxLiteralRun,
    (layout c).maxMatchLength, (layout c).maxDistance)) =
  [(8, 7, 3, 4, 127, 7, 15),
   (16, 15, 5, 10, 32767, 31, 1023),
   (24, 23, 7, 16, 8388607, 127, 65535),
   (32, 31, 10, 21, 2147483647, 1023, 2097151),
   (40, 39, 13, 26, 549755813887, 8191, 67108863),
   (48, 47, 15, 32, 140737488355327, 32767, 4294967295),
   (56, 55, 18, 37, 36028797018963967, 262143, 137438953471),
   (64, 63, 21, 42, 9223372036854775807, 2097151, 4398046511103)] ++
  [(72, 71, 23, 48, 2361183241434822606847, 8388607, 281474976710655),
   (80, 79, 26, 53, 604462909807314587353087, 67108863, 9007199254740991),
   (88, 87, 29, 58, 154742504910672534362390527, 536870911, 288230376151711743),
   (96, 95, 31, 64, 39614081257132168796771975167, 2147483647, 18446744073709551615),
   (104, 103, 34, 69, 10141204801825835211973625643007, 17179869183, 590295810358705651711),
   (112, 111, 37, 74, 2596148429267413814265248164610047, 137438953471, 18889465931478580854783),
   (120, 119, 39, 80, 664613997892457936451903530140172287, 549755813887,
     1208925819614629174706175)]

/-- R87, for every width. -/
def Obligations.LayoutWidthFacts : Prop :=
  ∀ c : Nat, 1 ≤ c → c ≤ 15 →
    (layout c).matchLengthBits + (layout c).distanceBits = (layout c).usableBits ∧
    (layout c).usableBits = 8 * c - 1 ∧
    1 ≤ (layout c).matchLengthBits ∧ (layout c).matchLengthBits < (layout c).distanceBits ∧
    (layout c).lookaheadLimit = (layout c).maxMatchLength ∧
    (layout c).maxMatchLength < (layout c).maxDistance ∧
    (layout c).maxDistance = (layout c).windowSize ∧ c < (layout c).maxMatchLength

/-- R171: a width of 0 or above 15 raises WIDTH_RANGE at position 0 in each of the six operations that
take C_ARG, as the first test. -/
def Obligations.WidthOutOfRangeRaises : Prop :=
  ∀ s : State, s.cArg = 0 ∨ 15 < s.cArg →
    ∀ i ∈ [Instr.layout, .genhdr, .compress, .findmatch, .tokenize, .encode],
      ∃ t, exec i s = .next t ∧ ErrorEntry s t .widthRange 0 ∧
        (i = .tokenize → t.tlen = 0) ∧ (i ≠ .tokenize → t.tok = s.tok)

/-! ### FINDMATCH -/

/-- R100: FINDMATCH completes on every legal width and cursor, and writes RES_LEN and RES_DIST. That OUT,
the layout registers and the dead working registers keep their content is the model's (log entries 27, 7
and 12). -/
def Obligations.FindmatchCompletes : Prop :=
  ∀ s : State, 1 ≤ s.cArg → s.cArg ≤ 15 → s.posArg ≤ s.ilen →
    ∃ t, exec .findmatch s = .next t ∧ DoneRecord t ∧
      (t.resLen, t.resDist) = findmatch s.inp.bytes s.posArg (layout s.cArg) ∧
      t.valid = { resLen := true, resDist := true } ∧
      KeepsRequest s t ∧ KeepsIn s t ∧ KeepsOut s t ∧ t.tok = s.tok ∧ KeepsHost s t ∧
      t.ly = s.ly ∧ KeepsWorking s t

/-- R103: `len` is the largest length not above `m` that occurs in the window, and the occurrence given
is the closest of that length. -/
def Obligations.FindmatchLongestClosest : Prop :=
  ∀ (d : List Byte) (c i : Nat), 1 ≤ c → c ≤ 15 → i ≤ d.length →
    ∀ len dist w0 m : Nat, findmatch d i (layout c) = (len, dist) →
      w0 = i - (layout c).windowSize → m = min (layout c).lookaheadLimit (d.length - i) →
      len ≤ m ∧ (len = 0 → dist = 0) ∧
      (∀ j, 1 ≤ j → j ≤ m → (∃ p, Occurs d w0 i j p) → j ≤ len) ∧
      (1 ≤ len → dist ≤ i ∧ Occurs d w0 i len (i - dist) ∧
        ∀ p, Occurs d w0 i len p → p ≤ i - dist)

/-- R106: the ranges of a match that was found; it never overlaps the cursor. -/
def Obligations.FindmatchResultRange : Prop :=
  ∀ (d : List Byte) (c i len dist : Nat), 1 ≤ c → c ≤ 15 → i ≤ d.length →
    findmatch d i (layout c) = (len, dist) →
    (1 ≤ len → len ≤ min (layout c).lookaheadLimit (d.length - i) ∧
      len ≤ (layout c).maxMatchLength ∧ len ≤ dist ∧ dist ≤ min i (layout c).maxDistance) ∧
    (dist = 0 → len = 0)

/-- R100: a cursor beyond the input is refused, by name. -/
def Obligations.FindmatchRefusesBeyondInput : Prop :=
  ∀ s : State, 1 ≤ s.cArg → s.cArg ≤ 15 → s.ilen < s.posArg →
    exec .findmatch s = .refused .posBeyondInput

/-! ### TOKENIZE -/

/-- R110: TOKENIZE completes on every input, and writes TOK; of the working registers only ICUR and RUN
may change. That OUT, the layout registers and the other working registers keep their content is the
model's (log entries 27, 7 and 12). -/
def Obligations.TokenizeCompletes : Prop :=
  ∀ s : State, 1 ≤ s.cArg → s.cArg ≤ 15 →
    ∃ t, exec .tokenize s = .next t ∧ DoneRecord t ∧ t.tok = tokenize s.inp.bytes s.cArg ∧
      t.valid = { tok := true } ∧ KeepsRequest s t ∧ KeepsIn s t ∧ KeepsOut s t ∧ KeepsHost s t ∧
      t.ly = s.ly ∧ t.word = s.word ∧ KeepsDecoder s t

/-- R115: the tokens expand to the input. -/
def Obligations.TokenizeExpandsToInput : Prop :=
  ∀ (d : List Byte) (c : Nat), 1 ≤ c → c ≤ 15 → expand (tokenize d c) = some d

/-- R114: the shape of the tokenizer's output. -/
def Obligations.TokenizeOutputShape : Prop :=
  ∀ (d : List Byte) (c : Nat), 1 ≤ c → c ≤ 15 →
    (∀ bs, Token.lit bs ∈ tokenize d c →
      1 ≤ bs.length ∧ bs.length ≤ (layout c).maxLiteralRun) ∧
    (∀ dist len, Token.copy dist len ∈ tokenize d c →
      c < len ∧ len ≤ (layout c).maxMatchLength ∧ len ≤ dist ∧ dist ≤ (layout c).maxDistance) ∧
    (∀ tk ∈ tokenize d c, tk.wf (layout c) = true) ∧
    (∀ (k : Nat) (a b : List Byte), (tokenize d c)[k]? = some (.lit a) →
      (tokenize d c)[k + 1]? = some (.lit b) → a.length = (layout c).maxLiteralRun)

/-- R113: empty input gives no token; the first token of any other input is a Literal. -/
def Obligations.TokenizeStartsWithLiteral : Prop :=
  ∀ (d : List Byte) (c : Nat), 1 ≤ c → c ≤ 15 →
    (d = [] → tokenize d c = []) ∧
    (d ≠ [] → ∃ bs ts, tokenize d c = .lit bs :: ts)

/-! ### The header codec -/

/-- R120: GENHDR completes on every legal width and every hint, and writes the two header bytes. That the
layout registers and the dead working registers keep their values is the model's (log entries 7 and
12). -/
def Obligations.GenhdrCompletes : Prop :=
  ∀ s : State, 1 ≤ s.cArg → s.cArg ≤ 15 →
    ∃ t b, exec .genhdr s = .next t ∧ DoneRecord t ∧ t.out.bytes = [magic, b] ∧
      b.toNat = s.cArg * 16 + (extToCode s.extArg).toNat ∧ t.olen = 2 ∧
      t.resExt = extToCode s.extArg ∧ t.valid = { resExt := true, out := true } ∧
      KeepsRequest s t ∧ KeepsIn s t ∧ t.tok = s.tok ∧ KeepsHost s t ∧ t.ly = s.ly ∧
      KeepsWorking s t

/-- R10, R121: the table's entry 0 is empty and its non-empty entries are distinct; the code of a string
is that of its entry, 0 for an empty or an unrecognised one. -/
def Obligations.ExtensionLookup : Prop :=
  extTable 0 = [] ∧
  (∀ e e' : Nat, extTable e = extTable e' → extTable e ≠ [] → e = e') ∧
  extToCode [] = 0#4 ∧
  (∀ (v : List Byte) (e : Nat), v ≠ [] → 1 ≤ e → e ≤ 15 → extTable e = v →
    (extToCode v).toNat = e) ∧
  (∀ v : List Byte, (∀ e, 1 ≤ e → e ≤ 15 → extTable e ≠ v) → extToCode v = 0#4)

/-- R122: the string of the code of a string is the string when it is a non-empty entry, else empty. -/
def Obligations.ExtensionRoundTrip : Prop :=
  (∀ e : BitVec 4, codeToExt e = extTable e.toNat) ∧ codeToExt 0#4 = [] ∧
  ∀ v : List Byte,
    ((v ≠ [] ∧ ∃ e, 1 ≤ e ∧ e ≤ 15 ∧ extTable e = v) → codeToExt (extToCode v) = v) ∧
    (¬ (v ≠ [] ∧ ∃ e, 1 ≤ e ∧ e ≤ 15 ∧ extTable e = v) → codeToExt (extToCode v) = [])

/-- R123: PARSEHDR of a legal header completes; the bytes after the header go to OUT uninspected. That the
layout registers and the dead working registers keep their values is the model's (log entries 7 and
12). -/
def Obligations.ParsehdrCompletes : Prop :=
  ∀ (s : State) (b : Byte) (rest : List Byte), s.inp.bytes = magic :: b :: rest →
    1 ≤ b.toNat / 16 →
    ∃ t, exec .parsehdr s = .next t ∧ DoneRecord t ∧ t.resC.toNat = b.toNat / 16 ∧
      t.resExt.toNat = b.toNat % 16 ∧ t.out.bytes = rest ∧ t.olen = s.ilen - 2 ∧
      t.valid = { resC := true, resExt := true, out := true } ∧ KeepsRequest s t ∧ KeepsIn s t ∧
      t.tok = s.tok ∧ KeepsHost s t ∧ t.ly = s.ly ∧ KeepsWorking s t

/-- R173 to R175, in the order of R124: PARSEHDR and DECOMPRESS of a stream whose header is short, has
another magic byte, or carries width 0. PARSEHDR does not look at the grain; DECOMPRESS is the one run
whole. -/
def Obligations.HeaderErrorsInOrder : Prop :=
  ∀ (s : State) (i : Instr), i = .parsehdr ∨ (i = .decompress ∧ s.fine = false) →
    (s.ilen < 2 →
      ∃ t, exec i s = .next t ∧ ErrorEntry s t .hdrShort 0 ∧ t.tok = s.tok) ∧
    (2 ≤ s.ilen → s.inp.bytes[0]? ≠ some magic →
      ∃ t, exec i s = .next t ∧ ErrorEntry s t .badMagic 0 ∧ t.tok = s.tok) ∧
    (∀ b, s.inp.bytes[0]? = some magic → s.inp.bytes[1]? = some b → b.toNat / 16 = 0 →
      ∃ t, exec i s = .next t ∧ ErrorEntry s t .hdrWidth 1 ∧ t.tok = s.tok)

/-- R125: PARSEHDR of the bytes GENHDR produced returns the width, the hint or its default, and nothing
remaining. -/
def Obligations.HeaderDeterminism : Prop :=
  ∀ s : State, 1 ≤ s.cArg → s.cArg ≤ 15 →
    ∃ t, exec .genhdr s = .next t ∧
      ∀ u : State, u.inp.bytes = t.out.bytes →
        ∃ v, exec .parsehdr u = .next v ∧ DoneRecord v ∧ v.resC.toNat = s.cArg ∧
          codeToExt v.resExt = codeToExt (extToCode s.extArg) ∧ v.olen = 0

/-- R126: HDRCHK always completes; the flag says that two bytes are there and the first is MAGIC. That OUT,
the layout registers and the dead working registers keep their content is the model's (log entries 27, 7
and 12). -/
def Obligations.HdrchkCompletes : Prop :=
  ∀ s : State, ∃ t, exec .hdrchk s = .next t ∧ DoneRecord t ∧
    (2 ≤ s.ilen → s.inp.bytes[0]? = some magic → t.resFlag = 1#1) ∧
    (s.ilen < 2 ∨ s.inp.bytes[0]? ≠ some magic → t.resFlag = 0#1) ∧
    t.valid = { resFlag := true } ∧ KeepsRequest s t ∧ KeepsIn s t ∧ KeepsOut s t ∧
    t.tok = s.tok ∧ KeepsHost s t ∧ t.ly = s.ly ∧ KeepsWorking s t

/-- R140 step 1: a header with a legal width starts the stream: the width and the code are kept, OUT is
emptied, ICUR is 2. -/
def Obligations.HdrCompletes : Prop :=
  ∀ (s : State) (c e : BitVec 4), c ≠ 0#4 →
    ∃ t, exec (.hdr c e) s = .next t ∧ t.curC = c ∧ t.curE = e ∧ t.olen = 0 ∧ t.icur = 2 ∧
      t.dstate = .readingControlField ∧ KeepsRequest s t ∧ KeepsIn s t ∧ t.tok = s.tok ∧
      KeepsHost s t ∧ KeepsFlags s t ∧ KeepsResults s t ∧ t.ly = s.ly ∧ t.run = s.run ∧
      t.word = s.word ∧ t.fLen = s.fLen ∧ t.fDist = s.fDist ∧ t.cpSrc = s.cpSrc ∧
      t.cpRem = s.cpRem

/-- R175: a header with width 0. -/
def Obligations.HdrZeroWidthRaises : Prop :=
  ∀ (s : State) (e : BitVec 4),
    ∃ t, exec (.hdr 0#4 e) s = .next t ∧ ErrorEntry s t .hdrWidth 1 ∧ t.tok = s.tok

/-! ### ENCODE -/

/-- R130 to R132: ENCODE of tokens that all fit completes: the control fields and payloads, in order. Of
the working registers only WORD may change. That the layout registers and the other working registers
keep their values is the model's (log entries 7 and 12). -/
def Obligations.EncodeCompletes : Prop :=
  ∀ s : State, 1 ≤ s.cArg → s.cArg ≤ 15 → (∀ tk ∈ s.tok, FieldsFit s.cArg tk) →
    ∃ t, exec .encode s = .next t ∧ DoneRecord t ∧
      t.out.bytes = s.tok.flatMap (fun tk => match tk with
        | .lit bs => be s.cArg bs.length ++ bs
        | .copy d n => be s.cArg (2 ^ (8 * s.cArg - 1) + n * 2 ^ distanceBits s.cArg + d)) ∧
      t.valid = { out := true } ∧ KeepsRequest s t ∧ KeepsIn s t ∧ t.tok = s.tok ∧ KeepsHost s t ∧
      t.ly = s.ly ∧ t.icur = s.icur ∧ t.run = s.run ∧ KeepsDecoder s t

/-- R134, R172: the first token that does not fit raises TOKEN_RANGE with its index; TOK is unchanged. -/
def Obligations.EncodeRejectsFirstBadToken : Prop :=
  ∀ (s : State) (k : Nat) (tk : Token), 1 ≤ s.cArg → s.cArg ≤ 15 →
    s.tok[k]? = some tk → ¬ FieldsFit s.cArg tk →
    (∀ (j : Nat) (tj : Token), j < k → s.tok[j]? = some tj → FieldsFit s.cArg tj) →
    ∃ t, exec .encode s = .next t ∧ ErrorEntry s t .tokenRange k ∧ t.tok = s.tok

/-- R133: no header, terminator or padding; the length of the token stream. -/
def Obligations.EncodedLength : Prop :=
  ∀ (c : Nat) (ts us : List Token),
    (encodeTokens c ts).length = c * ts.length + (ts.map literalBytes).sum ∧
    encodeTokens c (ts ++ us) = encodeTokens c ts ++ encodeTokens c us ∧ encodeTokens c [] = []

/-! ### LIT and MATCH -/

/-- R144, R152: `LIT` of every width whose payload is in IN completes, appends it, and leaves everything
else as it was. -/
def Obligations.LitCompletes : Prop :=
  LitAppends 1 Instr.litC1 ∧ LitAppends 2 Instr.litC2 ∧ LitAppends 3 Instr.litC3 ∧
    LitAppends 4 Instr.litC4 ∧ LitAppends 5 Instr.litC5 ∧ LitAppends 6 Instr.litC6 ∧
    LitAppends 7 Instr.litC7 ∧ LitAppends 8 Instr.litC8 ∧ LitAppends 9 Instr.litC9 ∧
    LitAppends 10 Instr.litC10 ∧ LitAppends 11 Instr.litC11 ∧ LitAppends 12 Instr.litC12 ∧
    LitAppends 13 Instr.litC13 ∧ LitAppends 14 Instr.litC14 ∧ LitAppends 15 Instr.litC15

/-- R145, R177: `LIT` of every width whose payload is cut short. -/
def Obligations.LitTruncatedRaises : Prop :=
  LitTruncated 1 Instr.litC1 ∧ LitTruncated 2 Instr.litC2 ∧ LitTruncated 3 Instr.litC3 ∧
    LitTruncated 4 Instr.litC4 ∧ LitTruncated 5 Instr.litC5 ∧ LitTruncated 6 Instr.litC6 ∧
    LitTruncated 7 Instr.litC7 ∧ LitTruncated 8 Instr.litC8 ∧ LitTruncated 9 Instr.litC9 ∧
    LitTruncated 10 Instr.litC10 ∧ LitTruncated 11 Instr.litC11 ∧ LitTruncated 12 Instr.litC12 ∧
    LitTruncated 13 Instr.litC13 ∧ LitTruncated 14 Instr.litC14 ∧ LitTruncated 15 Instr.litC15

/-- R146, R47: `MATCH` of every width whose source lies in OUT completes: a forward copy of one byte at a
time, so that it may read bytes it has just written; everything else is as it was. -/
def Obligations.MatchCompletes : Prop :=
  MatchCopies 1 Instr.matchC1 ∧ MatchCopies 2 Instr.matchC2 ∧ MatchCopies 3 Instr.matchC3 ∧
    MatchCopies 4 Instr.matchC4 ∧ MatchCopies 5 Instr.matchC5 ∧ MatchCopies 6 Instr.matchC6 ∧
    MatchCopies 7 Instr.matchC7 ∧ MatchCopies 8 Instr.matchC8 ∧ MatchCopies 9 Instr.matchC9 ∧
    MatchCopies 10 Instr.matchC10 ∧ MatchCopies 11 Instr.matchC11 ∧
    MatchCopies 12 Instr.matchC12 ∧ MatchCopies 13 Instr.matchC13 ∧
    MatchCopies 14 Instr.matchC14 ∧ MatchCopies 15 Instr.matchC15

/-- R178: `MATCH` of every width with a distance beyond the output. -/
def Obligations.MatchBeforeOutputRaises : Prop :=
  MatchBeforeOutput Instr.matchC1 ∧ MatchBeforeOutput Instr.matchC2 ∧
    MatchBeforeOutput Instr.matchC3 ∧ MatchBeforeOutput Instr.matchC4 ∧
    MatchBeforeOutput Instr.matchC5 ∧ MatchBeforeOutput Instr.matchC6 ∧
    MatchBeforeOutput Instr.matchC7 ∧ MatchBeforeOutput Instr.matchC8 ∧
    MatchBeforeOutput Instr.matchC9 ∧ MatchBeforeOutput Instr.matchC10 ∧
    MatchBeforeOutput Instr.matchC11 ∧ MatchBeforeOutput Instr.matchC12 ∧
    MatchBeforeOutput Instr.matchC13 ∧ MatchBeforeOutput Instr.matchC14 ∧
    MatchBeforeOutput Instr.matchC15

/-- R179: `MATCH` of every width with distance 0 and length at least 1. -/
def Obligations.MatchUnwrittenSourceRaises : Prop :=
  MatchUnwritten Instr.matchC1 ∧ MatchUnwritten Instr.matchC2 ∧
    MatchUnwritten Instr.matchC3 ∧ MatchUnwritten Instr.matchC4 ∧
    MatchUnwritten Instr.matchC5 ∧ MatchUnwritten Instr.matchC6 ∧
    MatchUnwritten Instr.matchC7 ∧ MatchUnwritten Instr.matchC8 ∧
    MatchUnwritten Instr.matchC9 ∧ MatchUnwritten Instr.matchC10 ∧
    MatchUnwritten Instr.matchC11 ∧ MatchUnwritten Instr.matchC12 ∧
    MatchUnwritten Instr.matchC13 ∧ MatchUnwritten Instr.matchC14 ∧
    MatchUnwritten Instr.matchC15

/-! ### DECOMPRESS -/

/-- R149: a valid header and the encoding of tokens that fit and that `expand` is defined on: DECOMPRESS
completes with their expansion. A `MATCH` with length 0 and distance 0, on which `expand` is not defined,
may stand among them and is a no-op (R70, R147; log entry 20). That the layout registers and RUN keep
their values is the model's (log entries 7 and 12). -/
def Obligations.DecompressExpands : Prop :=
  ∀ (s : State) (c : Nat) (e : BitVec 4) (ts : List Token) (o : List Byte), s.fine = false →
    1 ≤ c → c ≤ 15 → s.inp.bytes = headerBytes c e ++ encodeTokens c ts →
    (∀ tk ∈ ts, FieldsHold c tk) → streamOutput ts = some o →
    ∃ t, exec .decompress s = .next t ∧ DoneRecord t ∧ t.out.bytes = o ∧ t.resC.toNat = c ∧
      t.resExt = e ∧ t.valid = { resC := true, resExt := true, out := true } ∧ KeepsRequest s t ∧
      KeepsIn s t ∧ t.tok = s.tok ∧ KeepsHost s t ∧ t.ly = s.ly ∧ t.run = s.run

/-- R143, R145, R146, R147, R181: the position a DECOMPRESS run whole reports is the offset, in the stream,
of the control field of the first token that fails, after any tokens that decode. -/
def Obligations.DecompressErrorPositions : Prop :=
  ∀ (s : State) (c : Nat) (e : BitVec 4) (ts : List Token) (o tail : List Byte) (pos : Nat),
    s.fine = false → 1 ≤ c → c ≤ 15 →
    s.inp.bytes = headerBytes c e ++ encodeTokens c ts ++ tail →
    (∀ tk ∈ ts, FieldsHold c tk) → streamOutput ts = some o →
    pos = 2 + (encodeTokens c ts).length →
    (1 ≤ tail.length → tail.length < c →
      ∃ t, exec .decompress s = .next t ∧ ErrorEntry s t .cfTrunc pos ∧ t.tok = s.tok) ∧
    (∀ (n : Nat) (payload : List Byte), tail = be c n ++ payload → n < 2 ^ (8 * c - 1) →
      payload.length < n →
      ∃ t, exec .decompress s = .next t ∧ ErrorEntry s t .litTrunc pos ∧ t.tok = s.tok) ∧
    (∀ (n d : Nat) (more : List Byte),
      tail = be c (2 ^ (8 * c - 1) + n * 2 ^ distanceBits c + d) ++ more →
      n < 2 ^ matchLengthBits c → d < 2 ^ distanceBits c →
      (o.length < d →
        ∃ t, exec .decompress s = .next t ∧ ErrorEntry s t .backrefRange pos ∧ t.tok = s.tok) ∧
      (d = 0 → 1 ≤ n →
        ∃ t, exec .decompress s = .next t ∧ ErrorEntry s t .srcNotWritten pos ∧ t.tok = s.tok))

/-- R148: every DECOMPRESS run whole ends, with DONE or ERROR. -/
def Obligations.DecompressAlwaysEnds : Prop :=
  ∀ s : State, s.fine = false →
    ∃ t, exec .decompress s = .next t ∧ (t.status = .done ∨ t.status = .error)

/-- R21: the two grains agree. Begun at the finer grain, DECOMPRESS only starts; the steps that follow,
each decoding and executing one stream instruction, reach the very state that DECOMPRESS run whole
answers, the grain aside. -/
def Obligations.SteppedEqualsWhole : Prop :=
  ∀ s : State, s.fine = true → s.schedule = [] → s.startPending = false →
    exec .decompress s = .next (beginDecompress s) ∧
    ∃ t, exec .decompress { s with fine := false } = .next t ∧
      Host.Core.run Sys2Proof.core (s.ilen + 2) (beginDecompress s) = .next { t with fine := true }

/-! ### COMPRESS and the laws -/

/-- R155, R156: COMPRESS completes on every input: the header, then the encoding of the tokens; TOK is not
written. Of the working registers only ICUR, RUN and WORD may change. That the layout registers and the
other working registers keep their values is the model's (log entries 7 and 12). -/
def Obligations.CompressCompletes : Prop :=
  ∀ s : State, 1 ≤ s.cArg → s.cArg ≤ 15 →
    ∃ t b, exec .compress s = .next t ∧ DoneRecord t ∧
      t.out.bytes = [magic, b] ++ encodeTokens s.cArg (tokenize s.inp.bytes s.cArg) ∧
      b.toNat = s.cArg * 16 + (extToCode s.extArg).toNat ∧
      t.resExt = extToCode s.extArg ∧ t.valid = { resExt := true, out := true } ∧ KeepsRequest s t ∧
      KeepsIn s t ∧ t.tok = s.tok ∧ KeepsHost s t ∧ t.ly = s.ly ∧ KeepsDecoder s t

/-- R161: the round trip, for every width, every input and every hint. -/
def Obligations.CompressDecompressRoundTrip : Prop :=
  ∀ s : State, 1 ≤ s.cArg → s.cArg ≤ 15 →
    ∃ t, exec .compress s = .next t ∧
      ∀ u : State, u.fine = false → u.inp.bytes = t.out.bytes →
        ∃ v, exec .decompress u = .next v ∧ DoneRecord v ∧ v.out.bytes = s.inp.bytes ∧
          v.resC.toNat = s.cArg ∧ codeToExt v.resExt = codeToExt (extToCode s.extArg)

/-- R162, on the wire: bit 7 of the byte at offset 2 is clear. -/
def Obligations.FirstTokenOnWireIsLiteral : Prop :=
  ∀ s : State, 1 ≤ s.cArg → s.cArg ≤ 15 → s.inp.bytes ≠ [] →
    ∃ t b, exec .compress s = .next t ∧ t.out.bytes[2]? = some b ∧ b.toNat < 128

/-- R157: the size of the result. -/
def Obligations.CompressedSize : Prop :=
  ∀ s : State, 1 ≤ s.cArg → s.cArg ≤ 15 →
    ∃ t, exec .compress s = .next t ∧
      t.olen = 2 + s.cArg * (tokenize s.inp.bytes s.cArg).length +
        ((tokenize s.inp.bytes s.cArg).map literalBytes).sum

/-! ### The whole machine -/

/-- R180, R185: whatever instruction runs, an error it raises is one of its own causes and makes the entry
of R180; only TOKENIZE empties TOK. -/
def Obligations.ErrorsByInstruction : Prop :=
  ∀ (i : Instr) (s t : State), exec i s = .next t → s.status ≠ .error → t.status = .error →
    ∃ cause pos, cause ∈ causesOf i ∧ ErrorEntry s t cause pos ∧
      (i = .tokenize → t.tok = []) ∧ (i ≠ .tokenize → t.tok = s.tok)

/-- R25: after an operation that completes the error registers are zero. -/
def Obligations.CompletionZeroesErrors : Prop :=
  ∀ (i : Instr) (s t : State), exec i s = .next t → s.status ≠ .done → t.status = .done → NoError t

/-- No instruction stops with a fault: faults are the host's. -/
def Obligations.ExecNeverFaults : Prop :=
  ∀ (i : Instr) (s : State) (r : Fault), exec i s ≠ .fault r

/-- R23, R45, R55: no instruction writes a request register or IN, and only TOKENIZE writes TOK. The layout
registers are written by LAYOUT and otherwise only lost in an error (R27, R180; log entry 7). -/
def Obligations.ExecKeepsOperands : Prop :=
  ∀ (i : Instr) (s t : State), exec i s = .next t →
    KeepsRequest s t ∧ KeepsIn s t ∧ KeepsHost s t ∧ (i ≠ .tokenize → t.tok = s.tok) ∧
      (i ≠ .layout → t.status ≠ .error → t.ly = s.ly)

/-- R29, R23: what a host operation determines is a function of its operands, those of the reads column of
R45: two states that agree on them agree on it, whatever else they hold, the other request registers
included. DECOMPRESS is the one run whole; SteppedEqualsWhole carries this to the stepped one. -/
def Obligations.ResultsDependOnOperandsOnly : Prop :=
  ∀ (i : Instr) (s s' : State), i ∈ hostOps →
    (i = .decompress → s.fine = false ∧ s'.fine = false) → OperandsAgree i s s' →
    AgreeOn i (exec i s) (exec i s')

/-- R26, U7: an operation that completes leaves exactly the registers and memories it writes marked as
specified; one that fails, none (its OLEN is 0 all the same: HostReads). The marks are the model's (log
entries 6, 7, 27). -/
def Obligations.SpecifiedAfterOperation : Prop :=
  ∀ (i : Instr) (s t : State), s.status = .busy → exec i s = .next t →
    (t.status = .done → t.valid = writesOf i) ∧ (t.status = .error → t.valid = {})

/-! ### The host's protocol -/

/-- R201: a start while BUSY is not accepted and has no effect. -/
def Obligations.StartWhileBusyIgnored : Prop :=
  ∀ (s : State) (op : BitVec 4) (fine : Bool) (rest : List Turn),
    s.schedule = .host (.start op fine) :: rest → s.status = .busy →
    step s = .next { s with schedule := rest }

/-- R199 steps 1 to 3, R24: with no operation running the host writes the operands, each into its register
or memory; then writing OP starts the operation, and STATUS becomes BUSY. R100, U12: a start of FINDMATCH
with a legal width and a cursor beyond the input is refused. That a start with a request register never
written goes on, with any value there, is the model's choice (log entry 28). -/
def Obligations.HostRequestsOperation : Prop :=
  ∀ (s : State) (m : HostMove) (rest : List Turn), s.schedule = .host m :: rest →
    s.status ≠ .busy →
    (∀ n, m = .writeC n → step s = .next { s with
      schedule := rest, cArg := n.toNat, written := { s.written with cArg := true } }) ∧
    (∀ v, m = .writeExt v → step s = .next { s with
      schedule := rest, extArg := v, written := { s.written with extArg := true } }) ∧
    (∀ n, m = .writePos n → step s = .next { s with
      schedule := rest, posArg := n, written := { s.written with posArg := true } }) ∧
    (∀ bs, m = .loadIn bs →
      ∃ t, step s = .next t ∧ t.inp.bytes = bs ∧ t.inp.wf ∧ t.ilen = bs.length ∧
        t = { s with schedule := rest, inp := t.inp }) ∧
    (∀ ts, m = .loadTok ts → step s = .next { s with
      schedule := rest, tok := ts, valid := { s.valid with tok := true } }) ∧
    (∀ (op : BitVec 4) (fine : Bool) (i : Instr), m = .start op fine → i ∈ hostOps →
      encode i = [op.setWidth 8] →
      (i ≠ .findmatch → ∃ t, step s = .next t ∧ Started s t op fine rest) ∧
      (i = .findmatch → s.written.cArg = true → s.written.posArg = true →
        ((1 ≤ s.cArg ∧ s.cArg ≤ 15) ∧ s.ilen < s.posArg → step s = .refused .posBeyondInput) ∧
        (¬ ((1 ≤ s.cArg ∧ s.cArg ≤ 15) ∧ s.ilen < s.posArg) →
          ∃ t, step s = .next t ∧ Started s t op fine rest)) ∧
      (i = .findmatch → step s = .refused .posBeyondInput ∨
        ∃ t, step s = .next t ∧ Started s t op fine rest))

/-- R196: reset, also while an operation runs, yields the state of R195: no result, no error record, no
partial output. -/
def Obligations.ResetAbandonsOperation : Prop :=
  ∀ (s : State) (rest : List Turn), s.schedule = .host .reset :: rest →
    ∃ t, step s = .next t ∧ t.status = .idle ∧ NoError t ∧ t.ilen = 0 ∧ t.olen = 0 ∧ t.tlen = 0 ∧
      t.valid = { out := true, tok := true } ∧ t.startPending = false ∧ t.schedule = rest

/-- R199 steps 4 and 5, R26, R32, R202, U7, U13: the host's reads. STATUS may be read at any time, anything
else when no operation runs, and nothing else changes (R48): a register or memory that holds a specified
value reads as it, any other as "unspecified". After reset every result and layout register reads as
"unspecified"; after an error OLEN reads as 0 and every result and layout register and the content of OUT
as "unspecified". The marks of what is specified, and that a read beyond R199 step 5 answers, are the
model's (log entries 6, 7, 25, 27 and 31). -/
def Obligations.HostReads : Prop :=
  (∀ (s : State) (r : ReadReg) (rest : List Turn), s.schedule = .host (.read r) :: rest →
    r = .status ∨ s.status ≠ .busy →
    (isSpecified s r = true →
      step s = .next { s with schedule := rest, hostSaw := some (contentOf s r) }) ∧
    (isSpecified s r = false →
      step s = .next { s with schedule := rest, hostSaw := some .unspecified })) ∧
  (∀ (r : ReadReg) (rest : List Turn), r ∈ [.resC, .resExt, .resLen, .resDist, .resFlag, .ly] →
    step { State.reset with schedule := .host (.read r) :: rest } =
      .next { State.reset with schedule := rest, hostSaw := some .unspecified }) ∧
  ∀ (s : State) (cause : Cause) (pos : Nat) (r : ReadReg) (rest : List Turn),
    r ∈ [.olen, .outBytes, .resC, .resExt, .resLen, .resDist, .resFlag, .ly] →
    step { raise cause pos s with schedule := .host (.read r) :: rest } =
      .next { raise cause pos s with
        schedule := rest, hostSaw := some (if r = .olen then .num 0 else .unspecified) }

/-- R200: while an operation runs the host has no move that writes an operand or reads anything but
STATUS; reading STATUS changes nothing of the block. -/
def Obligations.HostBlockedWhileBusy : Prop :=
  ∀ (s : State) (m : HostMove) (rest : List Turn), s.schedule = .host m :: rest →
    s.status = .busy →
    ((∃ n, m = .writeC n) ∨ (∃ e, m = .writeExt e) ∨ (∃ n, m = .writePos n) ∨
      (∃ bs, m = .loadIn bs) ∨ (∃ ts, m = .loadTok ts) ∨ (∃ r, r ≠ .status ∧ m = .read r) →
        step s = .fault .hostNoMove) ∧
    (m = .read .status → step s = .next { s with schedule := rest, hostSaw := some (.num 1) })
end

