-- ==== Sys2Proof/Laws/Encoding.lean ====
section
/-! SUPPORT. Byte order and field packing: each function and its inverse. -/

namespace Sys2Proof

/-! ### Big-endian sequences (R17) -/

@[simp] theorem be_length (n v : Nat) : (be n v).length = n := by
  induction n with
  | zero => rfl
  | succ n ih => simp [be, ih]

theorem foldl_fromBe (s : List Byte) : ∀ a : Nat,
    s.foldl (fun acc b => acc * 256 + b.toNat) a = a * 2 ^ (8 * s.length) + fromBe s := by
  induction s with
  | nil => intro a; simp [fromBe]
  | cons b s ih =>
    intro a
    have hp : (2 : Nat) ^ (8 * (s.length + 1)) = 256 * 2 ^ (8 * s.length) := by
      rw [show 8 * (s.length + 1) = 8 + 8 * s.length by ring, Nat.pow_add]
    have h0 := ih (0 * 256 + b.toNat)
    have ha := ih (a * 256 + b.toNat)
    simp only [fromBe, List.foldl_cons, List.length_cons] at h0 ha ⊢
    rw [ha, h0, hp]; ring

theorem fromBe_cons (b : Byte) (s : List Byte) :
    fromBe (b :: s) = b.toNat * 2 ^ (8 * s.length) + fromBe s := by
  have := foldl_fromBe s (0 * 256 + b.toNat)
  simpa [fromBe] using this

theorem fromBe_lt (s : List Byte) : fromBe s < 2 ^ (8 * s.length) := by
  induction s with
  | nil => simp [fromBe]
  | cons b s ih =>
    have hb : b.toNat < 256 := b.isLt
    have hp : (2 : Nat) ^ (8 * (s.length + 1)) = 256 * 2 ^ (8 * s.length) := by
      rw [show 8 * (s.length + 1) = 8 + 8 * s.length by ring, Nat.pow_add]
    rw [fromBe_cons, List.length_cons, hp]
    calc b.toNat * 2 ^ (8 * s.length) + fromBe s
        < b.toNat * 2 ^ (8 * s.length) + 2 ^ (8 * s.length) := by omega
      _ = (b.toNat + 1) * 2 ^ (8 * s.length) := by ring
      _ ≤ 256 * 2 ^ (8 * s.length) := Nat.mul_le_mul_right _ hb

/-- Reading back what was packed gives the value modulo the width. -/
theorem fromBe_be (n v : Nat) : fromBe (be n v) = v % 2 ^ (8 * n) := by
  induction n with
  | zero => simp [be, fromBe, Nat.mod_one]
  | succ n ih =>
    have hp : (2 : Nat) ^ (8 * (n + 1)) = 2 ^ (8 * n) * 256 := by
      rw [show 8 * (n + 1) = 8 * n + 8 by ring, Nat.pow_add]
    rw [be, fromBe_cons, ih, be_length, hp, Nat.mod_mul, BitVec.toNat_ofNat]
    ring

/-- Packing what was read gives the bytes back. -/
theorem be_mod (n v : Nat) : be n (v % 2 ^ (8 * n)) = be n v := by
  suffices h : ∀ n m v, n ≤ m → be n (v % 2 ^ (8 * m)) = be n v from h n n v le_rfl
  intro n
  induction n with
  | zero => intro m v _; rfl
  | succ n ih =>
    intro m v hm
    rw [be, be, ih m v (by omega)]
    congr 1
    apply BitVec.eq_of_toNat_eq
    simp only [BitVec.toNat_ofNat]
    have hp : (2 : Nat) ^ (8 * m) = 2 ^ (8 * n) * 2 ^ (8 * (m - n)) := by
      rw [← Nat.pow_add]; congr 1; omega
    rw [hp, Nat.mod_mul_right_div_self]
    have h8 : (2 : Nat) ^ 8 ∣ 2 ^ (8 * (m - n)) := Nat.pow_dvd_pow 2 (by omega)
    exact Nat.mod_mod_of_dvd _ h8

theorem be_fromBe (s : List Byte) : be s.length (fromBe s) = s := by
  induction s with
  | nil => rfl
  | cons b s ih =>
    have hlt := fromBe_lt s
    have hpos : 0 < 2 ^ (8 * s.length) := Nat.two_pow_pos _
    rw [List.length_cons, be, fromBe_cons]
    congr 1
    · apply BitVec.eq_of_toNat_eq
      rw [BitVec.toNat_ofNat, Nat.add_comm, Nat.add_mul_div_right _ _ hpos, Nat.div_eq_of_lt hlt]
      have := b.isLt
      omega
    · rw [← be_mod, Nat.add_comm, Nat.add_mul_mod_self_right, Nat.mod_eq_of_lt hlt, ih]

/-! ### Field widths (R82, R87) -/

theorem fieldBits_add (c : Nat) : matchLengthBits c + distanceBits c = usableBits c := by
  unfold distanceBits matchLengthBits usableBits
  split
  · rename_i h; subst h; rfl
  · omega

theorem usableBits_succ {c : Nat} (h : 1 ≤ c) : usableBits c + 1 = 8 * c := by
  unfold usableBits; omega

/-! ### Operand assembly after packing (R65) -/

theorem signalOf_litWord {c n : Nat} (h : n < 2 ^ usableBits c) : signalOf c (litWord n) = 0 :=
  Nat.div_eq_of_lt h

theorem litLenOf_litWord {c n : Nat} (h : n < 2 ^ usableBits c) : litLenOf c (litWord n) = n :=
  Nat.mod_eq_of_lt h

theorem matchFields_lt {c n d : Nat} (hn : n < 2 ^ matchLengthBits c) (hd : d < 2 ^ distanceBits c) :
    n * 2 ^ distanceBits c + d < 2 ^ usableBits c := by
  rw [← fieldBits_add, Nat.pow_add]
  calc n * 2 ^ distanceBits c + d < n * 2 ^ distanceBits c + 2 ^ distanceBits c := by omega
    _ = (n + 1) * 2 ^ distanceBits c := by ring
    _ ≤ 2 ^ matchLengthBits c * 2 ^ distanceBits c := Nat.mul_le_mul_right _ hn

theorem matchWord_lt {c n d : Nat} (hc : 1 ≤ c) (hn : n < 2 ^ matchLengthBits c)
    (hd : d < 2 ^ distanceBits c) : matchWord c n d < 2 ^ (8 * c) := by
  have h := matchFields_lt hn hd
  rw [← usableBits_succ hc, Nat.pow_succ]
  unfold matchWord; omega

theorem signalOf_matchWord {c n d : Nat} (hn : n < 2 ^ matchLengthBits c)
    (hd : d < 2 ^ distanceBits c) : signalOf c (matchWord c n d) = 1 := by
  have h := matchFields_lt hn hd
  unfold signalOf matchWord
  rw [Nat.add_assoc, Nat.add_comm, Nat.add_div_right _ (Nat.two_pow_pos _), Nat.div_eq_of_lt h]

theorem matchLenOf_matchWord {c n d : Nat} (hn : n < 2 ^ matchLengthBits c)
    (hd : d < 2 ^ distanceBits c) : matchLenOf c (matchWord c n d) = n := by
  unfold matchLenOf matchWord
  have hp : (2 : Nat) ^ usableBits c = 2 ^ matchLengthBits c * 2 ^ distanceBits c := by
    rw [← Nat.pow_add, fieldBits_add]
  have e : 2 ^ usableBits c + n * 2 ^ distanceBits c + d =
      d + (n + 2 ^ matchLengthBits c) * 2 ^ distanceBits c := by rw [hp]; ring
  rw [e, Nat.add_mul_div_right _ _ (Nat.two_pow_pos _), Nat.div_eq_of_lt hd, Nat.zero_add,
    Nat.add_mod_right, Nat.mod_eq_of_lt hn]

theorem matchDistOf_matchWord {c n d : Nat} (hd : d < 2 ^ distanceBits c) :
    matchDistOf c (matchWord c n d) = d := by
  unfold matchDistOf matchWord
  have hp : (2 : Nat) ^ usableBits c = 2 ^ matchLengthBits c * 2 ^ distanceBits c := by
    rw [← Nat.pow_add, fieldBits_add]
  have e : 2 ^ usableBits c + n * 2 ^ distanceBits c + d =
      d + (n + 2 ^ matchLengthBits c) * 2 ^ distanceBits c := by rw [hp]; ring
  rw [e, Nat.add_mul_mod_self_right, Nat.mod_eq_of_lt hd]

end Sys2Proof
end

