-- ==== Sys2Proof/Laws/Memory.lean ====
section
/-! SUPPORT. The laws of the byte memories: what a read sees after an append, and that every memory
operation keeps the canonical form. -/

namespace Sys2Proof.Machine

theorem numbered_length (bs : List Byte) : ∀ a, (numbered a bs).length = bs.length := by
  induction bs with
  | nil => intro a; rfl
  | cons b bs ih => intro a; simp [numbered, ih]

theorem numbered_bytes (bs : List Byte) : ∀ a, (numbered a bs).map Prod.snd = bs := by
  induction bs with
  | nil => intro a; rfl
  | cons b bs ih => intro a; simp [numbered, ih]

theorem numbered_indices (bs : List Byte) :
    ∀ a, (numbered a bs).map Prod.fst = List.range' a bs.length := by
  induction bs with
  | nil => intro a; rfl
  | cons b bs ih => intro a; simp [numbered, ih, List.range'_succ]

/-! ### Sizes and bytes -/

@[simp] theorem Memory.bytes_length (m : Memory) : m.bytes.length = m.size := by
  simp [Memory.bytes, Memory.size]

@[simp] theorem Memory.bytes_empty : Memory.empty.bytes = [] := rfl

@[simp] theorem Memory.size_empty : Memory.empty.size = 0 := rfl

@[simp] theorem Memory.bytes_ofBytes (bs : List Byte) : (Memory.ofBytes bs).bytes = bs :=
  numbered_bytes bs 0

@[simp] theorem Memory.size_ofBytes (bs : List Byte) : (Memory.ofBytes bs).size = bs.length :=
  numbered_length bs 0

@[simp] theorem Memory.bytes_append (m : Memory) (b : Byte) :
    (m.append b).bytes = m.bytes ++ [b] := by
  simp [Memory.append, Memory.bytes]

@[simp] theorem Memory.size_append (m : Memory) (b : Byte) : (m.append b).size = m.size + 1 := by
  simp [Memory.append, Memory.size]

@[simp] theorem Memory.bytes_appendAll (bs : List Byte) :
    ∀ m : Memory, (m.appendAll bs).bytes = m.bytes ++ bs := by
  induction bs with
  | nil => intro m; simp [Memory.appendAll]
  | cons b bs ih =>
    intro m
    have h := ih (m.append b)
    simp only [Memory.appendAll, List.foldl_cons] at h ⊢
    simp [h]

@[simp] theorem Memory.size_appendAll (m : Memory) (bs : List Byte) :
    (m.appendAll bs).size = m.size + bs.length := by
  rw [← Memory.bytes_length, Memory.bytes_appendAll]; simp

theorem State.ilen_eq_size (s : State) : s.ilen = s.inp.size := rfl

theorem State.olen_eq_size (s : State) : s.olen = s.out.size := rfl

/-! ### The canonical form is kept by every memory operation -/

theorem Memory.wf_empty : Memory.empty.wf := rfl

theorem Memory.wf_ofBytes (bs : List Byte) : (Memory.ofBytes bs).wf := by
  simp only [Memory.wf, Memory.size_ofBytes]
  simp [Memory.ofBytes, numbered_indices, List.range_eq_range']

theorem Memory.wf_append {m : Memory} (h : m.wf) (b : Byte) : (m.append b).wf := by
  simp only [Memory.wf, Memory.size_append, List.range_succ] at h ⊢
  simp [Memory.append, h]

theorem Memory.wf_appendAll (bs : List Byte) : ∀ {m : Memory}, m.wf → (m.appendAll bs).wf := by
  induction bs with
  | nil => intro m h; exact h
  | cons b bs ih => intro m h; exact ih (Memory.wf_append h b)

theorem Memory.wf_copyLoop (k : Nat) :
    ∀ (src : Nat) {m : Memory}, m.wf → (copyLoop k src m).out.wf := by
  induction k with
  | zero => intro src m h; exact h
  | succ k ih =>
    intro src m h
    simp only [copyLoop]
    split
    · exact h
    · exact ih _ (Memory.wf_append h _)

/-- A memory in canonical form is the numbering of its bytes. -/
theorem Memory.eq_ofBytes {m : Memory} (h : m.wf) : m = Memory.ofBytes m.bytes := by
  have key : ∀ (l : List Host.Cell) (a : Nat), l.map Prod.fst = List.range' a l.length →
      l = numbered a (l.map Prod.snd) := by
    intro l
    induction l with
    | nil => intro a _; rfl
    | cons c l ih =>
      intro a hc
      simp only [List.map_cons, List.length_cons, List.range'_succ, List.cons.injEq] at hc
      have := ih (a + 1) hc.2
      simp only [List.map_cons, numbered]
      rw [← this, ← hc.1]
  cases m with
  | mk cells =>
    simp only [Memory.wf, Memory.size, List.range_eq_range'] at h
    exact congrArg Memory.mk (key cells 0 h)

/-! ### Reading one byte -/

theorem find_numbered (bs : List Byte) : ∀ a k, k < bs.length →
    ((numbered a bs).find? fun cell => cell.1 == a + k).map Prod.snd = bs[k]? := by
  induction bs with
  | nil => intro a k h; simp at h
  | cons b bs ih =>
    intro a k h
    cases k with
    | zero => simp [numbered]
    | succ k =>
      have hk : k < bs.length := by simpa using h
      have := ih (a + 1) k hk
      simp only [numbered, List.find?_cons]
      have hne : (a == a + (k + 1)) = false := by simp
      simp only [hne]
      rw [show a + (k + 1) = a + 1 + k by omega, this]
      simp

theorem find_numbered_none (bs : List Byte) : ∀ a k, k < a ∨ a + bs.length ≤ k →
    (numbered a bs).find? (fun cell => cell.1 == k) = none := by
  induction bs with
  | nil => intro a k _; rfl
  | cons b bs ih =>
    intro a k h
    simp only [numbered, List.find?_cons]
    have hne : (a == k) = false := by
      simp only [beq_eq_false_iff_ne, ne_eq]
      simp only [List.length_cons] at h; omega
    simp only [hne]
    apply ih
    simp only [List.length_cons] at h; omega

/-- In canonical form a read by index is a read by position. -/
theorem Memory.read_eq {m : Memory} (h : m.wf) (a : Nat) : m.read a = m.bytes[a]? := by
  rw [Memory.eq_ofBytes h, Memory.bytes_ofBytes]
  by_cases ha : a < m.bytes.length
  · have := find_numbered m.bytes 0 a ha
    simpa [Memory.read, Memory.ofBytes] using this
  · have hn := find_numbered_none m.bytes 0 a (by omega)
    rw [List.getElem?_eq_none (by omega)]
    simp [Memory.read, Memory.ofBytes, hn]

theorem Memory.read_append_other (m : Memory) (b : Byte) {a : Nat} (h : a ≠ m.size) :
    (m.append b).read a = m.read a := by
  have hne : (m.size == a) = false := by simp; omega
  simp only [Memory.read, Memory.append, List.find?_append]
  simp [hne]

/-- A read outside the stored indices sees what it saw before. -/
theorem Memory.read_appendAll_other (bs : List Byte) : ∀ (m : Memory) {a : Nat},
    a < m.size ∨ m.size + bs.length ≤ a → (m.appendAll bs).read a = m.read a := by
  induction bs with
  | nil => intro m a _; rfl
  | cons b bs ih =>
    intro m a h
    simp only [List.length_cons] at h
    have h1 : (m.appendAll (b :: bs)).read a = ((m.append b).appendAll bs).read a := rfl
    rw [h1, ih (m.append b) (by simp; omega), Memory.read_append_other]
    omega

/-- A read of the byte just appended. -/
theorem Memory.read_append_same {m : Memory} (h : m.wf) (b : Byte) :
    (m.append b).read m.size = some b := by
  rw [Memory.read_eq (Memory.wf_append h b), Memory.bytes_append]
  simp [← Memory.bytes_length]

end Sys2Proof.Machine
end

