-- ==== Sys2Proof/Laws/State.lean ====
section
/-! SUPPORT. What each named update of the state does to each field. -/

namespace Sys2Proof.Machine

variable (s : State)

/-! ### flagDone -/

@[simp] theorem flagDone_op : (flagDone s).op = s.op := rfl
@[simp] theorem flagDone_cArg : (flagDone s).cArg = s.cArg := rfl
@[simp] theorem flagDone_extArg : (flagDone s).extArg = s.extArg := rfl
@[simp] theorem flagDone_posArg : (flagDone s).posArg = s.posArg := rfl
@[simp] theorem flagDone_status : (flagDone s).status = .done := rfl
@[simp] theorem flagDone_errClass : (flagDone s).errClass = 0 := rfl
@[simp] theorem flagDone_errCause : (flagDone s).errCause = 0 := rfl
@[simp] theorem flagDone_errPos : (flagDone s).errPos = 0 := rfl
@[simp] theorem flagDone_resC : (flagDone s).resC = s.resC := rfl
@[simp] theorem flagDone_resExt : (flagDone s).resExt = s.resExt := rfl
@[simp] theorem flagDone_resLen : (flagDone s).resLen = s.resLen := rfl
@[simp] theorem flagDone_resDist : (flagDone s).resDist = s.resDist := rfl
@[simp] theorem flagDone_resFlag : (flagDone s).resFlag = s.resFlag := rfl
@[simp] theorem flagDone_ly : (flagDone s).ly = s.ly := rfl
@[simp] theorem flagDone_inp : (flagDone s).inp = s.inp := rfl
@[simp] theorem flagDone_out : (flagDone s).out = s.out := rfl
@[simp] theorem flagDone_tok : (flagDone s).tok = s.tok := rfl
@[simp] theorem flagDone_icur : (flagDone s).icur = s.icur := rfl
@[simp] theorem flagDone_run : (flagDone s).run = s.run := rfl
@[simp] theorem flagDone_word : (flagDone s).word = s.word := rfl
@[simp] theorem flagDone_fLen : (flagDone s).fLen = s.fLen := rfl
@[simp] theorem flagDone_fDist : (flagDone s).fDist = s.fDist := rfl
@[simp] theorem flagDone_cpSrc : (flagDone s).cpSrc = s.cpSrc := rfl
@[simp] theorem flagDone_cpRem : (flagDone s).cpRem = s.cpRem := rfl
@[simp] theorem flagDone_curC : (flagDone s).curC = s.curC := rfl
@[simp] theorem flagDone_dstate : (flagDone s).dstate = s.dstate := rfl
@[simp] theorem flagDone_curE : (flagDone s).curE = s.curE := rfl
@[simp] theorem flagDone_startPending : (flagDone s).startPending = s.startPending := rfl
@[simp] theorem flagDone_fine : (flagDone s).fine = s.fine := rfl
@[simp] theorem flagDone_schedule : (flagDone s).schedule = s.schedule := rfl
@[simp] theorem flagDone_hostSaw : (flagDone s).hostSaw = s.hostSaw := rfl
@[simp] theorem flagDone_valid : (flagDone s).valid = s.valid := rfl
@[simp] theorem flagDone_written : (flagDone s).written = s.written := rfl
@[simp] theorem flagDone_freeCtr : (flagDone s).freeCtr = s.freeCtr := rfl

/-! ### flagError -/

@[simp] theorem flagError_op (cause : Cause) (pos : Nat) : (flagError cause pos s).op = s.op := rfl
@[simp] theorem flagError_cArg (cause : Cause) (pos : Nat) : (flagError cause pos s).cArg = s.cArg := rfl
@[simp] theorem flagError_extArg (cause : Cause) (pos : Nat) : (flagError cause pos s).extArg = s.extArg := rfl
@[simp] theorem flagError_posArg (cause : Cause) (pos : Nat) : (flagError cause pos s).posArg = s.posArg := rfl
@[simp] theorem flagError_status (cause : Cause) (pos : Nat) : (flagError cause pos s).status = .error := rfl
@[simp] theorem flagError_errClass (cause : Cause) (pos : Nat) : (flagError cause pos s).errClass = cause.errorClass := rfl
@[simp] theorem flagError_errCause (cause : Cause) (pos : Nat) : (flagError cause pos s).errCause = cause.code := rfl
@[simp] theorem flagError_errPos (cause : Cause) (pos : Nat) : (flagError cause pos s).errPos = pos := rfl
@[simp] theorem flagError_resC (cause : Cause) (pos : Nat) : (flagError cause pos s).resC = s.resC := rfl
@[simp] theorem flagError_resExt (cause : Cause) (pos : Nat) : (flagError cause pos s).resExt = s.resExt := rfl
@[simp] theorem flagError_resLen (cause : Cause) (pos : Nat) : (flagError cause pos s).resLen = s.resLen := rfl
@[simp] theorem flagError_resDist (cause : Cause) (pos : Nat) : (flagError cause pos s).resDist = s.resDist := rfl
@[simp] theorem flagError_resFlag (cause : Cause) (pos : Nat) : (flagError cause pos s).resFlag = s.resFlag := rfl
@[simp] theorem flagError_ly (cause : Cause) (pos : Nat) : (flagError cause pos s).ly = s.ly := rfl
@[simp] theorem flagError_inp (cause : Cause) (pos : Nat) : (flagError cause pos s).inp = s.inp := rfl
@[simp] theorem flagError_out (cause : Cause) (pos : Nat) : (flagError cause pos s).out = s.out := rfl
@[simp] theorem flagError_tok (cause : Cause) (pos : Nat) : (flagError cause pos s).tok = s.tok := rfl
@[simp] theorem flagError_icur (cause : Cause) (pos : Nat) : (flagError cause pos s).icur = s.icur := rfl
@[simp] theorem flagError_run (cause : Cause) (pos : Nat) : (flagError cause pos s).run = s.run := rfl
@[simp] theorem flagError_word (cause : Cause) (pos : Nat) : (flagError cause pos s).word = s.word := rfl
@[simp] theorem flagError_fLen (cause : Cause) (pos : Nat) : (flagError cause pos s).fLen = s.fLen := rfl
@[simp] theorem flagError_fDist (cause : Cause) (pos : Nat) : (flagError cause pos s).fDist = s.fDist := rfl
@[simp] theorem flagError_cpSrc (cause : Cause) (pos : Nat) : (flagError cause pos s).cpSrc = s.cpSrc := rfl
@[simp] theorem flagError_cpRem (cause : Cause) (pos : Nat) : (flagError cause pos s).cpRem = s.cpRem := rfl
@[simp] theorem flagError_curC (cause : Cause) (pos : Nat) : (flagError cause pos s).curC = s.curC := rfl
@[simp] theorem flagError_dstate (cause : Cause) (pos : Nat) : (flagError cause pos s).dstate = s.dstate := rfl
@[simp] theorem flagError_curE (cause : Cause) (pos : Nat) : (flagError cause pos s).curE = s.curE := rfl
@[simp] theorem flagError_startPending (cause : Cause) (pos : Nat) : (flagError cause pos s).startPending = s.startPending := rfl
@[simp] theorem flagError_fine (cause : Cause) (pos : Nat) : (flagError cause pos s).fine = s.fine := rfl
@[simp] theorem flagError_schedule (cause : Cause) (pos : Nat) : (flagError cause pos s).schedule = s.schedule := rfl
@[simp] theorem flagError_hostSaw (cause : Cause) (pos : Nat) : (flagError cause pos s).hostSaw = s.hostSaw := rfl
@[simp] theorem flagError_valid (cause : Cause) (pos : Nat) : (flagError cause pos s).valid = s.valid := rfl
@[simp] theorem flagError_written (cause : Cause) (pos : Nat) : (flagError cause pos s).written = s.written := rfl
@[simp] theorem flagError_freeCtr (cause : Cause) (pos : Nat) : (flagError cause pos s).freeCtr = s.freeCtr := rfl

/-! ### openResults -/

@[simp] theorem openResults_op : (openResults s).op = s.op := rfl
@[simp] theorem openResults_cArg : (openResults s).cArg = s.cArg := rfl
@[simp] theorem openResults_extArg : (openResults s).extArg = s.extArg := rfl
@[simp] theorem openResults_posArg : (openResults s).posArg = s.posArg := rfl
@[simp] theorem openResults_status : (openResults s).status = s.status := rfl
@[simp] theorem openResults_errClass : (openResults s).errClass = s.errClass := rfl
@[simp] theorem openResults_errCause : (openResults s).errCause = s.errCause := rfl
@[simp] theorem openResults_errPos : (openResults s).errPos = s.errPos := rfl
@[simp] theorem openResults_resC : (openResults s).resC = Config.freeResC s.freeCtr := rfl
@[simp] theorem openResults_resExt : (openResults s).resExt = Config.freeResExt s.freeCtr := rfl
@[simp] theorem openResults_resLen : (openResults s).resLen = Config.freeResLen s.freeCtr := rfl
@[simp] theorem openResults_resDist : (openResults s).resDist = Config.freeResDist s.freeCtr := rfl
@[simp] theorem openResults_resFlag : (openResults s).resFlag = Config.freeResFlag s.freeCtr := rfl
@[simp] theorem openResults_ly : (openResults s).ly = s.ly := rfl
@[simp] theorem openResults_inp : (openResults s).inp = s.inp := rfl
@[simp] theorem openResults_out : (openResults s).out = s.out := rfl
@[simp] theorem openResults_tok : (openResults s).tok = s.tok := rfl
@[simp] theorem openResults_icur : (openResults s).icur = s.icur := rfl
@[simp] theorem openResults_run : (openResults s).run = s.run := rfl
@[simp] theorem openResults_word : (openResults s).word = s.word := rfl
@[simp] theorem openResults_fLen : (openResults s).fLen = s.fLen := rfl
@[simp] theorem openResults_fDist : (openResults s).fDist = s.fDist := rfl
@[simp] theorem openResults_cpSrc : (openResults s).cpSrc = s.cpSrc := rfl
@[simp] theorem openResults_cpRem : (openResults s).cpRem = s.cpRem := rfl
@[simp] theorem openResults_curC : (openResults s).curC = s.curC := rfl
@[simp] theorem openResults_dstate : (openResults s).dstate = s.dstate := rfl
@[simp] theorem openResults_curE : (openResults s).curE = s.curE := rfl
@[simp] theorem openResults_startPending : (openResults s).startPending = s.startPending := rfl
@[simp] theorem openResults_fine : (openResults s).fine = s.fine := rfl
@[simp] theorem openResults_schedule : (openResults s).schedule = s.schedule := rfl
@[simp] theorem openResults_hostSaw : (openResults s).hostSaw = s.hostSaw := rfl
@[simp] theorem openResults_valid : (openResults s).valid = {} := rfl
@[simp] theorem openResults_written : (openResults s).written = s.written := rfl
@[simp] theorem openResults_freeCtr : (openResults s).freeCtr = s.freeCtr + 1 := rfl

/-! ### complete -/

@[simp] theorem complete_op : (complete s).op = s.op := rfl
@[simp] theorem complete_cArg : (complete s).cArg = s.cArg := rfl
@[simp] theorem complete_extArg : (complete s).extArg = s.extArg := rfl
@[simp] theorem complete_posArg : (complete s).posArg = s.posArg := rfl
@[simp] theorem complete_status : (complete s).status = .done := rfl
@[simp] theorem complete_errClass : (complete s).errClass = 0 := rfl
@[simp] theorem complete_errCause : (complete s).errCause = 0 := rfl
@[simp] theorem complete_errPos : (complete s).errPos = 0 := rfl
@[simp] theorem complete_resC : (complete s).resC = Config.freeResC s.freeCtr := rfl
@[simp] theorem complete_resExt : (complete s).resExt = Config.freeResExt s.freeCtr := rfl
@[simp] theorem complete_resLen : (complete s).resLen = Config.freeResLen s.freeCtr := rfl
@[simp] theorem complete_resDist : (complete s).resDist = Config.freeResDist s.freeCtr := rfl
@[simp] theorem complete_resFlag : (complete s).resFlag = Config.freeResFlag s.freeCtr := rfl
@[simp] theorem complete_ly : (complete s).ly = s.ly := rfl
@[simp] theorem complete_inp : (complete s).inp = s.inp := rfl
@[simp] theorem complete_out : (complete s).out = s.out := rfl
@[simp] theorem complete_tok : (complete s).tok = s.tok := rfl
@[simp] theorem complete_icur : (complete s).icur = s.icur := rfl
@[simp] theorem complete_run : (complete s).run = s.run := rfl
@[simp] theorem complete_word : (complete s).word = s.word := rfl
@[simp] theorem complete_fLen : (complete s).fLen = s.fLen := rfl
@[simp] theorem complete_fDist : (complete s).fDist = s.fDist := rfl
@[simp] theorem complete_cpSrc : (complete s).cpSrc = s.cpSrc := rfl
@[simp] theorem complete_cpRem : (complete s).cpRem = s.cpRem := rfl
@[simp] theorem complete_curC : (complete s).curC = s.curC := rfl
@[simp] theorem complete_dstate : (complete s).dstate = s.dstate := rfl
@[simp] theorem complete_curE : (complete s).curE = s.curE := rfl
@[simp] theorem complete_startPending : (complete s).startPending = s.startPending := rfl
@[simp] theorem complete_fine : (complete s).fine = s.fine := rfl
@[simp] theorem complete_schedule : (complete s).schedule = s.schedule := rfl
@[simp] theorem complete_hostSaw : (complete s).hostSaw = s.hostSaw := rfl
@[simp] theorem complete_valid : (complete s).valid = {} := rfl
@[simp] theorem complete_written : (complete s).written = s.written := rfl
@[simp] theorem complete_freeCtr : (complete s).freeCtr = s.freeCtr + 1 := rfl

/-! ### raise -/

@[simp] theorem raise_op (cause : Cause) (pos : Nat) : (raise cause pos s).op = s.op := rfl
@[simp] theorem raise_cArg (cause : Cause) (pos : Nat) : (raise cause pos s).cArg = s.cArg := rfl
@[simp] theorem raise_extArg (cause : Cause) (pos : Nat) : (raise cause pos s).extArg = s.extArg := rfl
@[simp] theorem raise_posArg (cause : Cause) (pos : Nat) : (raise cause pos s).posArg = s.posArg := rfl
@[simp] theorem raise_status (cause : Cause) (pos : Nat) : (raise cause pos s).status = .error := rfl
@[simp] theorem raise_errClass (cause : Cause) (pos : Nat) : (raise cause pos s).errClass = cause.errorClass := rfl
@[simp] theorem raise_errCause (cause : Cause) (pos : Nat) : (raise cause pos s).errCause = cause.code := rfl
@[simp] theorem raise_errPos (cause : Cause) (pos : Nat) : (raise cause pos s).errPos = pos := rfl
@[simp] theorem raise_resC (cause : Cause) (pos : Nat) : (raise cause pos s).resC = Config.freeResC s.freeCtr := rfl
@[simp] theorem raise_resExt (cause : Cause) (pos : Nat) : (raise cause pos s).resExt = Config.freeResExt s.freeCtr := rfl
@[simp] theorem raise_resLen (cause : Cause) (pos : Nat) : (raise cause pos s).resLen = Config.freeResLen s.freeCtr := rfl
@[simp] theorem raise_resDist (cause : Cause) (pos : Nat) : (raise cause pos s).resDist = Config.freeResDist s.freeCtr := rfl
@[simp] theorem raise_resFlag (cause : Cause) (pos : Nat) : (raise cause pos s).resFlag = Config.freeResFlag s.freeCtr := rfl
@[simp] theorem raise_ly (cause : Cause) (pos : Nat) : (raise cause pos s).ly = freeLayout s.freeCtr := rfl
@[simp] theorem raise_inp (cause : Cause) (pos : Nat) : (raise cause pos s).inp = s.inp := rfl
@[simp] theorem raise_out (cause : Cause) (pos : Nat) : (raise cause pos s).out = Memory.empty := rfl
@[simp] theorem raise_tok (cause : Cause) (pos : Nat) : (raise cause pos s).tok = s.tok := rfl
@[simp] theorem raise_icur (cause : Cause) (pos : Nat) : (raise cause pos s).icur = s.icur := rfl
@[simp] theorem raise_run (cause : Cause) (pos : Nat) : (raise cause pos s).run = s.run := rfl
@[simp] theorem raise_word (cause : Cause) (pos : Nat) : (raise cause pos s).word = s.word := rfl
@[simp] theorem raise_fLen (cause : Cause) (pos : Nat) : (raise cause pos s).fLen = s.fLen := rfl
@[simp] theorem raise_fDist (cause : Cause) (pos : Nat) : (raise cause pos s).fDist = s.fDist := rfl
@[simp] theorem raise_cpSrc (cause : Cause) (pos : Nat) : (raise cause pos s).cpSrc = s.cpSrc := rfl
@[simp] theorem raise_cpRem (cause : Cause) (pos : Nat) : (raise cause pos s).cpRem = s.cpRem := rfl
@[simp] theorem raise_curC (cause : Cause) (pos : Nat) : (raise cause pos s).curC = s.curC := rfl
@[simp] theorem raise_dstate (cause : Cause) (pos : Nat) : (raise cause pos s).dstate = s.dstate := rfl
@[simp] theorem raise_curE (cause : Cause) (pos : Nat) : (raise cause pos s).curE = s.curE := rfl
@[simp] theorem raise_startPending (cause : Cause) (pos : Nat) : (raise cause pos s).startPending = s.startPending := rfl
@[simp] theorem raise_fine (cause : Cause) (pos : Nat) : (raise cause pos s).fine = s.fine := rfl
@[simp] theorem raise_schedule (cause : Cause) (pos : Nat) : (raise cause pos s).schedule = s.schedule := rfl
@[simp] theorem raise_hostSaw (cause : Cause) (pos : Nat) : (raise cause pos s).hostSaw = s.hostSaw := rfl
@[simp] theorem raise_valid (cause : Cause) (pos : Nat) : (raise cause pos s).valid = {} := rfl
@[simp] theorem raise_written (cause : Cause) (pos : Nat) : (raise cause pos s).written = s.written := rfl
@[simp] theorem raise_freeCtr (cause : Cause) (pos : Nat) : (raise cause pos s).freeCtr = s.freeCtr + 1 := rfl

/-! ### beginDecompress -/

@[simp] theorem beginDecompress_op : (beginDecompress s).op = s.op := rfl
@[simp] theorem beginDecompress_cArg : (beginDecompress s).cArg = s.cArg := rfl
@[simp] theorem beginDecompress_extArg : (beginDecompress s).extArg = s.extArg := rfl
@[simp] theorem beginDecompress_posArg : (beginDecompress s).posArg = s.posArg := rfl
@[simp] theorem beginDecompress_status : (beginDecompress s).status = .busy := rfl
@[simp] theorem beginDecompress_errClass : (beginDecompress s).errClass = s.errClass := rfl
@[simp] theorem beginDecompress_errCause : (beginDecompress s).errCause = s.errCause := rfl
@[simp] theorem beginDecompress_errPos : (beginDecompress s).errPos = s.errPos := rfl
@[simp] theorem beginDecompress_resC : (beginDecompress s).resC = s.resC := rfl
@[simp] theorem beginDecompress_resExt : (beginDecompress s).resExt = s.resExt := rfl
@[simp] theorem beginDecompress_resLen : (beginDecompress s).resLen = s.resLen := rfl
@[simp] theorem beginDecompress_resDist : (beginDecompress s).resDist = s.resDist := rfl
@[simp] theorem beginDecompress_resFlag : (beginDecompress s).resFlag = s.resFlag := rfl
@[simp] theorem beginDecompress_ly : (beginDecompress s).ly = s.ly := rfl
@[simp] theorem beginDecompress_inp : (beginDecompress s).inp = s.inp := rfl
@[simp] theorem beginDecompress_out : (beginDecompress s).out = s.out := rfl
@[simp] theorem beginDecompress_tok : (beginDecompress s).tok = s.tok := rfl
@[simp] theorem beginDecompress_icur : (beginDecompress s).icur = 0 := rfl
@[simp] theorem beginDecompress_run : (beginDecompress s).run = s.run := rfl
@[simp] theorem beginDecompress_word : (beginDecompress s).word = s.word := rfl
@[simp] theorem beginDecompress_fLen : (beginDecompress s).fLen = s.fLen := rfl
@[simp] theorem beginDecompress_fDist : (beginDecompress s).fDist = s.fDist := rfl
@[simp] theorem beginDecompress_cpSrc : (beginDecompress s).cpSrc = s.cpSrc := rfl
@[simp] theorem beginDecompress_cpRem : (beginDecompress s).cpRem = s.cpRem := rfl
@[simp] theorem beginDecompress_curC : (beginDecompress s).curC = s.curC := rfl
@[simp] theorem beginDecompress_dstate : (beginDecompress s).dstate = .readingHeader := rfl
@[simp] theorem beginDecompress_curE : (beginDecompress s).curE = s.curE := rfl
@[simp] theorem beginDecompress_startPending : (beginDecompress s).startPending = s.startPending := rfl
@[simp] theorem beginDecompress_fine : (beginDecompress s).fine = s.fine := rfl
@[simp] theorem beginDecompress_schedule : (beginDecompress s).schedule = s.schedule := rfl
@[simp] theorem beginDecompress_hostSaw : (beginDecompress s).hostSaw = s.hostSaw := rfl
@[simp] theorem beginDecompress_valid : (beginDecompress s).valid = s.valid := rfl
@[simp] theorem beginDecompress_written : (beginDecompress s).written = s.written := rfl
@[simp] theorem beginDecompress_freeCtr : (beginDecompress s).freeCtr = s.freeCtr := rfl

/-! ### finishDecompress -/

@[simp] theorem finishDecompress_op : (finishDecompress s).op = s.op := rfl
@[simp] theorem finishDecompress_cArg : (finishDecompress s).cArg = s.cArg := rfl
@[simp] theorem finishDecompress_extArg : (finishDecompress s).extArg = s.extArg := rfl
@[simp] theorem finishDecompress_posArg : (finishDecompress s).posArg = s.posArg := rfl
@[simp] theorem finishDecompress_status : (finishDecompress s).status = .done := rfl
@[simp] theorem finishDecompress_errClass : (finishDecompress s).errClass = 0 := rfl
@[simp] theorem finishDecompress_errCause : (finishDecompress s).errCause = 0 := rfl
@[simp] theorem finishDecompress_errPos : (finishDecompress s).errPos = 0 := rfl
@[simp] theorem finishDecompress_resC : (finishDecompress s).resC = s.curC := rfl
@[simp] theorem finishDecompress_resExt : (finishDecompress s).resExt = s.curE := rfl
@[simp] theorem finishDecompress_resLen : (finishDecompress s).resLen = Config.freeResLen s.freeCtr := rfl
@[simp] theorem finishDecompress_resDist : (finishDecompress s).resDist = Config.freeResDist s.freeCtr := rfl
@[simp] theorem finishDecompress_resFlag : (finishDecompress s).resFlag = Config.freeResFlag s.freeCtr := rfl
@[simp] theorem finishDecompress_ly : (finishDecompress s).ly = s.ly := rfl
@[simp] theorem finishDecompress_inp : (finishDecompress s).inp = s.inp := rfl
@[simp] theorem finishDecompress_out : (finishDecompress s).out = s.out := rfl
@[simp] theorem finishDecompress_tok : (finishDecompress s).tok = s.tok := rfl
@[simp] theorem finishDecompress_icur : (finishDecompress s).icur = s.icur := rfl
@[simp] theorem finishDecompress_run : (finishDecompress s).run = s.run := rfl
@[simp] theorem finishDecompress_word : (finishDecompress s).word = s.word := rfl
@[simp] theorem finishDecompress_fLen : (finishDecompress s).fLen = s.fLen := rfl
@[simp] theorem finishDecompress_fDist : (finishDecompress s).fDist = s.fDist := rfl
@[simp] theorem finishDecompress_cpSrc : (finishDecompress s).cpSrc = s.cpSrc := rfl
@[simp] theorem finishDecompress_cpRem : (finishDecompress s).cpRem = s.cpRem := rfl
@[simp] theorem finishDecompress_curC : (finishDecompress s).curC = s.curC := rfl
@[simp] theorem finishDecompress_dstate : (finishDecompress s).dstate = s.dstate := rfl
@[simp] theorem finishDecompress_curE : (finishDecompress s).curE = s.curE := rfl
@[simp] theorem finishDecompress_startPending : (finishDecompress s).startPending = s.startPending := rfl
@[simp] theorem finishDecompress_fine : (finishDecompress s).fine = s.fine := rfl
@[simp] theorem finishDecompress_schedule : (finishDecompress s).schedule = s.schedule := rfl
@[simp] theorem finishDecompress_hostSaw : (finishDecompress s).hostSaw = s.hostSaw := rfl
@[simp] theorem finishDecompress_valid : (finishDecompress s).valid =
    { resC := true, resExt := true, out := true } := rfl
@[simp] theorem finishDecompress_written : (finishDecompress s).written = s.written := rfl
@[simp] theorem finishDecompress_freeCtr : (finishDecompress s).freeCtr = s.freeCtr + 1 := rfl

/-! ### withWord -/

@[simp] theorem withWord_op : (withWord s).op = s.op := rfl
@[simp] theorem withWord_cArg : (withWord s).cArg = s.cArg := rfl
@[simp] theorem withWord_extArg : (withWord s).extArg = s.extArg := rfl
@[simp] theorem withWord_posArg : (withWord s).posArg = s.posArg := rfl
@[simp] theorem withWord_status : (withWord s).status = s.status := rfl
@[simp] theorem withWord_errClass : (withWord s).errClass = s.errClass := rfl
@[simp] theorem withWord_errCause : (withWord s).errCause = s.errCause := rfl
@[simp] theorem withWord_errPos : (withWord s).errPos = s.errPos := rfl
@[simp] theorem withWord_resC : (withWord s).resC = s.resC := rfl
@[simp] theorem withWord_resExt : (withWord s).resExt = s.resExt := rfl
@[simp] theorem withWord_resLen : (withWord s).resLen = s.resLen := rfl
@[simp] theorem withWord_resDist : (withWord s).resDist = s.resDist := rfl
@[simp] theorem withWord_resFlag : (withWord s).resFlag = s.resFlag := rfl
@[simp] theorem withWord_ly : (withWord s).ly = s.ly := rfl
@[simp] theorem withWord_inp : (withWord s).inp = s.inp := rfl
@[simp] theorem withWord_out : (withWord s).out = s.out := rfl
@[simp] theorem withWord_tok : (withWord s).tok = s.tok := rfl
@[simp] theorem withWord_icur : (withWord s).icur = s.icur := rfl
@[simp] theorem withWord_run : (withWord s).run = s.run := rfl
@[simp] theorem withWord_word : (withWord s).word = BitVec.ofNat 120 (fromBe (s.inp.slice s.icur s.curC.toNat)) := rfl
@[simp] theorem withWord_fLen : (withWord s).fLen = s.fLen := rfl
@[simp] theorem withWord_fDist : (withWord s).fDist = s.fDist := rfl
@[simp] theorem withWord_cpSrc : (withWord s).cpSrc = s.cpSrc := rfl
@[simp] theorem withWord_cpRem : (withWord s).cpRem = s.cpRem := rfl
@[simp] theorem withWord_curC : (withWord s).curC = s.curC := rfl
@[simp] theorem withWord_dstate : (withWord s).dstate = s.dstate := rfl
@[simp] theorem withWord_curE : (withWord s).curE = s.curE := rfl
@[simp] theorem withWord_startPending : (withWord s).startPending = s.startPending := rfl
@[simp] theorem withWord_fine : (withWord s).fine = s.fine := rfl
@[simp] theorem withWord_schedule : (withWord s).schedule = s.schedule := rfl
@[simp] theorem withWord_hostSaw : (withWord s).hostSaw = s.hostSaw := rfl
@[simp] theorem withWord_valid : (withWord s).valid = s.valid := rfl
@[simp] theorem withWord_written : (withWord s).written = s.written := rfl
@[simp] theorem withWord_freeCtr : (withWord s).freeCtr = s.freeCtr := rfl

/-! ### settleRequest -/

@[simp] theorem settleRequest_op : (settleRequest s).op = s.op := rfl
@[simp] theorem settleRequest_cArg : (settleRequest s).cArg =
    if s.written.cArg then s.cArg else (Config.freeCArg s.freeCtr).toNat := rfl
@[simp] theorem settleRequest_extArg : (settleRequest s).extArg =
    if s.written.extArg then s.extArg else Config.freeExtArg s.freeCtr := rfl
@[simp] theorem settleRequest_posArg : (settleRequest s).posArg =
    if s.written.posArg then s.posArg else Config.freePosArg s.freeCtr := rfl
@[simp] theorem settleRequest_status : (settleRequest s).status = s.status := rfl
@[simp] theorem settleRequest_errClass : (settleRequest s).errClass = s.errClass := rfl
@[simp] theorem settleRequest_errCause : (settleRequest s).errCause = s.errCause := rfl
@[simp] theorem settleRequest_errPos : (settleRequest s).errPos = s.errPos := rfl
@[simp] theorem settleRequest_resC : (settleRequest s).resC = s.resC := rfl
@[simp] theorem settleRequest_resExt : (settleRequest s).resExt = s.resExt := rfl
@[simp] theorem settleRequest_resLen : (settleRequest s).resLen = s.resLen := rfl
@[simp] theorem settleRequest_resDist : (settleRequest s).resDist = s.resDist := rfl
@[simp] theorem settleRequest_resFlag : (settleRequest s).resFlag = s.resFlag := rfl
@[simp] theorem settleRequest_ly : (settleRequest s).ly = s.ly := rfl
@[simp] theorem settleRequest_inp : (settleRequest s).inp = s.inp := rfl
@[simp] theorem settleRequest_out : (settleRequest s).out = s.out := rfl
@[simp] theorem settleRequest_tok : (settleRequest s).tok = s.tok := rfl
@[simp] theorem settleRequest_icur : (settleRequest s).icur = s.icur := rfl
@[simp] theorem settleRequest_run : (settleRequest s).run = s.run := rfl
@[simp] theorem settleRequest_word : (settleRequest s).word = s.word := rfl
@[simp] theorem settleRequest_fLen : (settleRequest s).fLen = s.fLen := rfl
@[simp] theorem settleRequest_fDist : (settleRequest s).fDist = s.fDist := rfl
@[simp] theorem settleRequest_cpSrc : (settleRequest s).cpSrc = s.cpSrc := rfl
@[simp] theorem settleRequest_cpRem : (settleRequest s).cpRem = s.cpRem := rfl
@[simp] theorem settleRequest_curC : (settleRequest s).curC = s.curC := rfl
@[simp] theorem settleRequest_dstate : (settleRequest s).dstate = s.dstate := rfl
@[simp] theorem settleRequest_curE : (settleRequest s).curE = s.curE := rfl
@[simp] theorem settleRequest_startPending : (settleRequest s).startPending = s.startPending := rfl
@[simp] theorem settleRequest_fine : (settleRequest s).fine = s.fine := rfl
@[simp] theorem settleRequest_schedule : (settleRequest s).schedule = s.schedule := rfl
@[simp] theorem settleRequest_hostSaw : (settleRequest s).hostSaw = s.hostSaw := rfl
@[simp] theorem settleRequest_valid : (settleRequest s).valid = s.valid := rfl
@[simp] theorem settleRequest_written : (settleRequest s).written = ⟨true, true, true⟩ := rfl
@[simp] theorem settleRequest_freeCtr : (settleRequest s).freeCtr = s.freeCtr + 1 := rfl

/-! ### started -/

@[simp] theorem started_op (op : BitVec 4) (fine : Bool) : (started op fine s).op = op := rfl
@[simp] theorem started_cArg (op : BitVec 4) (fine : Bool) : (started op fine s).cArg =
    (settleRequest s).cArg := rfl
@[simp] theorem started_extArg (op : BitVec 4) (fine : Bool) : (started op fine s).extArg =
    (settleRequest s).extArg := rfl
@[simp] theorem started_posArg (op : BitVec 4) (fine : Bool) : (started op fine s).posArg =
    (settleRequest s).posArg := rfl
@[simp] theorem started_status (op : BitVec 4) (fine : Bool) : (started op fine s).status = .busy := rfl
@[simp] theorem started_errClass (op : BitVec 4) (fine : Bool) : (started op fine s).errClass =
    s.errClass := rfl
@[simp] theorem started_errCause (op : BitVec 4) (fine : Bool) : (started op fine s).errCause =
    s.errCause := rfl
@[simp] theorem started_errPos (op : BitVec 4) (fine : Bool) : (started op fine s).errPos = s.errPos := rfl
@[simp] theorem started_resC (op : BitVec 4) (fine : Bool) : (started op fine s).resC = s.resC := rfl
@[simp] theorem started_resExt (op : BitVec 4) (fine : Bool) : (started op fine s).resExt = s.resExt := rfl
@[simp] theorem started_resLen (op : BitVec 4) (fine : Bool) : (started op fine s).resLen = s.resLen := rfl
@[simp] theorem started_resDist (op : BitVec 4) (fine : Bool) : (started op fine s).resDist = s.resDist := rfl
@[simp] theorem started_resFlag (op : BitVec 4) (fine : Bool) : (started op fine s).resFlag = s.resFlag := rfl
@[simp] theorem started_ly (op : BitVec 4) (fine : Bool) : (started op fine s).ly = s.ly := rfl
@[simp] theorem started_inp (op : BitVec 4) (fine : Bool) : (started op fine s).inp = s.inp := rfl
@[simp] theorem started_out (op : BitVec 4) (fine : Bool) : (started op fine s).out = s.out := rfl
@[simp] theorem started_tok (op : BitVec 4) (fine : Bool) : (started op fine s).tok = s.tok := rfl
@[simp] theorem started_icur (op : BitVec 4) (fine : Bool) : (started op fine s).icur = s.icur := rfl
@[simp] theorem started_run (op : BitVec 4) (fine : Bool) : (started op fine s).run = s.run := rfl
@[simp] theorem started_word (op : BitVec 4) (fine : Bool) : (started op fine s).word = s.word := rfl
@[simp] theorem started_fLen (op : BitVec 4) (fine : Bool) : (started op fine s).fLen = s.fLen := rfl
@[simp] theorem started_fDist (op : BitVec 4) (fine : Bool) : (started op fine s).fDist = s.fDist := rfl
@[simp] theorem started_cpSrc (op : BitVec 4) (fine : Bool) : (started op fine s).cpSrc = s.cpSrc := rfl
@[simp] theorem started_cpRem (op : BitVec 4) (fine : Bool) : (started op fine s).cpRem = s.cpRem := rfl
@[simp] theorem started_curC (op : BitVec 4) (fine : Bool) : (started op fine s).curC = s.curC := rfl
@[simp] theorem started_dstate (op : BitVec 4) (fine : Bool) : (started op fine s).dstate = s.dstate := rfl
@[simp] theorem started_curE (op : BitVec 4) (fine : Bool) : (started op fine s).curE = s.curE := rfl
@[simp] theorem started_startPending (op : BitVec 4) (fine : Bool) : (started op fine s).startPending =
    true := rfl
@[simp] theorem started_fine (op : BitVec 4) (fine : Bool) : (started op fine s).fine = fine := rfl
@[simp] theorem started_schedule (op : BitVec 4) (fine : Bool) : (started op fine s).schedule =
    s.schedule := rfl
@[simp] theorem started_hostSaw (op : BitVec 4) (fine : Bool) : (started op fine s).hostSaw = s.hostSaw := rfl
@[simp] theorem started_valid (op : BitVec 4) (fine : Bool) : (started op fine s).valid = s.valid := rfl
@[simp] theorem started_written (op : BitVec 4) (fine : Bool) : (started op fine s).written =
    ⟨true, true, true⟩ := rfl
@[simp] theorem started_freeCtr (op : BitVec 4) (fine : Bool) : (started op fine s).freeCtr =
    s.freeCtr + 1 := rfl

end Sys2Proof.Machine
end

