-- ==== Sys2Proof/Laws/Ops.lean ====
section
/-! SUPPORT. For each shared operation, once, everything it can do. -/

namespace Sys2Proof.Machine

/-- MEM_CAP is unbounded in this model (R13, log entry 3), so storing never refuses. -/
@[simp] theorem commit_eq (s : State) : commit s = .next s := rfl

theorem widthOperand_eq_some {s : State} {c : Nat} :
    widthOperand s = some c ↔ c = s.cArg ∧ 1 ≤ s.cArg ∧ s.cArg ≤ 15 := by
  unfold widthOperand
  split
  · rename_i h; constructor
    · intro e; exact ⟨by injection e with e; exact e.symm, h⟩
    · rintro ⟨rfl, _⟩; rfl
  · rename_i h; constructor
    · intro e; cases e
    · rintro ⟨_, h'⟩; exact absurd h' h

theorem widthOperand_legal {s : State} (h1 : 1 ≤ s.cArg) (h2 : s.cArg ≤ 15) :
    widthOperand s = some s.cArg := widthOperand_eq_some.2 ⟨rfl, h1, h2⟩

theorem widthOperand_eq_none {s : State} :
    widthOperand s = none ↔ s.cArg = 0 ∨ 15 < s.cArg := by
  unfold widthOperand
  split
  · rename_i h; constructor
    · intro e; cases e
    · intro h'; omega
  · rename_i h; constructor
    · intro _; omega
    · intro _; rfl

/-! ### LIT and MATCH -/

/-- Everything `runLit` can do: LIT_TRUNC, or the payload appended. -/
theorem runLit_cases (c len : Nat) (s : State) :
    (s.ilen - (s.icur + c) < len ∧ runLit c len s = .next (raise .litTrunc s.icur
      { s with icur := s.icur + c, fLen := len, dstate := .readingLiteralPayload })) ∨
    (len ≤ s.ilen - (s.icur + c) ∧ runLit c len s = .next { s with
      out := s.out.appendAll (s.inp.slice (s.icur + c) len)
      icur := s.icur + c + len
      fLen := len
      dstate := .readingControlField }) := by
  unfold runLit
  split
  · exact .inl ⟨‹_›, rfl⟩
  · exact .inr ⟨by omega, rfl⟩

/-- Everything `runMatch` can do: BACKREF_RANGE, SRC_NOT_WRITTEN, or the copy. -/
theorem runMatch_cases (c len dist : Nat) (s : State) :
    (s.olen < dist ∧ runMatch c len dist s = .next (raise .backrefRange s.icur
      { s with icur := s.icur + c, fLen := len, fDist := dist, dstate := .copyingMatch })) ∨
    (dist ≤ s.olen ∧ (copyLoop len (s.olen - dist) s.out).left = 0 ∧
      runMatch c len dist s = .next { s with
        out := (copyLoop len (s.olen - dist) s.out).out
        icur := s.icur + c
        fLen := len
        fDist := dist
        cpSrc := (copyLoop len (s.olen - dist) s.out).src
        cpRem := 0
        dstate := .readingControlField }) ∨
    (dist ≤ s.olen ∧ 0 < (copyLoop len (s.olen - dist) s.out).left ∧
      runMatch c len dist s = .next (raise .srcNotWritten s.icur { s with
        icur := s.icur + c
        fLen := len
        fDist := dist
        cpSrc := (copyLoop len (s.olen - dist) s.out).src
        cpRem := (copyLoop len (s.olen - dist) s.out).left
        dstate := .copyingMatch })) := by
  unfold runMatch
  split
  · exact .inl ⟨‹_›, rfl⟩
  · have hle : dist ≤ s.olen := by omega
    generalize copyLoop len (s.olen - dist) s.out = r
    obtain ⟨src, left, m⟩ := r
    cases left with
    | zero => exact .inr (.inl ⟨hle, rfl, rfl⟩)
    | succ k => exact .inr (.inr ⟨hle, Nat.succ_pos k, rfl⟩)

/-- What a copy loop that starts below the write position does: it copies all `k` bytes, each the byte
`d` places before it in the result (R47). -/
theorem copyLoop_spec (k : Nat) : ∀ (src : Nat) (m : Memory), m.wf → src < m.size →
    (copyLoop k src m).left = 0 ∧ (copyLoop k src m).src = src + k ∧
    (copyLoop k src m).out.wf ∧ (copyLoop k src m).out.size = m.size + k ∧
    (∀ a, a < m.size → (copyLoop k src m).out.bytes[a]? = m.bytes[a]?) ∧
    (∀ q, q < k → (copyLoop k src m).out.bytes[m.size + q]? =
      (copyLoop k src m).out.bytes[src + q]?) := by
  induction k with
  | zero => intro src m h hs; exact ⟨rfl, rfl, h, rfl, fun _ _ => rfl, fun q hq => absurd hq (by omega)⟩
  | succ k ih =>
    intro src m h hs
    obtain ⟨b, hb⟩ : ∃ b, m.bytes[src]? = some b := ⟨_, List.getElem?_eq_getElem (by simpa using hs)⟩
    have hr : m.read src = some b := by rw [Memory.read_eq h, hb]
    obtain ⟨h1, h2, h3, h4, h5, h6⟩ :=
      ih (src + 1) (m.append b) (Memory.wf_append h b) (by simp; omega)
    simp only [copyLoop, hr]
    simp only [Memory.size_append] at h4 h5 h6
    refine ⟨h1, by omega, h3, by omega, ?_, ?_⟩
    · intro a ha
      rw [h5 a (by omega), Memory.bytes_append, List.getElem?_append_left (by simpa using ha)]
    · intro q hq
      cases q with
      | zero =>
        have hsz : m.size = m.bytes.length := (Memory.bytes_length m).symm
        show (copyLoop k (src + 1) (m.append b)).out.bytes[m.size]? =
          (copyLoop k (src + 1) (m.append b)).out.bytes[src]?
        have e1 : (m.append b).bytes[m.size]? = some b := by
          rw [Memory.bytes_append, hsz, List.getElem?_concat_length]
        have e2 : (m.append b).bytes[src]? = some b := by
          rw [Memory.bytes_append, List.getElem?_append_left (by omega), hb]
        rw [h5 m.size (by omega), h5 src (by omega), e1, e2]
      | succ q =>
        have := h6 q (by omega)
        rwa [show m.size + 1 + q = m.size + (q + 1) by omega,
          show src + 1 + q = src + (q + 1) by omega] at this

/-- A copy loop whose source is the write position stops at once, if it has anything to copy (R147). -/
theorem copyLoop_unwritten {m : Memory} (h : m.wf) (k : Nat) :
    copyLoop k m.size m = ⟨m.size, k, m⟩ := by
  cases k with
  | zero => rfl
  | succ k =>
    have hr : m.read m.size = none := by
      rw [Memory.read_eq h, List.getElem?_eq_none (by simp)]
    simp only [copyLoop, hr]

/-! ### The host operations with a width operand -/

/-- Everything LAYOUT can do (R80). -/
theorem execLayout_cases (s : State) :
    ((s.cArg = 0 ∨ 15 < s.cArg) ∧ execLayout s = .next (raise .widthRange 0 s)) ∨
    (1 ≤ s.cArg ∧ s.cArg ≤ 15 ∧
      execLayout s = .next { complete s with ly := layout s.cArg, valid := { ly := true } }) := by
  unfold execLayout
  cases h : widthOperand s with
  | none => exact .inl ⟨widthOperand_eq_none.1 h, rfl⟩
  | some c =>
    obtain ⟨rfl, h1, h2⟩ := widthOperand_eq_some.1 h
    exact .inr ⟨h1, h2, rfl⟩

/-- Everything FINDMATCH can do (R100). -/
theorem execFindmatch_cases (s : State) :
    ((s.cArg = 0 ∨ 15 < s.cArg) ∧ execFindmatch s = .next (raise .widthRange 0 s)) ∨
    (1 ≤ s.cArg ∧ s.cArg ≤ 15 ∧ s.ilen < s.posArg ∧
      execFindmatch s = .refused .posBeyondInput) ∨
    (1 ≤ s.cArg ∧ s.cArg ≤ 15 ∧ s.posArg ≤ s.ilen ∧ execFindmatch s = .next { complete s with
      resLen := (findmatch s.inp.bytes s.posArg (layout s.cArg)).1
      resDist := (findmatch s.inp.bytes s.posArg (layout s.cArg)).2
      valid := { resLen := true, resDist := true } }) := by
  unfold execFindmatch
  cases h : widthOperand s with
  | none => exact .inl ⟨widthOperand_eq_none.1 h, rfl⟩
  | some c =>
    obtain ⟨rfl, h1, h2⟩ := widthOperand_eq_some.1 h
    by_cases hp : s.ilen < s.posArg
    · exact .inr (.inl ⟨h1, h2, hp, by simp only [hp, ↓reduceIte]⟩)
    · exact .inr (.inr ⟨h1, h2, by omega, by simp only [hp, ↓reduceIte]⟩)

/-- Everything TOKENIZE can do (R110). -/
theorem execTokenize_cases (s : State) :
    ((s.cArg = 0 ∨ 15 < s.cArg) ∧
      execTokenize s = .next { raise .widthRange 0 s with tok := [] }) ∨
    (1 ≤ s.cArg ∧ s.cArg ≤ 15 ∧ execTokenize s = .next { complete s with
      tok := tokenize s.inp.bytes s.cArg
      valid := { tok := true }
      icur := (tokRun s.inp.bytes s.cArg).icur
      run := (tokRun s.inp.bytes s.cArg).run }) := by
  unfold execTokenize
  cases h : widthOperand s with
  | none => exact .inl ⟨widthOperand_eq_none.1 h, rfl⟩
  | some c =>
    obtain ⟨rfl, h1, h2⟩ := widthOperand_eq_some.1 h
    exact .inr ⟨h1, h2, rfl⟩

/-- Everything GENHDR can do (R120). -/
theorem execGenhdr_cases (s : State) :
    ((s.cArg = 0 ∨ 15 < s.cArg) ∧ execGenhdr s = .next (raise .widthRange 0 s)) ∨
    (1 ≤ s.cArg ∧ s.cArg ≤ 15 ∧ execGenhdr s = .next { complete s with
      out := Memory.ofBytes (headerBytes s.cArg (extToCode s.extArg))
      resExt := extToCode s.extArg
      valid := { resExt := true, out := true } }) := by
  unfold execGenhdr
  cases h : widthOperand s with
  | none => exact .inl ⟨widthOperand_eq_none.1 h, rfl⟩
  | some c =>
    obtain ⟨rfl, h1, h2⟩ := widthOperand_eq_some.1 h
    exact .inr ⟨h1, h2, rfl⟩

/-- Everything PARSEHDR can do (R123). -/
theorem execParsehdr_cases (s : State) :
    (∃ cause pos, parseHeader s.inp.bytes = .error (cause, pos) ∧
      execParsehdr s = .next (raise cause pos s)) ∨
    (∃ c e, parseHeader s.inp.bytes = .ok (c, e) ∧ execParsehdr s = .next { complete s with
      out := Memory.ofBytes (s.inp.bytes.drop 2)
      resC := c
      resExt := e
      valid := { resC := true, resExt := true, out := true } }) := by
  unfold execParsehdr
  cases h : parseHeader s.inp.bytes with
  | error r => exact .inl ⟨r.1, r.2, rfl, rfl⟩
  | ok r => exact .inr ⟨r.1, r.2, rfl, rfl⟩

/-- Everything ENCODE can do (R130, R134). -/
theorem execEncode_cases (s : State) :
    ((s.cArg = 0 ∨ 15 < s.cArg) ∧ execEncode s = .next (raise .widthRange 0 s)) ∨
    (1 ≤ s.cArg ∧ s.cArg ≤ 15 ∧ ∃ k, firstBad (layout s.cArg) 0 s.tok = some k ∧
      execEncode s = .next (raise .tokenRange k
        { s with word := lastWord s.cArg s.word (s.tok.take k) })) ∨
    (1 ≤ s.cArg ∧ s.cArg ≤ 15 ∧ firstBad (layout s.cArg) 0 s.tok = none ∧
      execEncode s = .next { complete s with
        out := Memory.ofBytes (encodeTokens s.cArg s.tok)
        valid := { out := true }
        word := lastWord s.cArg s.word s.tok }) := by
  unfold execEncode
  cases h : widthOperand s with
  | none => exact .inl ⟨widthOperand_eq_none.1 h, rfl⟩
  | some c =>
    obtain ⟨rfl, h1, h2⟩ := widthOperand_eq_some.1 h
    cases hb : firstBad (layout s.cArg) 0 s.tok with
    | none => exact .inr (.inr ⟨h1, h2, rfl, by simp only [hb, commit_eq]⟩)
    | some k => exact .inr (.inl ⟨h1, h2, k, rfl, by simp only [hb]⟩)

/-- Everything COMPRESS can do (R155). -/
theorem execCompress_cases (s : State) :
    ((s.cArg = 0 ∨ 15 < s.cArg) ∧ execCompress s = .next (raise .widthRange 0 s)) ∨
    (1 ≤ s.cArg ∧ s.cArg ≤ 15 ∧ execCompress s = .next { complete s with
      out := Memory.ofBytes (headerBytes s.cArg (extToCode s.extArg) ++
        encodeTokens s.cArg (tokenize s.inp.bytes s.cArg))
      resExt := extToCode s.extArg
      valid := { resExt := true, out := true }
      icur := (tokRun s.inp.bytes s.cArg).icur
      run := (tokRun s.inp.bytes s.cArg).run
      word := lastWord s.cArg s.word (tokenize s.inp.bytes s.cArg) }) := by
  unfold execCompress
  cases h : widthOperand s with
  | none => exact .inl ⟨widthOperand_eq_none.1 h, rfl⟩
  | some c =>
    obtain ⟨rfl, h1, h2⟩ := widthOperand_eq_some.1 h
    exact .inr ⟨h1, h2, rfl⟩

/-- Everything HDR can do (R140 step 1, R175). -/
theorem execHdr_cases (c e : BitVec 4) (s : State) :
    (c = 0#4 ∧ execHdr c e s = .next (raise .hdrWidth 1 s)) ∨
    (c ≠ 0#4 ∧ execHdr c e s = .next { s with
      curC := c
      curE := e
      out := Memory.empty
      icur := 2
      dstate := .readingControlField }) := by
  unfold execHdr
  split
  · exact .inl ⟨‹_›, rfl⟩
  · exact .inr ⟨‹_›, rfl⟩

end Sys2Proof.Machine
end

