-- ==== Sys2Proof/Laws/Decoder.lean ====
section
/-! SUPPORT. What one tick of the stream decoder can do, and that a decoded control field runs the same
tick. -/

namespace Sys2Proof.Machine

/-! ### The row of a control word runs the shared operation of its family -/

theorem exec_litInstr {c n : Nat} {i : Instr} (h : litInstr c n = .ok i) (hn : n < 2 ^ usableBits c)
    (s : State) : exec i s = runLit c n s := by
  have hc : 1 ≤ c ∧ c ≤ 15 := by
    by_contra hc
    have : litInstr c n = .error .noWidth := by
      unfold litInstr; split <;> first | omega | rfl
    rw [this] at h; cases h
  obtain ⟨h1, h2⟩ := hc
  interval_cases c <;>
    (injection h with h; subst h
     exact congrArg (fun k => runLit _ k s)
       ((BitVec.toNat_ofNat _ _).trans (Nat.mod_eq_of_lt hn)))

theorem exec_matchInstr {c n d : Nat} {i : Instr} (h : matchInstr c n d = .ok i)
    (hn : n < 2 ^ matchLengthBits c) (hd : d < 2 ^ distanceBits c) (s : State) :
    exec i s = runMatch c n d s := by
  have hc : 1 ≤ c ∧ c ≤ 15 := by
    by_contra hc
    have : matchInstr c n d = .error .noWidth := by
      unfold matchInstr; split <;> first | omega | rfl
    rw [this] at h; cases h
  obtain ⟨h1, h2⟩ := hc
  interval_cases c <;>
    (injection h with h; subst h
     exact congrArg₂ (fun k l => runMatch _ k l s)
       ((BitVec.toNat_ofNat _ _).trans (Nat.mod_eq_of_lt hn))
       ((BitVec.toNat_ofNat _ _).trans (Nat.mod_eq_of_lt hd)))

theorem litInstr_ok {c : Nat} (h1 : 1 ≤ c) (h2 : c ≤ 15) (n : Nat) : ∃ i, litInstr c n = .ok i := by
  interval_cases c <;> exact ⟨_, rfl⟩

theorem matchInstr_ok {c : Nat} (h1 : 1 ≤ c) (h2 : c ≤ 15) (n d : Nat) :
    ∃ i, matchInstr c n d = .ok i := by
  interval_cases c <;> exact ⟨_, rfl⟩

theorem litLenOf_lt (c w : Nat) : litLenOf c w < 2 ^ usableBits c := Nat.mod_lt _ (Nat.two_pow_pos _)

theorem matchLenOf_lt (c w : Nat) : matchLenOf c w < 2 ^ matchLengthBits c :=
  Nat.mod_lt _ (Nat.two_pow_pos _)

theorem matchDistOf_lt (c w : Nat) : matchDistOf c w < 2 ^ distanceBits c :=
  Nat.mod_lt _ (Nat.two_pow_pos _)

/-- A control word of a legal width is an instruction, and it runs LIT or MATCH by the signal bit (R62,
R65). -/
theorem decodeWord_runs {c : Nat} (h1 : 1 ≤ c) (h2 : c ≤ 15) (w : Nat) :
    ∃ i, decodeWord c w = .ok i ∧ ∀ s, exec i s =
      if signalOf c w = 0 then runLit c (litLenOf c w) s
      else runMatch c (matchLenOf c w) (matchDistOf c w) s := by
  unfold decodeWord
  split
  · obtain ⟨i, hi⟩ := litInstr_ok h1 h2 (litLenOf c w)
    exact ⟨i, hi, exec_litInstr hi (litLenOf_lt c w)⟩
  · obtain ⟨i, hi⟩ := matchInstr_ok h1 h2 (matchLenOf c w) (matchDistOf c w)
    exact ⟨i, hi, exec_matchInstr hi (matchLenOf_lt c w) (matchDistOf_lt c w)⟩

/-! ### One tick -/

/-- Everything a tick that reads a token can do, for a legal width: CF_TRUNC, or LIT or MATCH with the
control word in WORD (R140, R143). -/
theorem tokenTick_cases {s : State} (hc : s.curC ≠ 0#4) :
    (s.ilen - s.icur < s.curC.toNat ∧ tokenTick s = .next (raise .cfTrunc s.icur s)) ∨
    (s.curC.toNat ≤ s.ilen - s.icur ∧ ∃ len,
      tokenTick s = runLit s.curC.toNat len (withWord s)) ∨
    (s.curC.toNat ≤ s.ilen - s.icur ∧ ∃ len dist,
      tokenTick s = runMatch s.curC.toNat len dist (withWord s)) := by
  unfold tokenTick
  by_cases h : s.ilen - s.icur < s.curC.toNat
  · exact .inl ⟨h, by simp only [h, ↓reduceIte]⟩
  · simp only [h, hc, ↓reduceIte]
    split
    · exact .inr (.inl ⟨by omega, _, rfl⟩)
    · exact .inr (.inr ⟨by omega, _, _, rfl⟩)

/-- The turn of a stepped DECOMPRESS: what is fetched, executed, is one tick of the decoder. -/
theorem fetchStream_eq_tick (s : State) :
    (match fetchStream s with
      | .run i t => exec i t
      | .stop o => o) = decoderTick s := by
  have field : s.icur < s.ilen →
      (match (match decode (.field s.curC.toNat) (s.inp.bytes.drop s.icur) with
        | .ok (i, _) => Fetch.run i (withWord s)
        | .error r => .stop (.next (rejectError r s))) with
        | .run i t => exec i t
        | .stop o => o) = tokenTick s := by
    intro hlt
    have hlen : (s.inp.bytes.drop s.icur).length = s.ilen - s.icur := by
      rw [List.length_drop, Memory.bytes_length]; rfl
    simp only [decode, decodeField, hlen]
    unfold tokenTick
    by_cases h : s.ilen - s.icur < s.curC.toNat
    · simp only [h, ↓reduceIte, rejectError]
    · by_cases hc : s.curC = 0#4
      · have hd : ∀ w, decodeWord 0 w = .error .noWidth := by
          intro w; unfold decodeWord; split <;> rfl
        have hz : s.curC.toNat = 0 := by rw [hc]; rfl
        simp only [hz] at h ⊢
        simp only [h, hc, ↓reduceIte, hd, rejectError]
      · have h1 : 1 ≤ s.curC.toNat := by
          by_contra hn
          exact hc (BitVec.eq_of_toNat_eq (by simp; omega))
        obtain ⟨i, hi, hx⟩ := decodeWord_runs h1 (by have := s.curC.isLt; omega)
          (fromBe (s.inp.slice s.icur s.curC.toNat))
        simp only [Memory.slice] at hi hx ⊢
        simp only [h, hc, ↓reduceIte, hi, hx]
        rfl
  unfold fetchStream decoderTick
  cases s.dstate with
  | readingHeader =>
    simp only [decode, decodeHeader, headerTick]
    match s.inp.bytes with
    | [] => rfl
    | [_] => rfl
    | m :: b :: rest =>
      by_cases hm : m = magic
      · simp only [hm, ↓reduceIte, ne_eq, not_true_eq_false]; rfl
      · simp only [hm, ↓reduceIte, ne_eq, not_false_eq_true, rejectError]
  | readingControlField | readingLiteralPayload | copyingMatch =>
    by_cases hlt : s.icur < s.ilen
    · simp only [hlt, ↓reduceIte]; exact field hlt
    · simp only [hlt, ↓reduceIte]

/-- A tick changes none of the fields that belong to the host or to the request, and answers a next state. -/
theorem decoderTick_frame (s : State) : ∃ t, decoderTick s = .next t ∧ t.schedule = s.schedule ∧
    t.startPending = s.startPending ∧ t.fine = s.fine ∧ t.inp = s.inp ∧ t.tok = s.tok ∧
    t.hostSaw = s.hostSaw ∧ t.written = s.written ∧ t.op = s.op ∧ t.cArg = s.cArg ∧
    t.extArg = s.extArg ∧ t.posArg = s.posArg ∧ t.run = s.run := by
  unfold decoderTick headerTick tokenTick
  repeat' split
  all_goals first
    | exact ⟨_, rfl, rfl, rfl, rfl, rfl, rfl, rfl, rfl, rfl, rfl, rfl, rfl, rfl⟩
    | (rename_i b _ _ _
       rcases execHdr_cases (b.extractLsb' 4 4) (b.extractLsb' 0 4) s with ⟨_, e⟩ | ⟨_, e⟩ <;>
         (rw [e]; exact ⟨_, rfl, rfl, rfl, rfl, rfl, rfl, rfl, rfl, rfl, rfl, rfl, rfl, rfl⟩))
    | (generalize litLenOf _ _ = n
       rcases runLit_cases s.curC.toNat n (withWord s) with ⟨_, e⟩ | ⟨_, e⟩ <;>
         exact ⟨_, e, rfl, rfl, rfl, rfl, rfl, rfl, rfl, rfl, rfl, rfl, rfl, rfl⟩)
    | (generalize matchLenOf _ _ = n
       generalize matchDistOf _ _ = d
       rcases runMatch_cases s.curC.toNat n d (withWord s) with ⟨_, e⟩ | ⟨_, _, e⟩ | ⟨_, _, e⟩ <;>
         exact ⟨_, e, rfl, rfl, rfl, rfl, rfl, rfl, rfl, rfl, rfl, rfl, rfl, rfl⟩)

/-! ### Ticks in a row -/

theorem runDecoder_next {s t : State} (hb : s.status = .busy) (h : decoderTick s = .next t) (k : Nat) :
    runDecoder (k + 1) s = runDecoder k t := by
  simp only [runDecoder, hb, h]

theorem runDecoder_ended {s : State} (h : s.status ≠ .busy) (k : Nat) : runDecoder k s = .next s := by
  cases k with
  | zero => rfl
  | succ k => revert h; simp only [runDecoder]; cases s.status <;> simp

/-! ### The grain is not looked at -/

theorem runLit_fine {c n : Nat} {s t : State} (b : Bool) (h : runLit c n s = .next t) :
    runLit c n { s with fine := b } = .next { t with fine := b } := by
  unfold runLit at h ⊢
  simp only [commit_eq] at h ⊢
  by_cases h0 : s.ilen - (s.icur + c) < n
  · rw [if_pos h0] at h
    injection h with h
    subst h
    exact if_pos h0
  · rw [if_neg h0] at h
    injection h with h
    subst h
    exact if_neg h0

theorem runMatch_fine {c n d : Nat} {s t : State} (b : Bool) (h : runMatch c n d s = .next t) :
    runMatch c n d { s with fine := b } = .next { t with fine := b } := by
  unfold runMatch at h ⊢
  simp only [commit_eq] at h ⊢
  by_cases h0 : s.olen < d
  · rw [if_pos h0] at h
    injection h with h
    subst h
    exact if_pos h0
  · rw [if_neg h0] at h
    refine (if_neg h0).trans ?_
    revert h
    generalize copyLoop n (s.olen - d) s.out = r
    obtain ⟨src, left, m⟩ := r
    cases left <;> (intro h; injection h with h; subst h; rfl)

/-- A tick does not look at the grain. -/
theorem decoderTick_fine {s t : State} (b : Bool) (h : decoderTick s = .next t) :
    decoderTick { s with fine := b } = .next { t with fine := b } := by
  have token : tokenTick s = .next t →
      tokenTick { s with fine := b } = .next { t with fine := b } := by
    intro h
    unfold tokenTick at h ⊢
    by_cases h1 : s.ilen - s.icur < s.curC.toNat
    · rw [if_pos h1] at h
      injection h with h
      subst h
      exact if_pos h1
    · rw [if_neg h1] at h
      refine (if_neg h1).trans ?_
      by_cases h2 : s.curC = 0#4
      · rw [if_pos h2] at h
        injection h with h
        subst h
        exact if_pos h2
      · rw [if_neg h2] at h
        refine (if_neg h2).trans ?_
        by_cases h3 :
            signalOf s.curC.toNat (fromBe (s.inp.slice s.icur s.curC.toNat)) = 0
        · rw [if_pos h3] at h
          exact (if_pos h3).trans (runLit_fine b h)
        · rw [if_neg h3] at h
          exact (if_neg h3).trans (runMatch_fine b h)
  have header : headerTick s = .next t →
      headerTick { s with fine := b } = .next { t with fine := b } := by
    unfold headerTick execHdr
    dsimp only
    repeat' split
    all_goals (intro h; injection h with h; subst h; rfl)
  have other : (if s.icur < s.ilen then tokenTick s else .next (finishDecompress s)) = .next t →
      (if s.icur < s.ilen then tokenTick { s with fine := b }
        else .next (finishDecompress { s with fine := b })) = .next { t with fine := b } := by
    by_cases h1 : s.icur < s.ilen
    · simp only [h1, ↓reduceIte]; exact token
    · simp only [h1, ↓reduceIte]
      intro h
      injection h with h
      subst h
      rfl
  unfold decoderTick at h ⊢
  revert h
  dsimp only
  split
  · exact header
  · exact other

end Sys2Proof.Machine
end

