-- ==== Sys2Proof/Laws/Finder.lean ====
section
/-! SUPPORT. What the match finder's search and one pass of the tokenizer can do. -/

namespace Sys2Proof.Machine

/-! ### The search for one length (R102, R103) -/

/-- `D[p:p+j) = D[i:i+j)` byte by byte. -/
theorem occurs_iff (d : List Byte) (p i j : Nat) :
    occurs d p i j = true ↔ ∀ q, q < j → d[p + q]? = d[i + q]? := by
  simp only [occurs, sliceOf, beq_iff_eq]
  constructor
  · intro h q hq
    have := congrArg (fun l : List Byte => l[q]?) h
    simpa [List.getElem?_take, hq, List.getElem?_drop] using this
  · intro h
    apply List.ext_getElem?
    intro q
    by_cases hq : q < j
    · simpa [List.getElem?_take, hq, List.getElem?_drop] using h q hq
    · simp [hq]

/-- A prefix of an occurrence occurs: the loop may stop at the first length that does not. -/
theorem occurs_mono {d : List Byte} {p i j k : Nat} (h : occurs d p i j = true) (hk : k ≤ j) :
    occurs d p i k = true :=
  (occurs_iff d p i k).2 fun q hq => (occurs_iff d p i j).1 h q (by omega)

theorem lastOccurrence_none {d : List Byte} {w0 i j : Nat} : ∀ {k : Nat},
    lastOccurrence d w0 i j k = none ↔ ∀ q, q < k → occurs d (w0 + q) i j = false := by
  intro k
  induction k with
  | zero => simp [lastOccurrence]
  | succ k ih =>
    simp only [lastOccurrence]
    split
    · rename_i h
      constructor
      · intro e; cases e
      · intro hq; rw [hq k (by omega)] at h; cases h
    · rename_i h
      rw [ih]
      constructor
      · intro hq q hlt
        by_cases he : q = k
        · subst he; simpa using h
        · exact hq q (by omega)
      · intro hq q hlt; exact hq q (by omega)

/-- The start found is in range, the length occurs there, and nowhere closer to the cursor. -/
theorem lastOccurrence_some {d : List Byte} {w0 i j p : Nat} : ∀ {k : Nat},
    lastOccurrence d w0 i j k = some p →
      w0 ≤ p ∧ p < w0 + k ∧ occurs d p i j = true ∧
        ∀ p', p < p' → p' < w0 + k → occurs d p' i j = false := by
  intro k
  induction k with
  | zero => intro h; cases h
  | succ k ih =>
    simp only [lastOccurrence]
    split
    · rename_i ho
      intro h
      injection h with h
      subst h
      exact ⟨by omega, by omega, ho, fun p' h1 h2 => absurd h2 (by omega)⟩
    · rename_i ho
      intro h
      obtain ⟨h1, h2, h3, h4⟩ := ih h
      refine ⟨h1, by omega, h3, fun p' g1 g2 => ?_⟩
      by_cases he : p' = w0 + k
      · subst he; simpa using ho
      · exact h4 p' g1 (by omega)

/-! ### The loop over lengths (R102) -/

/-- The loop answers the best so far, or a length from the range it tries together with the closest
occurrence of it; and the next length, if it was in range, does not occur. -/
theorem grow_spec (d : List Byte) (w0 i : Nat) : ∀ (r j : Nat) (best : Nat × Nat),
    (grow d w0 i r j best = best ∧ (0 < r → lastOccurrence d w0 i j (candidates w0 i j) = none)) ∨
    ∃ len p, grow d w0 i r j best = (len, i - p) ∧ j ≤ len ∧ len < j + r ∧
      lastOccurrence d w0 i len (candidates w0 i len) = some p ∧
      (len + 1 < j + r →
        lastOccurrence d w0 i (len + 1) (candidates w0 i (len + 1)) = none) := by
  intro r
  induction r with
  | zero => intro j best; exact .inl ⟨rfl, fun h => absurd h (by omega)⟩
  | succ r ih =>
    intro j best
    simp only [grow]
    cases h : lastOccurrence d w0 i j (candidates w0 i j) with
    | none => exact .inl ⟨rfl, fun _ => rfl⟩
    | some p =>
      right
      rcases ih (j + 1) (j, i - p) with ⟨h1, h2⟩ | ⟨len, p', h1, h2, h3, h4, h5⟩
      · exact ⟨j, p, h1, by omega, by omega, h, fun hl => h2 (by omega)⟩
      · exact ⟨len, p', h1, by omega, by omega, h4, fun hl => h5 (by omega)⟩

/-! ### One pass of the tokenizer (R111, R112) -/

/-- A pass accepts a match longer than `c`, flushes a full run, or takes one byte into the run. -/
theorem tokPass_cases (d : List Byte) (c : Nat) (l : BitLayout) (r : TokRegs) :
    (c < (findmatch d r.icur l).1 ∧ tokPass d c l r =
      ⟨r.icur + (findmatch d r.icur l).1, 0, flushRun d r.icur r.run r.toks ++
        [.copy (findmatch d r.icur l).2 (findmatch d r.icur l).1]⟩) ∨
    ((findmatch d r.icur l).1 ≤ c ∧ r.run + 1 = l.maxLiteralRun ∧ tokPass d c l r =
      ⟨r.icur + 1, 0, r.toks ++ [.lit (sliceOf d (r.icur - r.run) (r.run + 1))]⟩) ∨
    ((findmatch d r.icur l).1 ≤ c ∧ r.run + 1 ≠ l.maxLiteralRun ∧ tokPass d c l r =
      ⟨r.icur + 1, r.run + 1, r.toks⟩) := by
  unfold tokPass
  generalize findmatch d r.icur l = m
  obtain ⟨len, dist⟩ := m
  by_cases h1 : c < len
  · exact .inl ⟨h1, by simp [h1]⟩
  · by_cases h2 : r.run + 1 = l.maxLiteralRun
    · refine .inr (.inl ⟨by omega, h2, ?_⟩)
      have h3 : r.icur + 1 - (r.run + 1) = r.icur - r.run := by omega
      simp only [h1, h2, ↓reduceIte, flushRun]
      rw [← h2, h3]; simp
    · exact .inr (.inr ⟨by omega, h2, by simp [h1, h2]⟩)

/-- A property of the tokenizer's registers that one pass keeps holds when the loop has ended, and then
ICUR is at the end of the input or the passes were too few. -/
theorem tokLoop_invariant {P : TokRegs → Prop} {d : List Byte} {c : Nat} {l : BitLayout}
    (hP : ∀ r, P r → r.icur < d.length → P (tokPass d c l r)) :
    ∀ (k : Nat) (r : TokRegs), P r → P (tokLoop d c l k r) := by
  intro k
  induction k with
  | zero => intro r h; exact h
  | succ k ih =>
    intro r h
    simp only [tokLoop]
    split
    · exact ih _ (hP r h ‹_›)
    · exact h

/-- Every pass advances ICUR. -/
theorem tokPass_advances (d : List Byte) (c : Nat) (l : BitLayout) (r : TokRegs) :
    r.icur < (tokPass d c l r).icur := by
  rcases tokPass_cases d c l r with ⟨h, e⟩ | ⟨_, _, e⟩ | ⟨_, _, e⟩ <;> rw [e] <;> dsimp only <;> omega

/-- As many passes as there are bytes left consume the input. -/
theorem tokLoop_consumes (d : List Byte) (c : Nat) (l : BitLayout) : ∀ (k : Nat) (r : TokRegs),
    d.length ≤ r.icur + k → d.length ≤ (tokLoop d c l k r).icur := by
  intro k
  induction k with
  | zero => intro r h; simpa [tokLoop] using h
  | succ k ih =>
    intro r h
    simp only [tokLoop]
    split
    · have := tokPass_advances d c l r
      exact ih _ (by omega)
    · omega

end Sys2Proof.Machine
end

