-- ==== Sys2Proof/Laws/HostPort.lean ====
section
/-! SUPPORT. What each move of the host can do. -/

namespace Sys2Proof.Machine

/-- A write of an operand: the write, or no move while BUSY. -/
theorem hostWrite_cases (s t : State) :
    (s.status ≠ .busy ∧ hostWrite s t = .next t) ∨
    (s.status = .busy ∧ hostWrite s t = .fault .hostNoMove) := by
  unfold hostWrite hostMayWrite
  by_cases h : s.status = .busy
  · exact .inr ⟨h, by simp [h]⟩
  · exact .inl ⟨h, by simp [h]⟩

/-- Everything `settleRequest` can do: a written request register keeps its value, and nothing but the request
registers and the model's record of them changes. -/
theorem settleRequest_cases (s : State) :
    (s.written.cArg = true → (settleRequest s).cArg = s.cArg) ∧
    (s.written.extArg = true → (settleRequest s).extArg = s.extArg) ∧
    (s.written.posArg = true → (settleRequest s).posArg = s.posArg) ∧
    settleRequest s = { s with
      cArg := (settleRequest s).cArg, extArg := (settleRequest s).extArg
      posArg := (settleRequest s).posArg, written := ⟨true, true, true⟩, freeCtr := s.freeCtr + 1 } :=
  ⟨fun h => by simp [settleRequest, h], fun h => by simp [settleRequest, h],
    fun h => by simp [settleRequest, h], rfl⟩

/-- When FINDMATCH is refused (R100): a width in `1..15`, and the cursor beyond the input. -/
theorem cursorBeyond_iff (s : State) :
    cursorBeyond s = true ↔ (1 ≤ s.cArg ∧ s.cArg ≤ 15) ∧ s.ilen < s.posArg := by
  unfold cursorBeyond widthOperand
  by_cases h : 1 ≤ s.cArg ∧ s.cArg ≤ 15 <;> simp [h]

/-- Everything a start can do (R199, R201, R74, R100): nothing while BUSY, a refusal, or the start. -/
theorem hostStart_cases (op : BitVec 4) (fine : Bool) (s : State) :
    (s.status = .busy ∧ hostStart op fine s = .next s) ∨
    (s.status ≠ .busy ∧ (op = 0#4 ∨ 9 < op.toNat) ∧
      hostStart op fine s = .refused (.reservedOp op)) ∨
    (s.status ≠ .busy ∧ op = 2#4 ∧ cursorBeyond (settleRequest s) = true ∧
      hostStart op fine s = .refused .posBeyondInput) ∨
    (s.status ≠ .busy ∧ op ≠ 0#4 ∧ op.toNat ≤ 9 ∧
      (op = 2#4 → cursorBeyond (settleRequest s) = false) ∧
      hostStart op fine s = .next (started op fine s)) := by
  unfold hostStart
  by_cases hb : s.status = .busy
  · exact .inl ⟨hb, by simp [hb]⟩
  · by_cases hr : op = 0#4 ∨ 9 < op.toNat
    · exact .inr (.inl ⟨hb, hr, by simp only [hb, hr, ↓reduceIte]⟩)
    · obtain ⟨h0, h9⟩ := not_or.1 hr
      by_cases hc : op = 2#4 ∧ cursorBeyond (settleRequest s) = true
      · exact .inr (.inr (.inl ⟨hb, hc.1, hc.2, by
          simp only [hb, hc.1, hc.2, and_self, ↓reduceIte]; simp⟩))
      · refine .inr (.inr (.inr ⟨hb, h0, by omega, fun h => ?_, ?_⟩))
        · simpa [h] using hc
        · simp only [hb, hr, hc, ↓reduceIte, commit_eq]

/-- Everything a read can do: the answer, or no move, and the latter only while BUSY (R199, R200). -/
theorem hostRead_cases (r : ReadReg) (s : State) :
    ((r = .status ∨ s.status ≠ .busy) ∧
      hostRead r s = .next { s with hostSaw := some (readValue s r) }) ∨
    (r ≠ .status ∧ s.status = .busy ∧ hostRead r s = .fault .hostNoMove) := by
  unfold hostRead
  by_cases hb : s.status = .busy
  · by_cases hr : r = .status
    · exact .inl ⟨.inl hr, by simp [hr, hostMayRead]⟩
    · exact .inr ⟨hr, hb, by cases r <;> simp_all [hostMayRead]⟩
  · exact .inl ⟨.inr hb, by cases r <;> simp [hostMayRead, hb]⟩

/-- A read answers the value where it is specified. -/
@[simp] theorem readAs_true (v : HostValue) : readAs true v = v := rfl

/-- A read answers "unspecified" where the value is not specified. -/
@[simp] theorem readAs_false (v : HostValue) : readAs false v = .unspecified := rfl

end Sys2Proof.Machine
end

