-- ==== Sys2Proof/Laws/PerInstr.lean ====
section
/-! SUPPORT. The statements made for each instruction: how many bytes an instruction's encoding has. -/

namespace Sys2Proof.Laws

/-- How many bytes the mode an instruction is read in takes: one for an operation code (R74), two for
the header (R60), `C` for a control field (R62). -/
def modeBytes : Mode → Nat
  | .host => 1
  | .header => 2
  | .field c => c

/-- The encoding of an instruction has as many bytes as its mode takes. -/
def EncodedSize.Statement (i : Instr) : Prop := (encode i).length = modeBytes i.mode

theorem EncodedSize.hdr (c e : BitVec 4) : EncodedSize.Statement (.hdr c e) := rfl

theorem EncodedSize.litC1 (len : BitVec 7) : EncodedSize.Statement (.litC1 len) :=
  be_length 1 _

theorem EncodedSize.litC2 (len : BitVec 15) : EncodedSize.Statement (.litC2 len) :=
  be_length 2 _

theorem EncodedSize.litC3 (len : BitVec 23) : EncodedSize.Statement (.litC3 len) :=
  be_length 3 _

theorem EncodedSize.litC4 (len : BitVec 31) : EncodedSize.Statement (.litC4 len) :=
  be_length 4 _

theorem EncodedSize.litC5 (len : BitVec 39) : EncodedSize.Statement (.litC5 len) :=
  be_length 5 _

theorem EncodedSize.litC6 (len : BitVec 47) : EncodedSize.Statement (.litC6 len) :=
  be_length 6 _

theorem EncodedSize.litC7 (len : BitVec 55) : EncodedSize.Statement (.litC7 len) :=
  be_length 7 _

theorem EncodedSize.litC8 (len : BitVec 63) : EncodedSize.Statement (.litC8 len) :=
  be_length 8 _

theorem EncodedSize.litC9 (len : BitVec 71) : EncodedSize.Statement (.litC9 len) :=
  be_length 9 _

theorem EncodedSize.litC10 (len : BitVec 79) : EncodedSize.Statement (.litC10 len) :=
  be_length 10 _

theorem EncodedSize.litC11 (len : BitVec 87) : EncodedSize.Statement (.litC11 len) :=
  be_length 11 _

theorem EncodedSize.litC12 (len : BitVec 95) : EncodedSize.Statement (.litC12 len) :=
  be_length 12 _

theorem EncodedSize.litC13 (len : BitVec 103) : EncodedSize.Statement (.litC13 len) :=
  be_length 13 _

theorem EncodedSize.litC14 (len : BitVec 111) : EncodedSize.Statement (.litC14 len) :=
  be_length 14 _

theorem EncodedSize.litC15 (len : BitVec 119) : EncodedSize.Statement (.litC15 len) :=
  be_length 15 _

theorem EncodedSize.matchC1 (len : BitVec 3) (dist : BitVec 4) :
    EncodedSize.Statement (.matchC1 len dist) := be_length 1 _

theorem EncodedSize.matchC2 (len : BitVec 5) (dist : BitVec 10) :
    EncodedSize.Statement (.matchC2 len dist) := be_length 2 _

theorem EncodedSize.matchC3 (len : BitVec 7) (dist : BitVec 16) :
    EncodedSize.Statement (.matchC3 len dist) := be_length 3 _

theorem EncodedSize.matchC4 (len : BitVec 10) (dist : BitVec 21) :
    EncodedSize.Statement (.matchC4 len dist) := be_length 4 _

theorem EncodedSize.matchC5 (len : BitVec 13) (dist : BitVec 26) :
    EncodedSize.Statement (.matchC5 len dist) := be_length 5 _

theorem EncodedSize.matchC6 (len : BitVec 15) (dist : BitVec 32) :
    EncodedSize.Statement (.matchC6 len dist) := be_length 6 _

theorem EncodedSize.matchC7 (len : BitVec 18) (dist : BitVec 37) :
    EncodedSize.Statement (.matchC7 len dist) := be_length 7 _

theorem EncodedSize.matchC8 (len : BitVec 21) (dist : BitVec 42) :
    EncodedSize.Statement (.matchC8 len dist) := be_length 8 _

theorem EncodedSize.matchC9 (len : BitVec 23) (dist : BitVec 48) :
    EncodedSize.Statement (.matchC9 len dist) := be_length 9 _

theorem EncodedSize.matchC10 (len : BitVec 26) (dist : BitVec 53) :
    EncodedSize.Statement (.matchC10 len dist) := be_length 10 _

theorem EncodedSize.matchC11 (len : BitVec 29) (dist : BitVec 58) :
    EncodedSize.Statement (.matchC11 len dist) := be_length 11 _

theorem EncodedSize.matchC12 (len : BitVec 31) (dist : BitVec 64) :
    EncodedSize.Statement (.matchC12 len dist) := be_length 12 _

theorem EncodedSize.matchC13 (len : BitVec 34) (dist : BitVec 69) :
    EncodedSize.Statement (.matchC13 len dist) := be_length 13 _

theorem EncodedSize.matchC14 (len : BitVec 37) (dist : BitVec 74) :
    EncodedSize.Statement (.matchC14 len dist) := be_length 14 _

theorem EncodedSize.matchC15 (len : BitVec 39) (dist : BitVec 80) :
    EncodedSize.Statement (.matchC15 len dist) := be_length 15 _

theorem EncodedSize.layout : EncodedSize.Statement .layout := rfl

theorem EncodedSize.findmatch : EncodedSize.Statement .findmatch := rfl

theorem EncodedSize.tokenize : EncodedSize.Statement .tokenize := rfl

theorem EncodedSize.genhdr : EncodedSize.Statement .genhdr := rfl

theorem EncodedSize.parsehdr : EncodedSize.Statement .parsehdr := rfl

theorem EncodedSize.hdrchk : EncodedSize.Statement .hdrchk := rfl

theorem EncodedSize.encode : EncodedSize.Statement .encode := rfl

theorem EncodedSize.compress : EncodedSize.Statement .compress := rfl

theorem EncodedSize.decompress : EncodedSize.Statement .decompress := rfl

end Sys2Proof.Laws
end

