-- ==== Sys2Proof/Laws/Step.lean ====
section
/-! SUPPORT. What a step is, turn by turn, and the first step of a run. -/

namespace Sys2Proof.Machine

/-- The host's turn: its move, the turn taken off the schedule. -/
theorem step_host {s : State} {m : HostMove} {rest : List Turn} (h : s.schedule = .host m :: rest) :
    step s = hostMove m { s with schedule := rest } := by
  simp only [step, fetch, h]

/-- With no schedule, a running DECOMPRESS takes one tick. -/
theorem step_stream {s : State} (hs : s.schedule = []) (hb : s.status = .busy)
    (hp : s.startPending = false) : step s = decoderTick s := by
  rw [← fetchStream_eq_tick]
  simp only [step, fetch, engineTurn, hs, hb, hp]
  rfl

/-- With no schedule and no operation running, a step changes nothing. -/
theorem step_idle {s : State} (hs : s.schedule = []) (hb : s.status ≠ .busy) : step s = .next s := by
  simp only [step, fetch, hs, engineTurn]

theorem run_next {s t : State} (h : step s = .next t) (k : Nat) :
    Host.Core.run Sys2Proof.core (k + 1) s = Host.Core.run Sys2Proof.core k t := by
  have h' : Sys2Proof.core.step s = .next t := h
  simp only [Host.Core.run, h']

end Sys2Proof.Machine
end

