-- ==== Sys2Proof/Tests/Slice0.lean ====
section
/-! SUPPORT. Tests: words written out from the spec's encodings, examples of 95_test_vectors.md, and for
each statement with hypotheses a state that meets them. -/

namespace Sys2Proof.Tests

open Sys2Proof.Machine Sys2Proof.Machine.Claims

/-! ### Well-formedness -/

/-- R61: a header with width 0 is refused; one with width 15 is not. -/
theorem test_wellFormed_hdr : (Instr.hdr 0 5).wellFormed = false ∧ (Instr.hdr 15 0).wellFormed = true := by
  decide

/-! ### Decoding: one word for each row, bit positions from the table of R66 -/

/-- R60, vector H9. -/
theorem test_decode_hdr : decode .header [0xC7, 0x1F, 0x01] = .ok (.hdr 1 15, [0x01]) := by decide

theorem test_decode_litC1 :
    decode (.field 1) [0x41] =
      .ok (.litC1 0x41, []) := by decide

theorem test_decode_litC2 :
    decode (.field 2) [0x40, 0x01] =
      .ok (.litC2 0x4001, []) := by decide

theorem test_decode_litC3 :
    decode (.field 3) [0x40, 0x00, 0x01] =
      .ok (.litC3 0x400001, []) := by decide

theorem test_decode_litC4 :
    decode (.field 4) [0x40, 0x00, 0x00, 0x01] =
      .ok (.litC4 0x40000001, []) := by decide

theorem test_decode_litC5 :
    decode (.field 5) [0x40, 0x00, 0x00, 0x00, 0x01] =
      .ok (.litC5 0x4000000001, []) := by decide

theorem test_decode_litC6 :
    decode (.field 6) [0x40, 0x00, 0x00, 0x00, 0x00, 0x01] =
      .ok (.litC6 0x400000000001, []) := by decide

theorem test_decode_litC7 :
    decode (.field 7) [0x40, 0x00, 0x00, 0x00, 0x00, 0x00, 0x01] =
      .ok (.litC7 0x40000000000001, []) := by decide

theorem test_decode_litC8 :
    decode (.field 8) [0x40, 0x00, 0x00, 0x00, 0x00, 0x00, 0x00, 0x01] =
      .ok (.litC8 0x4000000000000001, []) := by decide

theorem test_decode_litC9 :
    decode (.field 9) [0x40, 0x00, 0x00, 0x00, 0x00, 0x00, 0x00, 0x00, 0x01] =
      .ok (.litC9 0x400000000000000001, []) := by decide

theorem test_decode_litC10 :
    decode (.field 10) [0x40, 0x00, 0x00, 0x00, 0x00, 0x00, 0x00, 0x00, 0x00, 0x01] =
      .ok (.litC10 0x40000000000000000001, []) := by decide

theorem test_decode_litC11 :
    decode (.field 11) [0x40, 0x00, 0x00, 0x00, 0x00, 0x00, 0x00, 0x00, 0x00, 0x00, 0x01] =
      .ok (.litC11 0x4000000000000000000001, []) := by decide

theorem test_decode_litC12 :
    decode (.field 12) [0x40, 0x00, 0x00, 0x00, 0x00, 0x00, 0x00, 0x00, 0x00, 0x00, 0x00, 0x01] =
      .ok (.litC12 0x400000000000000000000001, []) := by decide

theorem test_decode_litC13 :
    decode (.field 13) [0x40, 0x00, 0x00, 0x00, 0x00, 0x00, 0x00, 0x00, 0x00, 0x00, 0x00, 0x00, 0x01] =
      .ok (.litC13 0x40000000000000000000000001, []) := by decide

theorem test_decode_litC14 :
    decode (.field 14) [0x40, 0x00, 0x00, 0x00, 0x00, 0x00, 0x00, 0x00, 0x00, 0x00, 0x00, 0x00, 0x00, 0x01] =
      .ok (.litC14 0x4000000000000000000000000001, []) := by decide

theorem test_decode_litC15 :
    decode (.field 15) [0x40, 0x00, 0x00, 0x00, 0x00, 0x00, 0x00, 0x00, 0x00, 0x00, 0x00, 0x00, 0x00, 0x00, 0x01] =
      .ok (.litC15 0x400000000000000000000000000001, []) := by decide

theorem test_decode_matchC1 :
    decode (.field 1) [0xDA] =
      .ok (.matchC1 0x5 0xA, []) := by decide

theorem test_decode_matchC2 :
    decode (.field 2) [0xC6, 0x02] =
      .ok (.matchC2 0x11 0x202, []) := by decide

theorem test_decode_matchC3 :
    decode (.field 3) [0xC1, 0x80, 0x02] =
      .ok (.matchC3 0x41 0x8002, []) := by decide

theorem test_decode_matchC4 :
    decode (.field 4) [0xC0, 0x30, 0x00, 0x02] =
      .ok (.matchC4 0x201 0x100002, []) := by decide

theorem test_decode_matchC5 :
    decode (.field 5) [0xC0, 0x06, 0x00, 0x00, 0x02] =
      .ok (.matchC5 0x1001 0x2000002, []) := by decide

theorem test_decode_matchC6 :
    decode (.field 6) [0xC0, 0x01, 0x80, 0x00, 0x00, 0x02] =
      .ok (.matchC6 0x4001 0x80000002, []) := by decide

theorem test_decode_matchC7 :
    decode (.field 7) [0xC0, 0x00, 0x30, 0x00, 0x00, 0x00, 0x02] =
      .ok (.matchC7 0x20001 0x1000000002, []) := by decide

theorem test_decode_matchC8 :
    decode (.field 8) [0xC0, 0x00, 0x06, 0x00, 0x00, 0x00, 0x00, 0x02] =
      .ok (.matchC8 0x100001 0x20000000002, []) := by decide

theorem test_decode_matchC9 :
    decode (.field 9) [0xC0, 0x00, 0x01, 0x80, 0x00, 0x00, 0x00, 0x00, 0x02] =
      .ok (.matchC9 0x400001 0x800000000002, []) := by decide

theorem test_decode_matchC10 :
    decode (.field 10) [0xC0, 0x00, 0x00, 0x30, 0x00, 0x00, 0x00, 0x00, 0x00, 0x02] =
      .ok (.matchC10 0x2000001 0x10000000000002, []) := by decide

theorem test_decode_matchC11 :
    decode (.field 11) [0xC0, 0x00, 0x00, 0x06, 0x00, 0x00, 0x00, 0x00, 0x00, 0x00, 0x02] =
      .ok (.matchC11 0x10000001 0x200000000000002, []) := by decide

theorem test_decode_matchC12 :
    decode (.field 12) [0xC0, 0x00, 0x00, 0x01, 0x80, 0x00, 0x00, 0x00, 0x00, 0x00, 0x00, 0x02] =
      .ok (.matchC12 0x40000001 0x8000000000000002, []) := by decide

theorem test_decode_matchC13 :
    decode (.field 13) [0xC0, 0x00, 0x00, 0x00, 0x30, 0x00, 0x00, 0x00, 0x00, 0x00, 0x00, 0x00, 0x02] =
      .ok (.matchC13 0x200000001 0x100000000000000002, []) := by decide

theorem test_decode_matchC14 :
    decode (.field 14) [0xC0, 0x00, 0x00, 0x00, 0x06, 0x00, 0x00, 0x00, 0x00, 0x00, 0x00, 0x00, 0x00, 0x02] =
      .ok (.matchC14 0x1000000001 0x2000000000000000002, []) := by decide

theorem test_decode_matchC15 :
    decode (.field 15) [0xC0, 0x00, 0x00, 0x00, 0x01, 0x80, 0x00, 0x00, 0x00, 0x00, 0x00, 0x00, 0x00, 0x00, 0x02] =
      .ok (.matchC15 0x4000000001 0x80000000000000000002, []) := by decide

theorem test_decode_layout : decode .host [0x1] = .ok (.layout, []) := by decide

theorem test_decode_findmatch : decode .host [0x2] = .ok (.findmatch, []) := by decide

theorem test_decode_tokenize : decode .host [0x3] = .ok (.tokenize, []) := by decide

theorem test_decode_genhdr : decode .host [0x4] = .ok (.genhdr, []) := by decide

theorem test_decode_parsehdr : decode .host [0x5] = .ok (.parsehdr, []) := by decide

theorem test_decode_hdrchk : decode .host [0x6] = .ok (.hdrchk, []) := by decide

theorem test_decode_encode : decode .host [0x7] = .ok (.encode, []) := by decide

theorem test_decode_compress : decode .host [0x8] = .ok (.compress, []) := by decide

theorem test_decode_decompress : decode .host [0x9] = .ok (.decompress, []) := by decide

/-- R143, R68, R74: what is rejected, by name. -/
theorem test_decode_rejects : decode (.field 2) [0x00] = .error .cfTrunc ∧
    decode .header [0xC7] = .error .hdrShort ∧ decode .header [0xC6, 0x10] = .error .badMagic ∧
    decode .host [0xA] = .error (.reservedOp 10) ∧ decode .host [0x0] = .error (.reservedOp 0) ∧
    decode .host [] = .error .noOp ∧ decode (.field 0) [] = .error .noWidth := by decide

/-- The words of the opcode table: a `MATCH.C15`, a header, an operation code and a `LIT.C1`. -/
theorem test_tableWord : decodeTableWord 120 (2 ^ 119 + 2 ^ 80 + 1) = some (.matchC15 1 1) ∧
    decodeTableWord 16 0xC735 = some (.hdr 3 5) ∧ decodeTableWord 8 0x9 = some .decompress ∧
    decodeTableWord 8 0x41 = some (.litC1 0x41) := by decide

/-! ### One step each, on small states -/

/-- Whether an outcome is a given fault. -/
def faultIs (o : Host.Outcome State Fault Refusal) (r : Fault) : Bool :=
  match o with
  | .fault r' => r' == r
  | _ => false

/-- The step is refused by the name `r`. -/
def refusalIs (o : Out) (r : Refusal) : Bool :=
  match o with
  | .refused r' => r' == r
  | _ => false

/-- What a next state is asked; a fault or a refusal fails the question. -/
def nextIs (o : Out) (p : State → Bool) : Bool :=
  match o with
  | .next t => p t
  | _ => false

/-- The error record a next state holds, as (class, cause, position), with OLEN. -/
def errIs (o : Out) (cls cause pos : Nat) : Bool :=
  nextIs o fun t => t.status == .error && t.errClass.toNat == cls && t.errCause.toNat == cause &&
    t.errPos == pos && t.olen == 0

/-- Reset, then IN and C_ARG written. -/
def loaded (bs : List Byte) (c : Nat) : State :=
  { State.reset with inp := Memory.ofBytes bs, cArg := c }

/-- A DECOMPRESS in progress: IN, OUT so far, the width, ICUR. -/
def running (bs out : List Byte) (c : BitVec 4) (i : Nat) : State :=
  { State.reset with
    inp := Memory.ofBytes bs, out := Memory.ofBytes out, curC := c, icur := i, status := .busy }

/-- The bytes of `coolcoolcool`. -/
def cool3 : List Byte :=
  [0x63, 0x6F, 0x6F, 0x6C, 0x63, 0x6F, 0x6F, 0x6C, 0x63, 0x6F, 0x6F, 0x6C]

/-- R144, example: `02 41 42` appends `41 42`. -/
theorem test_litC1 : nextIs (step (running [0xC7, 0x10, 0x02, 0x41, 0x42] [] 1 2))
    (fun t => t.out.bytes == [0x41, 0x42] && t.icur == 5 && t.word == 2 && t.fLen == 2) = true := by
  decide

/-- Vector X18: `05` with no payload. -/
theorem test_litC1_truncated :
    errIs (step (running [0xC7, 0x10, 0x01, 0x41, 0x05] [0x41] 1 4)) 2 7 4 = true := by decide

/-- Program P1, step 1. -/
theorem test_litC2 : nextIs
    (step (running [0xC7, 0x20, 0x00, 0x04, 0x63, 0x6F, 0x6F, 0x6C, 0x90, 0x04] [] 2 2))
    (fun t => t.out.bytes == [0x63, 0x6F, 0x6F, 0x6C] && t.icur == 8) = true := by decide

/-- Vector X22: fifteen bytes of control field, then `41`. -/
theorem test_litC15 : nextIs (exec (.litC15 1)
    (running ([0xC7, 0xF0] ++ List.replicate 14 0x00 ++ [0x01, 0x41]) [] 15 2))
    (fun t => t.out.bytes == [0x41] && t.icur == 18) = true := by decide

/-- R146, example, and P2: `F1` repeats the one byte seven times. -/
theorem test_matchC1_overlap : nextIs (step (running [0xC7, 0x10, 0x01, 0x41, 0xF1] [0x41] 1 4))
    (fun t => t.out.bytes == List.replicate 8 0x41 && t.icur == 5 && t.cpRem == 0) = true := by decide

/-- R147, vector X7: distance 0 with something to copy. -/
theorem test_matchC1_unwritten :
    errIs (step (running [0xC7, 0x10, 0x01, 0x41, 0xF0] [0x41] 1 4)) 3 9 4 = true := by decide

/-- Program P1, step 3: `90 04` at 10 copies from index 4. -/
theorem test_matchC2 : nextIs (exec (.matchC2 4 4) (running [] (cool3.take 8) 2 10))
    (fun t => t.out.bytes == cool3 && t.icur == 12 && t.cpSrc == 8) = true := by decide

/-- Vector X15: a match as the first token. -/
theorem test_matchC2_before : errIs (step (running [0xC7, 0x20, 0x84, 0x01] [] 2 2)) 3 8 2 = true := by
  decide

/-- Vector X5: a partial control field. -/
theorem test_cfTrunc : errIs (step (running [0xC7, 0x20, 0x00] [] 2 2)) 2 6 2 = true := by decide

/-- R123, R140: the header of `C7 35`. -/
theorem test_hdr : nextIs (exec (.hdr 3 5) (running [0xC7, 0x35] [0x41] 0 0))
    (fun t => t.curC == 3 && t.curE == 5 && t.icur == 2 && t.olen == 0) = true := by decide

/-- Vector L2. -/
theorem test_layout : nextIs (exec .layout (loaded [] 2))
    (fun t => t.ly == ⟨16, 15, 15, 5, 10, 32767, 31, 1023, 1023, 31⟩ && t.status == .done) = true := by
  decide

/-- Vector L8. -/
theorem test_layout_range : errIs (exec .layout (loaded [] 16)) 1 1 0 = true := by decide

/-- Vector F14: the closest occurrence of the final length (`abcXabYabc`, cursor 7). -/
theorem test_findmatch : nextIs (exec .findmatch { loaded
    [0x61, 0x62, 0x63, 0x58, 0x61, 0x62, 0x59, 0x61, 0x62, 0x63] 1 with posArg := 7 })
    (fun t => t.resLen == 3 && t.resDist == 7) = true := by decide

/-- Vector F3: of two occurrences the closer wins. -/
theorem test_findmatch_closest : nextIs (exec .findmatch { loaded cool3 2 with posArg := 8 })
    (fun t => t.resLen == 4 && t.resDist == 4) = true := by decide

/-- Vector T1. -/
theorem test_tokenize : nextIs (exec .tokenize (loaded cool3 2))
    (fun t => t.tok == [.lit (cool3.take 4), .copy 4 4, .copy 4 4]) = true := by decide

/-- Vector T8: the threshold is strict. -/
theorem test_tokenize_threshold : nextIs (exec .tokenize (loaded cool3 4))
    (fun t => t.tok == [.lit cool3]) = true := by decide

/-- Vector H1. -/
theorem test_genhdr : nextIs (exec .genhdr (loaded [] 3))
    (fun t => t.out.bytes == [0xC7, 0x30] && t.resExt == 0) = true := by decide

/-- Vector H8. -/
theorem test_parsehdr : nextIs (exec .parsehdr (loaded [0xC7, 0x20, 0x00, 0x04, 0x63] 0))
    (fun t => t.resC == 2 && t.resExt == 0 && t.out.bytes == [0x00, 0x04, 0x63]) = true := by decide

/-- Vector H12: magic before width. -/
theorem test_parsehdr_magic : errIs (exec .parsehdr (loaded [0x00, 0x00, 0x49] 0)) 2 4 0 = true := by
  decide

/-- Vector H15: the width is not tested. -/
theorem test_hdrchk : nextIs (exec .hdrchk (loaded [0xC7, 0x00] 0)) (fun t => t.resFlag == 1) = true := by
  decide

/-- Vector H16. -/
theorem test_hdrchk_short : nextIs (exec .hdrchk (loaded [0xC7] 0)) (fun t => t.resFlag == 0) = true := by
  decide

/-- Vector E1. -/
theorem test_encode : nextIs (exec .encode { loaded [] 2 with
    tok := [.lit (cool3.take 4), .copy 4 4, .copy 4 4] })
    (fun t => t.out.bytes == [0x00, 0x04, 0x63, 0x6F, 0x6F, 0x6C, 0x90, 0x04, 0x90, 0x04]) = true := by
  decide

/-- Vector E18: the third token is too far; nothing is delivered. -/
theorem test_encode_range : errIs (exec .encode { loaded [] 2 with
    tok := [.lit [0x61], .copy 1 3, .copy 1024 2] }) 1 2 2 = true := by decide

/-- Vector K8. -/
theorem test_compress : nextIs (exec .compress (loaded (List.replicate 10 0x41) 1))
    (fun t => t.out.bytes == [0xC7, 0x10, 0x02, 0x41, 0x41, 0xA2, 0xC4, 0xA2]) = true := by decide

/-- Vector K4: empty input is the header alone. -/
theorem test_compress_empty : nextIs (exec .compress (loaded [] 3))
    (fun t => t.out.bytes == [0xC7, 0x30]) = true := by decide

/-- Vector X14. -/
theorem test_decompress : nextIs
    (exec .decompress (loaded [0xC7, 0x10, 0x03, 0x41, 0x42, 0x43, 0xB2, 0xA3] 0))
    (fun t => t.out.bytes == [0x41, 0x42, 0x43, 0x42, 0x43, 0x42, 0x42, 0x43] && t.status == .done &&
      t.resC == 1) = true := by decide

/-- Vector X36: the first defect in stream order is reported. -/
theorem test_decompress_first_defect :
    errIs (exec .decompress (loaded [0xC7, 0x10, 0x01, 0x41, 0xA2, 0x05] 0)) 3 8 4 = true := by decide

/-! ### Placing a word: `step` runs it right after reset -/

theorem test_withFetchWord_host :
    nextIs (step (State.reset.withFetchWord 8 0x6)) (fun t => t.status == .done) = true := by decide

theorem test_withFetchWord_lit : nextIs (step (State.reset.withFetchWord 24 0x000002))
    (fun t => t.icur == 7 && t.out.bytes == [0x00, 0x00]) = true := by decide

/-- R74: a reserved 4-bit code is no instruction; the code 9 is DECOMPRESS. -/
theorem test_tableWord_reserved : decodeTableWord 4 0xA = none ∧ decodeTableWord 4 0x0 = none ∧
    decodeTableWord 4 0x9 = some .decompress := by decide

/-! ### The hypotheses of the statements can be met -/

/-- A stream in progress at `01 41`, the engine to move after one scheduled turn. -/
def mid : State := { running [0xC7, 0x10, 0x01, 0x41] [] 1 2 with schedule := [.engine] }

/-- Reset with one host move to come, in a given STATUS. -/
def hostTo (m : HostMove) (st : Status) : State :=
  { State.reset with schedule := [.host m], status := st }

/-- A start of FINDMATCH on an empty IN, its operands written. -/
def startFindmatch (c pos : Nat) : State :=
  { hostTo (.start 2 false) .idle with
    cArg := c, posArg := pos, written := { cArg := true, posArg := true } }

theorem witness_StepKeepsInvariant : Inv mid ∧ ∃ t, step mid = .next t :=
  ⟨⟨by decide, by decide, .inl ⟨rfl, rfl, rfl⟩, fun h => absurd h (by decide), fun _ _ _ => by decide⟩, _, rfl⟩

theorem witness_StepRunsDecodedInstruction_field :
    EngineTurn mid { mid with schedule := [] } ∧ mid.status = .busy ∧ mid.startPending = false ∧
    mid.dstate ≠ .readingHeader ∧ mid.icur < mid.ilen ∧
    decode (.field mid.curC.toNat) (mid.inp.bytes.drop mid.icur) = .ok (.litC1 1, [0x41]) :=
  ⟨.inr ⟨[], rfl, rfl⟩, by decide, by decide, by decide, by decide, by decide⟩

theorem witness_StepRunsDecodedInstruction_header :
    EngineTurn { mid with dstate := .readingHeader } { mid with dstate := .readingHeader, schedule := [] } ∧
    decode .header mid.inp.bytes = .ok (.hdr 1 0, [0x01, 0x41]) :=
  ⟨.inr ⟨[], rfl, rfl⟩, by decide⟩

theorem witness_StepRunsDecodedInstruction_host :
    EngineTurn { mid with startPending := true, op := 1 }
      { mid with startPending := true, op := 1, schedule := [] } ∧
    decode .host [(1#4).setWidth 8] = .ok (.layout, []) :=
  ⟨.inr ⟨[], rfl, rfl⟩, by decide⟩

theorem witness_IdleEngineWaits :
    EngineTurn { State.reset with cArg := 1 } { State.reset with cArg := 1 } ∧
    State.reset.status ≠ .busy := ⟨.inl ⟨rfl, rfl⟩, by decide⟩

/-- ICUR exactly at ILEN. -/
theorem witness_StreamEndsAtInputEnd :
    EngineTurn { mid with icur := 4 } { mid with icur := 4, schedule := [] } ∧ mid.ilen ≤ 4 ∧
    mid.status = .busy ∧ mid.startPending = false ∧ mid.dstate ≠ .readingHeader :=
  ⟨.inr ⟨[], rfl, rfl⟩, by decide, by decide, by decide, by decide⟩

/-- One byte short of a control field of width 3. -/
theorem witness_TruncatedControlFieldRaises :
    EngineTurn { mid with curC := 3 } { mid with curC := 3, schedule := [] } ∧ mid.icur < mid.ilen ∧
    mid.ilen - mid.icur < (3#4).toNat ∧ mid.status = .busy ∧ mid.startPending = false ∧
    mid.dstate ≠ .readingHeader :=
  ⟨.inr ⟨[], rfl, rfl⟩, by decide, by decide, by decide, by decide, by decide⟩

theorem witness_DecodeOfEncode : (Instr.hdr 15 15).wellFormed = true ∧ (Instr.litC1 127).wellFormed = true :=
  by decide

theorem witness_EncodeOfDecodedField : 1 ≤ 15 ∧ 15 ≤ 15 ∧ 15 ≤ (List.replicate 15 (0xFF : Byte)).length := by
  decide

theorem witness_HeaderDecodesByNibbles : (0xC6 : Byte) ≠ magic ∧ ([0xC7] : List Byte).length < 2 := by decide

/-- The nearest reserved codes, 0 and 10. -/
theorem witness_OperationCodes : (hostTo (.start 10 false) .idle).schedule = [.host (.start 10 false)] ∧
    (hostTo (.start 10 false) .idle).status ≠ .busy ∧ 10 ≤ (10#4).toNat ∧
    (hostTo (.start 0 false) .done).status ≠ .busy := by decide

/-- The widths 1, where the special split applies, and 15: LAYOUT, TOKENIZE, GENHDR, COMPRESS, the laws. -/
theorem witness_legalWidth : (1 ≤ (loaded cool3 1).cArg ∧ (loaded cool3 1).cArg ≤ 15) ∧
    (1 ≤ (loaded cool3 15).cArg ∧ (loaded cool3 15).cArg ≤ 15) ∧ (loaded cool3 15).cArg ≠ 1 ∧
    (loaded cool3 1).inp.bytes ≠ [] := by decide

theorem witness_WidthOutOfRangeRaises : (loaded [] 0).cArg = 0 ∧ 15 < (loaded [] 16).cArg := by decide

theorem witness_FindmatchCompletes : 1 ≤ (loaded cool3 1).cArg ∧ (loaded cool3 1).cArg ≤ 15 ∧
    ({ loaded cool3 1 with posArg := 12 } : State).posArg ≤ (loaded cool3 1).ilen := by decide

theorem witness_FindmatchLongestClosest : 1 ≤ 2 ∧ 2 ≤ 15 ∧ 8 ≤ cool3.length ∧
    findmatch cool3 8 (layout 2) = (4, 4) ∧ findmatch cool3 0 (layout 2) = (0, 0) := by decide

theorem witness_FindmatchRefusesBeyondInput :
    (loaded [0x41] 1).ilen < ({ loaded [0x41] 1 with posArg := 2 } : State).posArg := by decide

/-- A Literal is in the output, and so is a Match: both clauses of the shape have members. -/
theorem witness_TokenizeOutputShape : Token.lit (cool3.take 4) ∈ tokenize cool3 2 ∧
    Token.copy 4 4 ∈ tokenize cool3 2 := by decide

set_option maxRecDepth 20000 in
/-- Vector T19: two adjacent Literals, the first full. -/
theorem witness_TokenizeOutputShape_adjacent :
    tokenize ((List.range 128).map (BitVec.ofNat 8)) 1 =
      [.lit ((List.range 127).map (BitVec.ofNat 8)), .lit [127]] := by decide

theorem witness_TokenizeStartsWithLiteral : ([0x41] : List Byte) ≠ [] ∧ ([] : List Byte) = [] := by decide

theorem witness_ExtensionLookup : (∀ e, 1 ≤ e → e ≤ 15 → extTable e ≠ [0x41]) ∨
    ∃ e, 1 ≤ e ∧ e ≤ 15 ∧ extTable e = [0x41] := by
  by_cases h : ∃ e, 1 ≤ e ∧ e ≤ 15 ∧ extTable e = [0x41]
  · exact .inr h
  · exact .inl fun e h1 h2 h3 => h ⟨e, h1, h2, h3⟩

theorem witness_ParsehdrCompletes : (loaded [magic, 0xF0, 0x41] 0).inp.bytes = magic :: 0xF0 :: [0x41] ∧
    1 ≤ (0xF0 : Byte).toNat / 16 := by decide

/-- One header for each clause, the first also for a PARSEHDR started at the finer grain. -/
theorem witness_HeaderErrorsInOrder : (loaded [0xC7] 0).ilen < 2 ∧ ({ loaded [0xC7] 0 with fine := true } : State).ilen < 2 ∧
    (loaded [] 0).fine = false ∧
    2 ≤ (loaded [0x00, 0x00] 0).ilen ∧ (loaded [0x00, 0x00] 0).inp.bytes[0]? ≠ some magic ∧
    (loaded [magic, 0x0F] 0).inp.bytes[0]? = some magic ∧
    (loaded [magic, 0x0F] 0).inp.bytes[1]? = some 0x0F ∧ (0x0F : Byte).toNat / 16 = 0 := by decide

/-- The hypothesis on `u`: the host copies OUT to IN. -/
theorem witness_HeaderDeterminism : ∃ t, exec .genhdr (loaded [] 3) = .next t ∧
    (loaded [magic, 0x30] 0).inp.bytes = t.out.bytes := ⟨_, rfl, by decide⟩

theorem witness_HdrchkCompletes : 2 ≤ (loaded [magic, 0x00] 0).ilen ∧
    (loaded [magic, 0x00] 0).inp.bytes[0]? = some magic ∧ (loaded [magic] 0).ilen < 2 := by decide

theorem witness_HdrCompletes : (15#4) ≠ 0#4 := by decide

/-- At the capacities of width 1: a Match of distance 15 and length 7. -/
theorem witness_EncodeCompletes : ∀ tk ∈ [Token.copy 15 7, Token.lit [0x41]], FieldsFit 1 tk := by
  intro tk h
  simp only [List.mem_cons, List.not_mem_nil, or_false] at h
  rcases h with rfl | rfl <;> simp only [FieldsFit] <;> decide

/-- Just beyond them: a distance of 16. -/
theorem witness_EncodeRejectsFirstBadToken : [Token.lit [0x41], Token.copy 16 1][1]? = some (.copy 16 1) ∧
    ¬ FieldsFit 1 (.copy 16 1) ∧ FieldsFit 1 (.lit [0x41]) := by
  simp only [FieldsFit]; decide

/-- The payload ends exactly where IN ends, at both ends of the widths. -/
theorem witness_LitCompletes : mid.icur + 1 + (1#7).toNat ≤ mid.ilen ∧
    (running (List.replicate 18 0x00) [] 15 2).icur + 15 + (1#119).toNat ≤
      (running (List.replicate 18 0x00) [] 15 2).ilen := by decide

theorem witness_LitTruncatedRaises : mid.ilen - (mid.icur + 1) < (2#7).toNat := by decide

/-- Distance equal to OLEN; a no-op with distance 0. -/
theorem witness_MatchCompletes : (running [] [0x41] 1 4).out.wf ∧
    (1#4).toNat ≤ (running [] [0x41] 1 4).olen ∧ (1 ≤ (1#4).toNat ∨ (7#3).toNat = 0) ∧
    ((0#4).toNat ≤ (running [] [] 1 4).olen ∧ (0#3).toNat = 0) := by decide

theorem witness_MatchBeforeOutputRaises : (running [] [0x41] 1 4).olen < (2#4).toNat := by decide

theorem witness_MatchUnwrittenSourceRaises : (running [] [0x41] 1 4).out.wf ∧ (0#4).toNat = 0 ∧
    1 ≤ (1#3).toNat := by decide

/-- A no-op MATCH stands among the tokens, and their fields are at the capacities of width 1. -/
theorem witness_DecompressExpands :
    (loaded [0xC7, 0x10, 0x01, 0x41, 0x80, 0xF1] 0).inp.bytes =
      headerBytes 1 0 ++ encodeTokens 1 [.lit [0x41], .copy 0 0, .copy 1 7] ∧
    streamOutput [.lit [0x41], .copy 0 0, .copy 1 7] = some (List.replicate 8 0x41) ∧
    ∀ tk ∈ [Token.lit [0x41], Token.copy 0 0, Token.copy 1 7], FieldsHold 1 tk := by
  refine ⟨by decide, by decide, ?_⟩
  intro tk h
  simp only [List.mem_cons, List.not_mem_nil, or_false] at h
  rcases h with rfl | rfl | rfl <;> simp only [FieldsHold] <;> decide

/-- The two tokens, and a tail for each clause: one byte of two; one payload byte of two; distance one
beyond the output; distance 0 with length 1. -/
theorem witness_DecompressErrorPositions :
    (loaded [0xC7, 0x20, 0x00, 0x01, 0x41, 0x00] 0).inp.bytes =
      headerBytes 2 0 ++ encodeTokens 2 [.lit [0x41]] ++ [0x00] ∧
    (loaded [0xC7, 0x10, 0x01, 0x41, 0x02, 0x42] 0).inp.bytes =
      headerBytes 1 0 ++ encodeTokens 1 [.lit [0x41]] ++ (be 1 2 ++ [0x42]) ∧
    (loaded [0xC7, 0x10, 0x01, 0x41, 0x92] 0).inp.bytes =
      headerBytes 1 0 ++ encodeTokens 1 [.lit [0x41]] ++
        (be 1 (2 ^ (8 * 1 - 1) + 1 * 2 ^ distanceBits 1 + 2) ++ []) ∧
    (loaded [0xC7, 0x10, 0x01, 0x41, 0x90] 0).inp.bytes =
      headerBytes 1 0 ++ encodeTokens 1 [.lit [0x41]] ++
        (be 1 (2 ^ (8 * 1 - 1) + 1 * 2 ^ distanceBits 1 + 0) ++ []) ∧
    streamOutput [.lit [0x41]] = some [0x41] ∧ 2 + (encodeTokens 1 [.lit [0x41]]).length = 4 := by decide

/-- The four streams of the witness report their causes at the offset of the failing token. -/
theorem test_decompress_positions :
    errIs (exec .decompress (loaded [0xC7, 0x20, 0x00, 0x01, 0x41, 0x00] 0)) 2 6 5 = true ∧
    errIs (exec .decompress (loaded [0xC7, 0x10, 0x01, 0x41, 0x02, 0x42] 0)) 2 7 4 = true ∧
    errIs (exec .decompress (loaded [0xC7, 0x10, 0x01, 0x41, 0x92] 0)) 3 8 4 = true ∧
    errIs (exec .decompress (loaded [0xC7, 0x10, 0x01, 0x41, 0x90] 0)) 3 9 4 = true := by decide

theorem witness_SteppedEqualsWhole : ({ loaded [0xC7, 0x10, 0x01, 0x41] 0 with fine := true } : State).fine = true ∧
    ({ loaded [0xC7, 0x10, 0x01, 0x41] 0 with fine := true } : State).schedule = [] ∧
    ({ loaded [0xC7, 0x10, 0x01, 0x41] 0 with fine := true } : State).startPending = false := by decide

theorem witness_CompressDecompressRoundTrip : ∃ t, exec .compress (loaded [] 3) = .next t ∧
    (loaded [magic, 0x30] 0).inp.bytes = t.out.bytes ∧ (loaded [magic, 0x30] 0).fine = false :=
  ⟨_, rfl, by decide, by decide⟩

theorem witness_ErrorsByInstruction : ∃ t, exec .layout (loaded [] 0) = .next t ∧
    (loaded [] 0).status ≠ .error ∧ t.status = .error := ⟨_, rfl, by decide, by decide⟩

theorem witness_CompletionZeroesErrors : ∃ t, exec .hdrchk (loaded [] 0) = .next t ∧
    (loaded [] 0).status ≠ .done ∧ t.status = .done := ⟨_, rfl, by decide, by decide⟩

/-- Each excluded instruction aside, both conclusions have a case. -/
theorem witness_ExecKeepsOperands : ∃ t, exec .hdrchk (loaded [] 0) = .next t ∧
    Instr.hdrchk ≠ .tokenize ∧ Instr.hdrchk ≠ .layout ∧ t.status ≠ .error :=
  ⟨_, rfl, by decide, by decide, by decide⟩

/-- C_ARG, TOK and the working registers differ, none of them an operand of DECOMPRESS; ENCODE does not look
at IN. -/
theorem witness_ResultsDependOnOperandsOnly : Instr.decompress ∈ hostOps ∧ Instr.encode ∈ hostOps ∧
    OperandsAgree .decompress (loaded cool3 1)
      { loaded cool3 9 with tok := [.lit [0x41]], resC := 9, icur := 5 } ∧
    OperandsAgree .encode (loaded cool3 1) { loaded [] 1 with posArg := 7 } ∧
    (loaded cool3 1).fine = false := by
  unfold OperandsAgree readsOf; decide

theorem witness_SpecifiedAfterOperation : ∃ t u, mid.status = .busy ∧ exec .hdrchk mid = .next t ∧
    t.status = .done ∧ exec .layout mid = .next u ∧ u.status = .error :=
  ⟨_, _, by decide, rfl, by decide, rfl, by decide⟩

theorem witness_StartWhileBusyIgnored : (hostTo (.start 9 true) .busy).status = .busy ∧
    (hostTo (.start 9 true) .busy).schedule = [.host (.start 9 true)] := by decide

/-- The widest value the port carries; a start of LAYOUT; FINDMATCH with a cursor at the end of IN, one past
it, and past it with a width of 0. -/
theorem witness_HostRequestsOperation : (hostTo (.writeC 255) .done).status ≠ .busy ∧
    (255 : BitVec Config.cfgWidth).toNat = 255 ∧ Instr.layout ∈ hostOps ∧
    encode .layout = [(1#4).setWidth 8] ∧ Instr.findmatch ∈ hostOps ∧
    encode .findmatch = [(2#4).setWidth 8] ∧ (startFindmatch 1 0).written.posArg = true ∧
    ¬ ((1 ≤ (startFindmatch 1 0).cArg ∧ (startFindmatch 1 0).cArg ≤ 15) ∧
      (startFindmatch 1 0).ilen < (startFindmatch 1 0).posArg) ∧
    ((1 ≤ (startFindmatch 1 1).cArg ∧ (startFindmatch 1 1).cArg ≤ 15) ∧
      (startFindmatch 1 1).ilen < (startFindmatch 1 1).posArg) ∧
    ¬ (1 ≤ (startFindmatch 0 1).cArg) := by decide

/-- R100 and U12: a cursor beyond the input is refused at the start, unless the width, tested first, is
illegal. -/
theorem test_start_findmatch :
    refusalIs (step (startFindmatch 1 1)) .posBeyondInput = true ∧
    nextIs (step (startFindmatch 1 0)) (fun t => t.status == .busy && t.op == 2) = true ∧
    nextIs (step (startFindmatch 0 1)) (fun t => t.status == .busy && t.op == 2) = true := by decide

/-- R32 and U7: right after reset, with no operand written, LAYOUT is started all the same. -/
theorem test_start_unwritten :
    nextIs (step (hostTo (.start 1 false) .idle)) (fun t => t.status == .busy && t.op == 1) = true := by
  decide

/-- 95 P6: ENCODE is started on the TOK that a TOKENIZE left, with C_ARG as written. -/
theorem test_start_encode :
    nextIs (step { hostTo (.start 7 false) .done with
      cArg := 2, tok := [.copy 3 3], written := { cArg := true } })
      (fun t => t.status == .busy && t.op == 7 && t.cArg == 2 && t.tok == [.copy 3 3]) = true := by decide

theorem witness_ResetAbandonsOperation : (hostTo .reset .busy).schedule = [.host .reset] := by decide

/-- A specified and an unspecified register after DONE, OLEN after an operation that did not write it and
after an ERROR, TLEN after the ERROR of a TOKENIZE and of another operation, STATUS while BUSY. -/
theorem witness_HostReads :
    isSpecified { hostTo (.read .resLen) .done with valid := { resLen := true } } .resLen = true ∧
    isSpecified { hostTo (.read .olen) .done with valid := { ly := true } } .olen = false ∧
    isSpecified (hostTo (.read .olen) .idle) .olen = true ∧
    isSpecified { hostTo (.read .olen) .error with valid := {} } .olen = true ∧
    isSpecified { hostTo (.read .tlen) .error with valid := {}, op := 3 } .tlen = true ∧
    isSpecified { hostTo (.read .tlen) .error with valid := {}, op := 8 } .tlen = false ∧
    isSpecified (hostTo (.read .status) .busy) .status = true ∧
    (hostTo (.read .olen) .error).status ≠ .busy := by decide

/-- R32, U7 and R202: OLEN reads 0 after reset, unspecified after LAYOUT, 0 after an error. -/
theorem test_read_olen :
    nextIs (step (hostTo (.read .olen) .idle)) (fun t => t.hostSaw == some (.num 0)) = true ∧
    nextIs (step { hostTo (.read .olen) .done with valid := { ly := true } })
      (fun t => t.hostSaw == some .unspecified) = true ∧
    nextIs (step { hostTo (.read .olen) .error with valid := {} })
      (fun t => t.hostSaw == some (.num 0)) = true := by
  decide

/-- U8: the host that writes C_ARG, or reads OUT, while BUSY has no move. -/
theorem test_busy_no_move : faultIs (step (hostTo (.writeC 3) .busy)) .hostNoMove = true ∧
    faultIs (step (hostTo (.read .outBytes) .busy)) .hostNoMove = true := by decide

theorem witness_HostBlockedWhileBusy : (hostTo (.writeC 3) .busy).status = .busy ∧
    ReadReg.outBytes ≠ .status := by decide

end Sys2Proof.Tests
end

section
/-! The invariant is kept by every step: what a step can do, turn by turn, and that each thing it can do
ends in a state that meets `Inv`. -/

namespace Sys2Proof.Machine

open Sys2Proof.Machine.Claims

/-! ### What a step can do -/

/-- What a step makes of what its turn fetched. -/
def Fetch.outcome : Fetch → Out
  | .run i t => exec i t
  | .stop o => o

theorem step_eq_outcome (s : State) : step s = (fetch s).outcome := by
  unfold step
  cases fetch s <;> rfl

theorem step_engineTurn {s u : State} (h : EngineTurn s u) : step s = (engineTurn u).outcome := by
  rw [step_eq_outcome]
  obtain ⟨hs, rfl⟩ | ⟨rest, hs, rfl⟩ := h <;> simp only [fetch, hs]

theorem decodeOp_mem_hostOps {n : Nat} {i : Instr} (h : decodeOp n = .ok i) : i ∈ hostOps := by
  unfold decodeOp at h
  split at h <;> cases h <;> decide

/-- Everything a pending start can fetch (R74): a host operation, the start taken, or the refusal of a
reserved code. -/
theorem fetchOp_cases (s : State) :
    (∃ i ∈ hostOps, fetchOp s = .run i { s with startPending := false }) ∨
    fetchOp s = .stop (.refused (.reservedOp s.op)) := by
  unfold fetchOp
  simp only [decode]
  cases h : decodeOp (s.op.setWidth 8).toNat with
  | ok i => exact .inl ⟨i, decodeOp_mem_hostOps h, rfl⟩
  | error r => exact .inr rfl

/-- The next turn is the host's or the engine's. -/
theorem turn_cases (s : State) :
    (∃ m rest, s.schedule = .host m :: rest) ∨ ∃ u, EngineTurn s u :=
  match hs : s.schedule with
  | .host m :: rest => .inl ⟨m, rest, rfl⟩
  | .engine :: rest => .inr ⟨_, .inr ⟨rest, hs, rfl⟩⟩
  | [] => .inr ⟨s, .inl ⟨hs, rfl⟩⟩

/-- Everything a step can do on the engine's turn: nothing with no operation running, the operation of a
pending start or the refusal of its code, or one tick of a running DECOMPRESS. -/
theorem step_engineTurn_cases {s u : State} (hu : EngineTurn s u) :
    (u.status ≠ .busy ∧ step s = .next u) ∨
    (u.status = .busy ∧ u.startPending = true ∧
      ((∃ i ∈ hostOps, step s = exec i { u with startPending := false }) ∨
       step s = .refused (.reservedOp u.op))) ∨
    (u.status = .busy ∧ u.startPending = false ∧ step s = decoderTick u) := by
  rw [step_engineTurn hu, engineTurn]
  split
  next hb =>
    cases hp : u.startPending with
    | true =>
      refine .inr (.inl ⟨hb, rfl, ?_⟩)
      obtain ⟨i, hi, e⟩ | e := fetchOp_cases u
      · exact .inl ⟨i, hi, congrArg Fetch.outcome e⟩
      · exact .inr (congrArg Fetch.outcome e)
    | false => exact .inr (.inr ⟨hb, rfl, fetchStream_eq_tick u⟩)
  next hb => exact .inl ⟨hb, rfl⟩

/-! ### What a tick of the decoder can do -/

/-- Everything the header's tick can do (R124, R140 step 1): an error, or the header consumed, and then IN
holds its two bytes. -/
theorem headerTick_cases (s : State) :
    (∃ cause pos, headerTick s = .next (raise cause pos s)) ∨
    (2 ≤ s.ilen ∧ ∃ c e : BitVec 4, c ≠ 0#4 ∧ headerTick s = .next { s with
      curC := c
      curE := e
      out := Memory.empty
      icur := 2
      dstate := .readingControlField }) := by
  have hlen : s.inp.bytes.length = s.ilen := Memory.bytes_length _
  unfold headerTick
  split
  next m b rest hbytes =>
    split
    · exact .inl ⟨_, _, rfl⟩
    · obtain ⟨_, e⟩ | ⟨hc, e⟩ := execHdr_cases (b.extractLsb' 4 4) (b.extractLsb' 0 4) s
      · exact .inl ⟨_, _, e⟩
      · refine .inr ⟨?_, _, _, hc, e⟩
        rw [← hlen, hbytes]
        simp
  next => exact .inl ⟨_, _, rfl⟩

theorem decoderTick_readingHeader {s : State} (h : s.dstate = .readingHeader) :
    decoderTick s = headerTick s := by
  simp only [decoderTick, h]

theorem decoderTick_pastHeader {s : State} (h : s.dstate ≠ .readingHeader) :
    decoderTick s = if s.icur < s.ilen then tokenTick s else .next (finishDecompress s) := by
  simp only [decoderTick]

/-! ### The flags -/

theorem legalFlags_of_busy {s : State} (h : s.status = .busy) :
    LegalFlags s ↔ NoError s ∨ ∃ cause pos, ErrorRecord s cause pos := by
  simp only [LegalFlags, h]

theorem legalFlags_of_done {s : State} (h : s.status = .done) : LegalFlags s ↔ NoError s := by
  simp only [LegalFlags, h]

/-- Whatever STATUS is, legal error registers are as BUSY allows them. -/
theorem LegalFlags.noError_or_record {s : State} (h : LegalFlags s) :
    NoError s ∨ ∃ cause pos, ErrorRecord s cause pos := by
  unfold LegalFlags at h
  split at h
  next => exact .inl h
  next => exact .inl h
  next => exact .inr h
  next => exact h

/-! ### States that meet the invariant -/

/-- What the engine finds when no start is pending, or when it has taken one: the invariant without its clause
on the stream, whose registers an operation just started has not set. -/
def Taken (s : State) : Prop :=
  s.inp.wf ∧ s.out.wf ∧ LegalFlags s ∧ s.startPending = false

theorem Inv.taken {s : State} (h : Inv s) (hp : s.startPending = false) : Taken s :=
  let ⟨hin, hout, hflags, _, _⟩ := h
  ⟨hin, hout, hflags, hp⟩

/-- Taking the pending start. -/
theorem Inv.taken_start {s : State} (h : Inv s) : Taken { s with startPending := false } :=
  let ⟨hin, hout, hflags, _, _⟩ := h
  ⟨hin, hout, hflags, rfl⟩

theorem Taken.out_wf {s : State} (h : Taken s) : s.out.wf :=
  let ⟨_, hout, _, _⟩ := h
  hout

theorem Taken.inv {s : State} (h : Taken s) (hs : LegalStream s) : Inv s := by
  obtain ⟨hin, hout, hflags, hp⟩ := h
  exact ⟨hin, hout, hflags, fun hp' => by simp [hp] at hp', hs⟩

theorem Taken.inv_of_not_busy {s : State} (h : Taken s) (hb : s.status ≠ .busy) : Inv s :=
  h.inv fun hb' => absurd hb' hb

/-- With no operation running, no start is pending. -/
theorem Inv.taken_of_not_busy {s : State} (h : Inv s) (hb : s.status ≠ .busy) : Taken s := by
  have ⟨_, _, _, hstart, _⟩ := h
  refine h.taken (Bool.eq_false_iff.2 fun hp => ?_)
  exact hb (hstart hp).1

/-- The error entry of R180 ends in a state that meets the invariant. -/
theorem Taken.inv_raise {s : State} (h : Taken s) (cause : Cause) (pos : Nat) :
    Inv (raise cause pos s) := by
  obtain ⟨hin, _, _, hp⟩ := h
  have flags : LegalFlags (raise cause pos s) := ⟨cause, pos, rfl, rfl, rfl⟩
  exact Taken.inv_of_not_busy ⟨hin, Memory.wf_empty, flags, hp⟩ (by simp)

/-- So does a completed operation that leaves IN and the start latch, and OUT canonical. -/
theorem Taken.inv_done {s t : State} (h : Taken s) (hin : t.inp = s.inp) (hout : t.out.wf)
    (hp : t.startPending = s.startPending) (hs : t.status = .done) (he : NoError t) : Inv t := by
  obtain ⟨hin', _, _, hp'⟩ := h
  exact Taken.inv_of_not_busy ⟨hin ▸ hin', hout, (legalFlags_of_done hs).2 he, hp.trans hp'⟩ (by simp [hs])

/-- The next state, if `o` is one, meets the invariant. -/
def AnswersInv (o : Out) : Prop := ∀ t, o = .next t → Inv t

@[simp] theorem answersInv_next {t : State} : AnswersInv (.next t) ↔ Inv t :=
  ⟨fun h => h t rfl, fun h _ e => by cases e; exact h⟩

@[simp] theorem answersInv_refused (r : Refusal) : AnswersInv (.refused r) :=
  fun _ e => nomatch e

@[simp] theorem answersInv_fault (r : Fault) : AnswersInv (.fault r) :=
  fun _ e => nomatch e

/-! ### The stream decoder -/

/-- LIT and MATCH end in an error, or with the cursor at the end of what they consumed, within IN. -/
theorem runLit_answersInv {s : State} {c : Nat} (len : Nat) (h : Taken s) (hc : s.curC ≠ 0#4)
    (hfield : s.icur + c ≤ s.ilen) : AnswersInv (runLit c len s) := by
  have ⟨hin, hout, hflags, hp⟩ := h
  obtain ⟨_, e⟩ | ⟨hlen, e⟩ := runLit_cases c len s <;> rw [e, answersInv_next]
  · exact Taken.inv_raise (by exact h) _ _
  · exact Taken.inv ⟨hin, Memory.wf_appendAll _ hout, hflags, hp⟩
      fun _ _ _ => ⟨hc, (by omega : s.icur + c + len ≤ s.ilen)⟩

theorem runMatch_answersInv {s : State} {c : Nat} (len dist : Nat) (h : Taken s) (hc : s.curC ≠ 0#4)
    (hfield : s.icur + c ≤ s.ilen) : AnswersInv (runMatch c len dist s) := by
  have ⟨hin, hout, hflags, hp⟩ := h
  obtain ⟨_, e⟩ | ⟨_, _, e⟩ | ⟨_, _, e⟩ := runMatch_cases c len dist s <;> rw [e, answersInv_next]
  · exact Taken.inv_raise (by exact h) _ _
  · exact Taken.inv ⟨hin, Memory.wf_copyLoop _ _ hout, hflags, hp⟩ fun _ _ _ => ⟨hc, hfield⟩
  · exact Taken.inv_raise (by exact h) _ _

theorem tokenTick_answersInv {s : State} (h : Taken s) (hc : s.curC ≠ 0#4) (hlt : s.icur < s.ilen) :
    AnswersInv (tokenTick s) := by
  have hw : Taken (withWord s) := h
  obtain ⟨_, e⟩ | ⟨hfield, len, e⟩ | ⟨hfield, len, dist, e⟩ := tokenTick_cases hc <;> rw [e]
  · exact answersInv_next.2 (h.inv_raise _ _)
  · exact runLit_answersInv len hw hc (by show s.icur + _ ≤ s.ilen; omega)
  · exact runMatch_answersInv len dist hw hc (by show s.icur + _ ≤ s.ilen; omega)

theorem headerTick_answersInv {s : State} (h : Taken s) : AnswersInv (headerTick s) := by
  obtain ⟨cause, pos, e⟩ | ⟨hlen, c, code, hc, e⟩ := headerTick_cases s <;> rw [e, answersInv_next]
  · exact h.inv_raise cause pos
  · obtain ⟨hin, _, hflags, hp⟩ := h
    exact Taken.inv ⟨hin, Memory.wf_empty, hflags, hp⟩ fun _ _ _ => ⟨hc, hlen⟩

/-- One tick of a running DECOMPRESS keeps the invariant. -/
theorem decoderTick_answersInv {s : State} (h : Inv s) (hb : s.status = .busy)
    (hp : s.startPending = false) : AnswersInv (decoderTick s) := by
  have ht := h.taken hp
  obtain ⟨_, hout, _, _, hstream⟩ := h
  by_cases hd : s.dstate = .readingHeader
  · rw [decoderTick_readingHeader hd]
    exact headerTick_answersInv ht
  · rw [decoderTick_pastHeader hd]
    split
    next hlt => exact tokenTick_answersInv ht (hstream hb hp hd).1 hlt
    next => exact answersInv_next.2 (ht.inv_done rfl hout rfl rfl ⟨rfl, rfl, rfl⟩)

/-- Ticks in a row keep the invariant, however many there are. -/
theorem runDecoder_answersInv (k : Nat) :
    ∀ {s : State}, Inv s → s.startPending = false → AnswersInv (runDecoder k s) := by
  induction k with
  | zero => exact fun h _ => answersInv_next.2 h
  | succ k ih =>
    intro s h hp
    by_cases hb : s.status = .busy
    · obtain ⟨t, e, _, hp', _⟩ := decoderTick_frame s
      rw [runDecoder_next hb e]
      exact ih (decoderTick_answersInv h hb hp t e) (hp'.trans hp)
    · rw [runDecoder_ended hb, answersInv_next]
      exact h

theorem Taken.inv_beginDecompress {s : State} (h : Taken s) : Inv (beginDecompress s) := by
  obtain ⟨hin, hout, hflags, hp⟩ := h
  have flags : LegalFlags (beginDecompress s) := hflags.noError_or_record
  exact Taken.inv ⟨hin, hout, flags, hp⟩ fun _ _ hd => absurd rfl hd

/-! ### The nine host operations -/

section
variable {s : State} (h : Taken s)
include h

theorem execLayout_answersInv : AnswersInv (execLayout s) := by
  obtain ⟨_, e⟩ | ⟨_, _, e⟩ := execLayout_cases s <;> rw [e, answersInv_next]
  · exact h.inv_raise _ _
  · exact h.inv_done rfl h.out_wf rfl rfl ⟨rfl, rfl, rfl⟩

theorem execFindmatch_answersInv : AnswersInv (execFindmatch s) := by
  obtain ⟨_, e⟩ | ⟨_, _, _, e⟩ | ⟨_, _, _, e⟩ := execFindmatch_cases s <;> rw [e]
  · exact answersInv_next.2 (h.inv_raise _ _)
  · exact answersInv_refused _
  · exact answersInv_next.2 (h.inv_done rfl h.out_wf rfl rfl ⟨rfl, rfl, rfl⟩)

theorem execTokenize_answersInv : AnswersInv (execTokenize s) := by
  obtain ⟨_, e⟩ | ⟨_, _, e⟩ := execTokenize_cases s <;> rw [e, answersInv_next]
  · exact h.inv_raise .widthRange 0
  · exact h.inv_done rfl h.out_wf rfl rfl ⟨rfl, rfl, rfl⟩

theorem execGenhdr_answersInv : AnswersInv (execGenhdr s) := by
  obtain ⟨_, e⟩ | ⟨_, _, e⟩ := execGenhdr_cases s <;> rw [e, answersInv_next]
  · exact h.inv_raise _ _
  · exact h.inv_done rfl (Memory.wf_ofBytes _) rfl rfl ⟨rfl, rfl, rfl⟩

theorem execParsehdr_answersInv : AnswersInv (execParsehdr s) := by
  obtain ⟨cause, pos, _, e⟩ | ⟨_, _, _, e⟩ := execParsehdr_cases s <;> rw [e, answersInv_next]
  · exact h.inv_raise cause pos
  · exact h.inv_done rfl (Memory.wf_ofBytes _) rfl rfl ⟨rfl, rfl, rfl⟩

theorem execHdrchk_answersInv : AnswersInv (execHdrchk s) :=
  answersInv_next.2 (h.inv_done rfl h.out_wf rfl rfl ⟨rfl, rfl, rfl⟩)

theorem execEncode_answersInv : AnswersInv (execEncode s) := by
  obtain ⟨_, e⟩ | ⟨_, _, k, _, e⟩ | ⟨_, _, _, e⟩ := execEncode_cases s <;> rw [e, answersInv_next]
  · exact h.inv_raise _ _
  · exact Taken.inv_raise (by exact h) _ _
  · exact h.inv_done rfl (Memory.wf_ofBytes _) rfl rfl ⟨rfl, rfl, rfl⟩

theorem execCompress_answersInv : AnswersInv (execCompress s) := by
  obtain ⟨_, e⟩ | ⟨_, _, e⟩ := execCompress_cases s <;> rw [e, answersInv_next]
  · exact h.inv_raise _ _
  · exact h.inv_done rfl (Memory.wf_ofBytes _) rfl rfl ⟨rfl, rfl, rfl⟩

theorem execDecompress_answersInv : AnswersInv (execDecompress s) := by
  have hbegin := h.inv_beginDecompress
  obtain ⟨_, _, _, hp⟩ := h
  unfold execDecompress
  split
  next => exact answersInv_next.2 hbegin
  next => exact runDecoder_answersInv _ hbegin hp

theorem exec_hostOps_answersInv {i : Instr} (hi : i ∈ hostOps) : AnswersInv (exec i s) := by
  simp only [hostOps, List.mem_cons, List.not_mem_nil, or_false] at hi
  rcases hi with rfl | rfl | rfl | rfl | rfl | rfl | rfl | rfl | rfl
  · exact execLayout_answersInv h
  · exact execFindmatch_answersInv h
  · exact execTokenize_answersInv h
  · exact execGenhdr_answersInv h
  · exact execParsehdr_answersInv h
  · exact execHdrchk_answersInv h
  · exact execEncode_answersInv h
  · exact execCompress_answersInv h
  · exact execDecompress_answersInv h

end

/-! ### The host's moves -/

theorem hostWrite_answersInv {s t : State} (h : s.status ≠ .busy → Inv t) :
    AnswersInv (hostWrite s t) := by
  obtain ⟨hb, e⟩ | ⟨_, e⟩ := hostWrite_cases s t <;> rw [e]
  · exact answersInv_next.2 (h hb)
  · exact answersInv_fault _

/-- An accepted start is a legal one: BUSY, its code not reserved (R74). -/
theorem inv_started {s : State} (h : Inv s) {op : BitVec 4} (h0 : op ≠ 0#4) (h9 : op.toNat ≤ 9)
    (fine : Bool) : Inv (started op fine s) := by
  obtain ⟨hin, hout, hflags, _, _⟩ := h
  have flags : LegalFlags (started op fine s) := hflags.noError_or_record
  have h1 : 1 ≤ op.toNat := by bv_omega
  exact ⟨hin, hout, flags, fun _ => ⟨rfl, h1, h9⟩, fun _ hp => nomatch hp⟩

theorem hostStart_answersInv {s : State} (h : Inv s) (op : BitVec 4) (fine : Bool) :
    AnswersInv (hostStart op fine s) := by
  obtain ⟨_, e⟩ | ⟨_, _, e⟩ | ⟨_, _, _, e⟩ | ⟨_, h0, h9, _, e⟩ := hostStart_cases op fine s <;> rw [e]
  · exact answersInv_next.2 h
  · exact answersInv_refused _
  · exact answersInv_refused _
  · exact answersInv_next.2 (inv_started h h0 h9 fine)

theorem hostRead_answersInv {s : State} (h : Inv s) (r : ReadReg) : AnswersInv (hostRead r s) := by
  obtain ⟨_, e⟩ | ⟨_, _, e⟩ := hostRead_cases r s <;> rw [e]
  · exact answersInv_next.2 h
  · exact answersInv_fault _

theorem inv_hostReset (s : State) : Inv (hostReset s) :=
  Taken.inv_of_not_busy ⟨Memory.wf_empty, Memory.wf_empty, ⟨rfl, rfl, rfl⟩, rfl⟩ nofun

/-- Loading IN: the host may do so only with no operation running. -/
theorem inv_loadIn {s : State} (h : Inv s) (hb : s.status ≠ .busy) (bs : List Byte) :
    Inv { s with inp := Memory.ofBytes bs } := by
  obtain ⟨_, hout, hflags, hp⟩ := h.taken_of_not_busy hb
  exact Taken.inv_of_not_busy ⟨Memory.wf_ofBytes bs, hout, hflags, hp⟩ hb

theorem hostMove_answersInv {s : State} (h : Inv s) (m : HostMove) : AnswersInv (hostMove m s) := by
  cases m with
  | writeC n => exact hostWrite_answersInv fun _ => h
  | writeExt e => exact hostWrite_answersInv fun _ => h
  | writePos n => exact hostWrite_answersInv fun _ => h
  | loadIn bs => exact hostWrite_answersInv fun hb => inv_loadIn h hb bs
  | loadTok ts => exact hostWrite_answersInv fun _ => h
  | start op fine => exact hostStart_answersInv h op fine
  | read r => exact hostRead_answersInv h r
  | reset => exact answersInv_next.2 (inv_hostReset s)

/-! ### Every step -/

theorem Inv.of_engineTurn {s u : State} (h : Inv s) (hu : EngineTurn s u) : Inv u := by
  obtain ⟨_, rfl⟩ | ⟨_, _, rfl⟩ := hu <;> exact h

theorem step_answersInv {s : State} (h : Inv s) : AnswersInv (step s) := by
  obtain ⟨m, rest, hs⟩ | ⟨u, hu⟩ := turn_cases s
  · rw [step_host hs]
    exact hostMove_answersInv (s := { s with schedule := rest }) h m
  · have h := h.of_engineTurn hu
    obtain ⟨_, e⟩ | ⟨_, _, ⟨i, hi, e⟩ | e⟩ | ⟨hb, hp, e⟩ := step_engineTurn_cases hu <;> rw [e]
    · exact answersInv_next.2 h
    · exact exec_hostOps_answersInv h.taken_start hi
    · exact answersInv_refused _
    · exact decoderTick_answersInv h hb hp

/-- Settles O3: whichever turn it is, each thing the step can do ends in a state that meets the invariant. -/
theorem stepKeepsInvariant : Obligations.StepKeepsInvariant := by
  unfold Obligations.StepKeepsInvariant
  exact fun _ t h e => step_answersInv h t e

end Sys2Proof.Machine
end

section
/-! DECOMPRESS at the two grains: run whole and stepped it reaches the same state. -/

namespace Sys2Proof.Machine

theorem execDecompress_of_fine {s : State} (h : s.fine = true) :
    execDecompress s = .next (beginDecompress s) := by
  simp only [execDecompress, h, ↓reduceIte]

theorem execDecompress_of_whole {s : State} (h : s.fine = false) :
    execDecompress s = runDecoder (s.ilen + 2) (beginDecompress s) := by
  simp only [execDecompress, h, Bool.false_eq_true, ↓reduceIte]

/-- A step that changes nothing, taken any number of times, changes nothing. -/
theorem run_of_step_self {s : State} (h : step s = .next s) (k : Nat) :
    Host.Core.run Sys2Proof.core k s = .next s := by
  induction k with
  | zero => rfl
  | succ k ih => rw [run_next h, ih]

/-- `k` ticks answer a state, and `k` steps at the finer grain answer the same one, the grain aside. -/
theorem run_fine_eq_runDecoder (k : Nat) :
    ∀ {s : State}, s.schedule = [] → s.startPending = false →
      ∃ t, runDecoder k s = .next t ∧
        Host.Core.run Sys2Proof.core k { s with fine := true } = .next { t with fine := true } := by
  induction k with
  | zero => exact fun {s} _ _ => ⟨s, rfl, rfl⟩
  | succ k ih =>
    intro s hs hp
    by_cases hb : s.status = .busy
    · obtain ⟨u, htick, hs', hp', _⟩ := decoderTick_frame s
      have hstep : step { s with fine := true } = .next { u with fine := true } :=
        (step_stream (s := { s with fine := true }) hs hb hp).trans (decoderTick_fine true htick)
      rw [runDecoder_next hb htick, run_next hstep]
      exact ih (hs'.trans hs) (hp'.trans hp)
    · exact ⟨s, runDecoder_ended hb _, run_of_step_self (s := { s with fine := true }) (step_idle hs hb) _⟩

/-- Settles O44: tick by tick, the steps of the stepped DECOMPRESS do what the one run whole does. -/
theorem steppedEqualsWhole : Obligations.SteppedEqualsWhole := by
  unfold Obligations.SteppedEqualsWhole
  intro s hfine hs hp
  have hbegin : { beginDecompress { s with fine := false } with fine := true } = beginDecompress s := by
    rw [← hfine]; rfl
  obtain ⟨t, hwhole, hrun⟩ :=
    run_fine_eq_runDecoder (s.ilen + 2) (s := beginDecompress { s with fine := false }) hs hp
  rw [hbegin] at hrun
  exact ⟨execDecompress_of_fine hfine, t,
    (execDecompress_of_whole (s := { s with fine := false }) rfl).trans hwhole, hrun⟩

end Sys2Proof.Machine
end

section
/-! What an instruction leaves unchanged, and how it can end: once for each shared operation, then for
every instruction. -/

namespace Sys2Proof.Machine

open Sys2Proof.Machine.Claims

/-! ### The frame and the ending of an instruction -/

/-- What every instruction leaves unchanged: the request registers, IN, the host's fields, and TOK unless
the instruction is TOKENIZE (R23, R45, R55). -/
def Frame (i : Instr) (s t : State) : Prop :=
  KeepsRequest s t ∧ t.inp = s.inp ∧ KeepsHost s t ∧ (i ≠ .tokenize → t.tok = s.tok)

theorem Frame.refl (i : Instr) (s : State) : Frame i s s :=
  ⟨⟨rfl, rfl, rfl, rfl⟩, rfl, ⟨rfl, rfl, rfl, rfl, rfl⟩, fun _ => rfl⟩

theorem Frame.trans {i : Instr} {s t u : State} (h : Frame i s t) (h' : Frame i t u) : Frame i s u := by
  obtain ⟨⟨hop, hc, he, hpos⟩, hin, ⟨hst, hf, hsch, hsaw, hw⟩, htok⟩ := h
  obtain ⟨⟨hop', hc', he', hpos'⟩, hin', ⟨hst', hf', hsch', hsaw', hw'⟩, htok'⟩ := h'
  exact ⟨⟨hop'.trans hop, hc'.trans hc, he'.trans he, hpos'.trans hpos⟩, hin'.trans hin,
    ⟨hst'.trans hst, hf'.trans hf, hsch'.trans hsch, hsaw'.trans hsaw, hw'.trans hw⟩,
    fun hi => (htok' hi).trans (htok hi)⟩

/-- TOKENIZE may write TOK, so its frame need not keep it. -/
theorem frame_tokenize {s t : State} (h : Frame .tokenize { s with tok := t.tok } t) :
    Frame .tokenize s t :=
  let ⟨hreq, hin, hhost, _⟩ := h
  ⟨hreq, hin, hhost, fun hi => absurd rfl hi⟩

/-- The operation goes on: STATUS is as it was or BUSY, and the layout registers are as they were. -/
def GoesOn (s t : State) : Prop :=
  (t.status = s.status ∨ t.status = .busy) ∧ t.ly = s.ly

/-- How an instruction can end: the operation goes on, completes, or fails. -/
inductive Ending (i : Instr) (s t : State) : Prop where
  | running (h : GoesOn s t)
  | done (status : t.status = .done) (noError : NoError t) (valid : t.valid = writesOf i)
      (ly : i ≠ .layout → t.ly = s.ly)
  | failed (status : t.status = .error) (valid : t.valid = {})

theorem Ending.after {i : Instr} {s t u : State} (h : GoesOn s t) (h' : Ending i t u) :
    Ending i s u := by
  obtain ⟨hs, hly⟩ := h
  cases h' with
  | running h' =>
    obtain ⟨hs', hly'⟩ := h'
    refine .running ⟨?_, hly'.trans hly⟩
    obtain e | e := hs'
    · rwa [e]
    · exact .inr e
  | done status noError valid ly => exact .done status noError valid fun hi => (ly hi).trans hly
  | failed status valid => exact .failed status valid

/-- What `o` does as the outcome of instruction `i` in `s`, where it answers a next state. -/
def Effect (i : Instr) (s : State) (o : Out) : Prop := ∀ t, o = .next t → Frame i s t ∧ Ending i s t

theorem effect_next {i : Instr} {s t : State} : Effect i s (.next t) ↔ Frame i s t ∧ Ending i s t :=
  ⟨fun h => h t rfl, fun h _ e => by cases e; exact h⟩

theorem effect_refused (i : Instr) (s : State) (r : Refusal) : Effect i s (.refused r) :=
  fun _ e => nomatch e

/-- An error raised in a state `u` that differs from `s` in working registers only. -/
theorem effect_raise {i : Instr} {s u : State} (h : Frame i s u) (cause : Cause) (pos : Nat) :
    Effect i s (.next (raise cause pos u)) :=
  effect_next.2 ⟨h, .failed rfl rfl⟩

theorem Effect.after {i : Instr} {s t : State} {o : Out} (hf : Frame i s t) (hg : GoesOn s t)
    (h : Effect i t o) : Effect i s o := fun u e =>
  let ⟨hf', hend⟩ := h u e
  ⟨hf.trans hf', hend.after hg⟩

/-! ### The stream instructions -/

section
variable (i : Instr)

theorem execHdr_effect (c e : BitVec 4) (s : State) : Effect i s (execHdr c e s) := by
  obtain ⟨_, h⟩ | ⟨_, h⟩ := execHdr_cases c e s <;> rw [h]
  · exact effect_raise (.refl i s) _ _
  · exact effect_next.2 ⟨.refl i s, .running ⟨.inl rfl, rfl⟩⟩

theorem runLit_effect (c len : Nat) (s : State) : Effect i s (runLit c len s) := by
  obtain ⟨_, h⟩ | ⟨_, h⟩ := runLit_cases c len s <;> rw [h]
  · exact effect_raise (by exact Frame.refl i s) _ _
  · exact effect_next.2 ⟨.refl i s, .running ⟨.inl rfl, rfl⟩⟩

theorem runMatch_effect (c len dist : Nat) (s : State) : Effect i s (runMatch c len dist s) := by
  obtain ⟨_, h⟩ | ⟨_, _, h⟩ | ⟨_, _, h⟩ := runMatch_cases c len dist s <;> rw [h]
  · exact effect_raise (by exact Frame.refl i s) _ _
  · exact effect_next.2 ⟨.refl i s, .running ⟨.inl rfl, rfl⟩⟩
  · exact effect_raise (by exact Frame.refl i s) _ _

end

/-! ### DECOMPRESS -/

theorem headerTick_effect (i : Instr) (s : State) : Effect i s (headerTick s) := by
  obtain ⟨cause, pos, h⟩ | ⟨_, _, _, _, h⟩ := headerTick_cases s <;> rw [h]
  · exact effect_raise (.refl i s) cause pos
  · exact effect_next.2 ⟨.refl i s, .running ⟨.inl rfl, rfl⟩⟩

/-- The control word of the token at ICUR (R143). -/
def controlWord (s : State) : Nat := fromBe (s.inp.slice s.icur s.curC.toNat)

/-- The tick that reads a token, its control word and the state it runs in named. -/
theorem tokenTick_eq (s : State) : tokenTick s =
    if s.ilen - s.icur < s.curC.toNat then .next (raise .cfTrunc s.icur s)
    else if s.curC = 0#4 then .next (raise .hdrWidth 1 s)
    else if signalOf s.curC.toNat (controlWord s) = 0 then
      runLit s.curC.toNat (litLenOf s.curC.toNat (controlWord s)) (withWord s)
    else
      runMatch s.curC.toNat (matchLenOf s.curC.toNat (controlWord s))
        (matchDistOf s.curC.toNat (controlWord s)) (withWord s) := rfl

theorem tokenTick_effect (i : Instr) (s : State) : Effect i s (tokenTick s) := by
  have hw : Frame i s (withWord s) := Frame.refl i s
  have hg : GoesOn s (withWord s) := ⟨.inl rfl, rfl⟩
  rw [tokenTick_eq]
  split
  · exact effect_raise (.refl i s) _ _
  · split
    · exact effect_raise (.refl i s) _ _
    · split
      · exact Effect.after hw hg (runLit_effect i _ _ _)
      · exact Effect.after hw hg (runMatch_effect i _ _ _ _)

theorem decoderTick_effect (s : State) : Effect .decompress s (decoderTick s) := by
  by_cases hd : s.dstate = .readingHeader
  · rw [decoderTick_readingHeader hd]
    exact headerTick_effect _ s
  · rw [decoderTick_pastHeader hd]
    split
    · exact tokenTick_effect _ s
    · exact effect_next.2 ⟨Frame.refl _ s, .done rfl ⟨rfl, rfl, rfl⟩ rfl fun _ => rfl⟩

theorem runDecoder_effect (k : Nat) : ∀ s : State, Effect .decompress s (runDecoder k s) := by
  have stop (s : State) : Effect .decompress s (.next s) :=
    effect_next.2 ⟨.refl _ s, .running ⟨.inl rfl, rfl⟩⟩
  induction k with
  | zero => exact stop
  | succ k ih =>
    intro s
    by_cases hb : s.status = .busy
    · obtain ⟨t, htick, _⟩ := decoderTick_frame s
      obtain ⟨hf, hend⟩ := decoderTick_effect s t htick
      rw [runDecoder_next hb htick]
      cases hend with
      | running hg => exact (ih t).after hf hg
      | done status noError valid ly =>
        rw [runDecoder_ended (by simp [status])]
        exact effect_next.2 ⟨hf, .done status noError valid ly⟩
      | failed status valid =>
        rw [runDecoder_ended (by simp [status])]
        exact effect_next.2 ⟨hf, .failed status valid⟩
    · rw [runDecoder_ended hb]
      exact stop s

/-! ### The nine host operations -/

section
variable (s : State)

theorem execLayout_effect : Effect .layout s (execLayout s) := by
  obtain ⟨_, h⟩ | ⟨_, _, h⟩ := execLayout_cases s <;> rw [h]
  · exact effect_raise (.refl _ s) _ _
  · exact effect_next.2 ⟨.refl _ s, .done rfl ⟨rfl, rfl, rfl⟩ rfl fun hi => absurd rfl hi⟩

theorem execFindmatch_effect : Effect .findmatch s (execFindmatch s) := by
  obtain ⟨_, h⟩ | ⟨_, _, _, h⟩ | ⟨_, _, _, h⟩ := execFindmatch_cases s <;> rw [h]
  · exact effect_raise (.refl _ s) _ _
  · exact effect_refused _ _ _
  · exact effect_next.2 ⟨.refl _ s, .done rfl ⟨rfl, rfl, rfl⟩ rfl fun _ => rfl⟩

theorem execTokenize_effect : Effect .tokenize s (execTokenize s) := by
  obtain ⟨_, h⟩ | ⟨_, _, h⟩ := execTokenize_cases s <;> rw [h]
  · exact effect_next.2 ⟨frame_tokenize (.refl _ _), .failed rfl rfl⟩
  · exact effect_next.2 ⟨frame_tokenize (.refl _ _), .done rfl ⟨rfl, rfl, rfl⟩ rfl fun _ => rfl⟩

theorem execGenhdr_effect : Effect .genhdr s (execGenhdr s) := by
  obtain ⟨_, h⟩ | ⟨_, _, h⟩ := execGenhdr_cases s <;> rw [h]
  · exact effect_raise (.refl _ s) _ _
  · exact effect_next.2 ⟨.refl _ s, .done rfl ⟨rfl, rfl, rfl⟩ rfl fun _ => rfl⟩

theorem execParsehdr_effect : Effect .parsehdr s (execParsehdr s) := by
  obtain ⟨_, _, _, h⟩ | ⟨_, _, _, h⟩ := execParsehdr_cases s <;> rw [h]
  · exact effect_raise (.refl _ s) _ _
  · exact effect_next.2 ⟨.refl _ s, .done rfl ⟨rfl, rfl, rfl⟩ rfl fun _ => rfl⟩

theorem execHdrchk_effect : Effect .hdrchk s (execHdrchk s) :=
  effect_next.2 ⟨.refl _ s, .done rfl ⟨rfl, rfl, rfl⟩ rfl fun _ => rfl⟩

theorem execEncode_effect : Effect .encode s (execEncode s) := by
  obtain ⟨_, h⟩ | ⟨_, _, _, _, h⟩ | ⟨_, _, _, h⟩ := execEncode_cases s <;> rw [h]
  · exact effect_raise (.refl _ s) _ _
  · exact effect_raise (by exact Frame.refl _ s) _ _
  · exact effect_next.2 ⟨.refl _ s, .done rfl ⟨rfl, rfl, rfl⟩ rfl fun _ => rfl⟩

theorem execCompress_effect : Effect .compress s (execCompress s) := by
  obtain ⟨_, h⟩ | ⟨_, _, h⟩ := execCompress_cases s <;> rw [h]
  · exact effect_raise (.refl _ s) _ _
  · exact effect_next.2 ⟨.refl _ s, .done rfl ⟨rfl, rfl, rfl⟩ rfl fun _ => rfl⟩

theorem execDecompress_effect : Effect .decompress s (execDecompress s) := by
  have hf : Frame .decompress s (beginDecompress s) := Frame.refl _ s
  have hg : GoesOn s (beginDecompress s) := ⟨.inr rfl, rfl⟩
  cases h : s.fine with
  | true => rw [execDecompress_of_fine h]; exact effect_next.2 ⟨hf, .running hg⟩
  | false => rw [execDecompress_of_whole h]; exact (runDecoder_effect _ _).after hf hg

end

/-! ### Every instruction -/

theorem exec_effect (i : Instr) (s : State) : Effect i s (exec i s) := by
  cases i with
  | hdr c e => exact execHdr_effect _ c e s
  | litC1 len | litC2 len | litC3 len | litC4 len | litC5 len | litC6 len | litC7 len | litC8 len
  | litC9 len | litC10 len | litC11 len | litC12 len | litC13 len | litC14 len | litC15 len =>
    exact runLit_effect _ _ len.toNat s
  | matchC1 len dist | matchC2 len dist | matchC3 len dist | matchC4 len dist | matchC5 len dist
  | matchC6 len dist | matchC7 len dist | matchC8 len dist | matchC9 len dist | matchC10 len dist
  | matchC11 len dist | matchC12 len dist | matchC13 len dist | matchC14 len dist
  | matchC15 len dist => exact runMatch_effect _ _ len.toNat dist.toNat s
  | layout => exact execLayout_effect s
  | findmatch => exact execFindmatch_effect s
  | tokenize => exact execTokenize_effect s
  | genhdr => exact execGenhdr_effect s
  | parsehdr => exact execParsehdr_effect s
  | hdrchk => exact execHdrchk_effect s
  | encode => exact execEncode_effect s
  | compress => exact execCompress_effect s
  | decompress => exact execDecompress_effect s

/-- Settles O50: of the three endings of an instruction only a completion turns STATUS to DONE. -/
theorem completionZeroesErrors : Obligations.CompletionZeroesErrors := by
  unfold Obligations.CompletionZeroesErrors
  intro i s t h hs ht
  obtain ⟨_, hend⟩ := exec_effect i s t h
  cases hend with
  | running hg =>
    obtain ⟨e | e, _⟩ := hg
    · exact absurd (e.symm.trans ht) hs
    · simp [ht] at e
  | done _ noError _ _ => exact noError
  | failed status _ => simp [ht] at status

/-- Settles O52: the frame of an instruction; the layout registers change at the end of LAYOUT and in an
error only. -/
theorem execKeepsOperands : Obligations.ExecKeepsOperands := by
  unfold Obligations.ExecKeepsOperands
  intro i s t h
  obtain ⟨⟨hreq, hin, hhost, htok⟩, hend⟩ := exec_effect i s t h
  refine ⟨hreq, ?_, hhost, htok, fun hi ht => ?_⟩
  · simp [KeepsIn, State.ilen, hin]
  · cases hend with
    | running hg =>
      obtain ⟨_, hly⟩ := hg
      exact hly
    | done _ _ _ ly => exact ly hi
    | failed status _ => exact absurd status ht

/-- Settles O54: an operation that goes on is still BUSY, and the other two endings leave the marks. -/
theorem specifiedAfterOperation : Obligations.SpecifiedAfterOperation := by
  unfold Obligations.SpecifiedAfterOperation
  intro i s t hb h
  obtain ⟨_, hend⟩ := exec_effect i s t h
  cases hend with
  | running hg =>
    obtain ⟨hs, _⟩ := hg
    have ht : t.status = .busy := hs.elim (·.trans hb) id
    exact ⟨fun e => by simp [ht] at e, fun e => by simp [ht] at e⟩
  | done status _ valid _ => exact ⟨fun _ => valid, fun e => by simp [status] at e⟩
  | failed status valid => exact ⟨fun e => by simp [status] at e, fun _ => valid⟩

end Sys2Proof.Machine
end

section
/-! Noninterference: what a host operation determines is a function of its operands. -/

namespace Sys2Proof.Machine

open Sys2Proof.Machine.Claims

theorem widthOperand_congr {s s' : State} (h : s.cArg = s'.cArg) : widthOperand s = widthOperand s' := by
  simp only [widthOperand, h]

theorem ilen_congr {s s' : State} (h : s.inp.bytes = s'.inp.bytes) : s.ilen = s'.ilen := by
  rw [State.ilen_eq_size, State.ilen_eq_size, ← Memory.bytes_length, h, Memory.bytes_length]

theorem Memory.slice_congr {m m' : Memory} (h : m.bytes = m'.bytes) (a n : Nat) : m.slice a n = m'.slice a n := by
  simp only [Memory.slice, h]

/-- Two errors with the same record agree, TOKENIZE aside, which also writes TOK. -/
theorem agreeOn_raise {i : Instr} (hi : i ≠ .tokenize) (cause : Cause) (pos : Nat) (s s' : State) :
    AgreeOn i (.next (raise cause pos s)) (.next (raise cause pos s')) := by
  simp [AgreeOn, hi]

/-! ### The operations that take a width, and PARSEHDR and HDRCHK -/

section
variable {s s' : State}

theorem execLayout_agree (hc : s.cArg = s'.cArg) :
    AgreeOn .layout (execLayout s) (execLayout s') := by
  unfold execLayout
  rw [widthOperand_congr hc]
  cases widthOperand s' with
  | none => exact agreeOn_raise (by decide) _ _ s s'
  | some c => simp [AgreeOn, outWriters]

theorem execFindmatch_agree (hc : s.cArg = s'.cArg) (hp : s.posArg = s'.posArg)
    (hin : s.inp.bytes = s'.inp.bytes) : AgreeOn .findmatch (execFindmatch s) (execFindmatch s') := by
  unfold execFindmatch
  rw [widthOperand_congr hc, ilen_congr hin, hp, hin]
  cases widthOperand s' with
  | none => exact agreeOn_raise (by decide) _ _ s s'
  | some c =>
    by_cases h : s'.ilen < s'.posArg <;> simp [h, AgreeOn, outWriters]

theorem execTokenize_agree (hc : s.cArg = s'.cArg) (hin : s.inp.bytes = s'.inp.bytes) :
    AgreeOn .tokenize (execTokenize s) (execTokenize s') := by
  unfold execTokenize
  rw [widthOperand_congr hc, hin]
  cases widthOperand s' with
  | none => simp [AgreeOn]
  | some c => simp [AgreeOn, outWriters]

theorem execGenhdr_agree (hc : s.cArg = s'.cArg) (he : s.extArg = s'.extArg) :
    AgreeOn .genhdr (execGenhdr s) (execGenhdr s') := by
  unfold execGenhdr
  rw [widthOperand_congr hc, he]
  cases widthOperand s' with
  | none => exact agreeOn_raise (by decide) _ _ s s'
  | some c => simp [AgreeOn]

theorem execParsehdr_agree (hin : s.inp.bytes = s'.inp.bytes) :
    AgreeOn .parsehdr (execParsehdr s) (execParsehdr s') := by
  unfold execParsehdr
  rw [hin]
  cases parseHeader s'.inp.bytes with
  | error r => exact agreeOn_raise (by decide) _ _ s s'
  | ok r => simp [AgreeOn]

theorem execHdrchk_agree (hin : s.inp.bytes = s'.inp.bytes) :
    AgreeOn .hdrchk (execHdrchk s) (execHdrchk s') := by
  unfold execHdrchk
  rw [hin, ilen_congr hin]
  simp [AgreeOn, outWriters]

theorem execEncode_agree (hc : s.cArg = s'.cArg) (ht : s.tok = s'.tok) :
    AgreeOn .encode (execEncode s) (execEncode s') := by
  unfold execEncode
  rw [widthOperand_congr hc, ht]
  cases widthOperand s' with
  | none => exact agreeOn_raise (by decide) _ _ s s'
  | some c =>
    cases h : firstBad (layout c) 0 s'.tok with
    | none => simp [h, AgreeOn]
    | some k => simpa [h] using agreeOn_raise (by decide) _ _ _ _

theorem execCompress_agree (hc : s.cArg = s'.cArg) (he : s.extArg = s'.extArg)
    (hin : s.inp.bytes = s'.inp.bytes) : AgreeOn .compress (execCompress s) (execCompress s') := by
  unfold execCompress
  rw [widthOperand_congr hc, he, hin]
  cases widthOperand s' with
  | none => exact agreeOn_raise (by decide) _ _ s s'
  | some c => simp [AgreeOn]

end

/-! ### DECOMPRESS -/

/-- Two decoders at the same place of the same stream, past its header: they hold the same IN, cursor, width,
code and output, and may differ in anything else. -/
structure SameStream (s s' : State) : Prop where
  busy : s.status = .busy ∧ s'.status = .busy
  pastHeader : s.dstate ≠ .readingHeader ∧ s'.dstate ≠ .readingHeader
  inp : s.inp.bytes = s'.inp.bytes
  icur : s.icur = s'.icur
  curC : s.curC = s'.curC
  curE : s.curE = s'.curE
  out : s.out = s'.out

/-- Both outcomes go on at the same place of the same stream of `n` bytes, its cursor moved on from `a`, or are
errors with the same record. -/
inductive StepAlike (n a : Nat) : Out → Out → Prop where
  | on {t t' : State} (same : SameStream t t') (hlen : t.ilen = n) (hcur : a < t.icur) :
      StepAlike n a (.next t) (.next t')
  | fail (cause : Cause) (pos : Nat) (u u' : State) :
      StepAlike n a (.next (raise cause pos u)) (.next (raise cause pos u'))

section
variable {s s' : State}

theorem SameStream.withWord (h : SameStream s s') : SameStream (withWord s) (withWord s') :=
  ⟨h.busy, h.pastHeader, h.inp, h.icur, h.curC, h.curE, h.out⟩

theorem runLit_alike (h : SameStream s s') {c : Nat} (hc : 1 ≤ c) (len : Nat) :
    StepAlike s.ilen s.icur (runLit c len s) (runLit c len s') := by
  obtain ⟨hb, _, hin, hcur, hC, hE, hout⟩ := h
  unfold runLit
  rw [← ilen_congr hin, ← hcur, ← hout, ← Memory.slice_congr hin]
  split
  · exact .fail _ _ _ _
  · exact .on ⟨hb, by simp, hin, rfl, hC, hE, rfl⟩ rfl (by show s.icur < s.icur + c + len; omega)

theorem runMatch_alike (h : SameStream s s') {c : Nat} (hc : 1 ≤ c) (len dist : Nat) :
    StepAlike s.ilen s.icur (runMatch c len dist s) (runMatch c len dist s') := by
  obtain ⟨hb, _, hin, hcur, hC, hE, hout⟩ := h
  unfold runMatch
  rw [State.olen_eq_size s', ← hcur, ← hout, ← State.olen_eq_size s]
  split
  · exact .fail _ _ _ _
  · obtain ⟨src, left, m⟩ := copyLoop len (s.olen - dist) s.out
    cases left with
    | zero =>
      exact .on ⟨hb, by simp, hin, rfl, hC, hE, rfl⟩ rfl (by show s.icur < s.icur + c; omega)
    | succ k => exact .fail _ _ _ _

theorem tokenTick_alike (h : SameStream s s') :
    StepAlike s.ilen s.icur (tokenTick s) (tokenTick s') := by
  have hword : controlWord s = controlWord s' := by
    simp only [controlWord, h.icur, h.curC, Memory.slice_congr h.inp]
  rw [tokenTick_eq, tokenTick_eq, ← ilen_congr h.inp, ← h.icur, ← h.curC, ← hword]
  split
  · exact .fail _ _ _ _
  · split
    · exact .fail _ _ _ _
    next hc =>
      have hpos : 1 ≤ s.curC.toNat := by bv_omega
      split
      · exact runLit_alike h.withWord hpos _
      · exact runMatch_alike h.withWord hpos _ _

/-- The header's tick answers the same error, or the same stream just past its header. -/
theorem headerTick_alike (hb : s.status = .busy ∧ s'.status = .busy) (h0 : s.icur = 0)
    (hin : s.inp.bytes = s'.inp.bytes) :
    StepAlike s.ilen s.icur (headerTick s) (headerTick s') := by
  unfold headerTick
  rw [← hin]
  split
  · split
    · exact .fail _ _ _ _
    · unfold execHdr
      split
      · exact .fail _ _ _ _
      · exact .on ⟨hb, by simp, hin, rfl, rfl, rfl, rfl⟩ rfl (by rw [h0]; exact Nat.two_pos)
  · exact .fail _ _ _ _

/-- After ticks that are alike the runs agree, if they do wherever both streams go on. -/
theorem runDecoder_agree_of_tick (hb : s.status = .busy ∧ s'.status = .busy) {k : Nat}
    (h : StepAlike s.ilen s.icur (decoderTick s) (decoderTick s'))
    (go : ∀ t t', SameStream t t' → t.ilen = s.ilen → s.icur < t.icur →
      AgreeOn .decompress (runDecoder k t) (runDecoder k t')) :
    AgreeOn .decompress (runDecoder (k + 1) s) (runDecoder (k + 1) s') := by
  obtain ⟨hb, hb'⟩ := hb
  generalize ho : decoderTick s = o at h
  generalize ho' : decoderTick s' = o' at h
  cases h with
  | on same hlen hcur =>
    rw [runDecoder_next hb ho, runDecoder_next hb' ho']
    exact go _ _ same hlen hcur
  | fail cause pos u u' =>
    rw [runDecoder_next hb ho, runDecoder_next hb' ho', runDecoder_ended (by simp),
      runDecoder_ended (by simp)]
    exact agreeOn_raise (by decide) cause pos u u'

theorem runDecoder_agree_atEnd (h : SameStream s s') (hend : s.ilen ≤ s.icur) (k : Nat) :
    AgreeOn .decompress (runDecoder (k + 1) s) (runDecoder (k + 1) s') := by
  obtain ⟨⟨hb, hb'⟩, ⟨hd, hd'⟩, hin, hcur, hC, hE, hout⟩ := h
  have hend' : s'.ilen ≤ s'.icur := ilen_congr hin ▸ hcur ▸ hend
  rw [runDecoder_next hb ((decoderTick_pastHeader hd).trans (if_neg hend.not_gt)),
    runDecoder_next hb' ((decoderTick_pastHeader hd').trans (if_neg hend'.not_gt)),
    runDecoder_ended (by simp), runDecoder_ended (by simp)]
  simp [AgreeOn, hC, hE, hout]

end

/-- A tick per byte that is left, and one more, bring both streams to the same end (R148). -/
theorem runDecoder_agree (k : Nat) : ∀ {s s' : State}, SameStream s s' → s.ilen ≤ s.icur + k →
    AgreeOn .decompress (runDecoder (k + 1) s) (runDecoder (k + 1) s') := by
  induction k with
  | zero => exact fun h hk => runDecoder_agree_atEnd h hk 0
  | succ k ih =>
    intro s s' h hk
    by_cases hlt : s.icur < s.ilen
    · have hlt' : s'.icur < s'.ilen := ilen_congr h.inp ▸ h.icur ▸ hlt
      have htick := tokenTick_alike h
      obtain ⟨hd, hd'⟩ := h.pastHeader
      refine runDecoder_agree_of_tick h.busy ?_ fun t t' same hlen hcur => ih same (by omega)
      rwa [decoderTick_pastHeader hd, decoderTick_pastHeader hd', if_pos hlt, if_pos hlt']
    · exact runDecoder_agree_atEnd h (by omega) _

theorem execDecompress_agree {s s' : State} (hf : s.fine = false) (hf' : s'.fine = false)
    (hin : s.inp.bytes = s'.inp.bytes) :
    AgreeOn .decompress (execDecompress s) (execDecompress s') := by
  rw [execDecompress_of_whole hf, execDecompress_of_whole hf', ← ilen_congr hin]
  refine runDecoder_agree_of_tick ⟨rfl, rfl⟩
    (headerTick_alike (s := beginDecompress s) (s' := beginDecompress s') ⟨rfl, rfl⟩ rfl hin)
    fun t t' same hlen hcur => runDecoder_agree _ same ?_
  have : t.ilen = s.ilen := hlen
  omega

/-- Settles O53: each operation takes the same branch in both states; DECOMPRESS does at each tick. -/
theorem resultsDependOnOperandsOnly : Obligations.ResultsDependOnOperandsOnly := by
  unfold Obligations.ResultsDependOnOperandsOnly
  intro i s s' hi hfine h
  obtain ⟨hc, he, hp, hin, ht⟩ := h
  simp only [hostOps, List.mem_cons, List.not_mem_nil, or_false] at hi
  rcases hi with rfl | rfl | rfl | rfl | rfl | rfl | rfl | rfl | rfl
  · exact execLayout_agree (hc rfl)
  · exact execFindmatch_agree (hc rfl) (hp rfl) (hin rfl)
  · exact execTokenize_agree (hc rfl) (hin rfl)
  · exact execGenhdr_agree (hc rfl) (he rfl)
  · exact execParsehdr_agree (hin rfl)
  · exact execHdrchk_agree (hin rfl)
  · exact execEncode_agree (hc rfl) (ht rfl)
  · exact execCompress_agree (hc rfl) (he rfl) (hin rfl)
  · obtain ⟨hf, hf'⟩ := hfine rfl
    exact execDecompress_agree hf hf' (hin rfl)

end Sys2Proof.Machine
end

section
/-! Reset, the engine's turn, and the host's moves and reads. -/

namespace Sys2Proof.Machine

open Sys2Proof.Machine.Claims

/-! ### Reset -/

/-- Settles O1. -/
theorem resetIsIdleAndEmpty : Obligations.ResetIsIdleAndEmpty := by
  unfold Obligations.ResetIsIdleAndEmpty
  have waits : step State.reset = .next State.reset := step_idle rfl (by decide)
  exact ⟨rfl, rfl, ⟨rfl, rfl, rfl⟩, rfl, rfl, rfl, rfl, waits⟩

/-- Settles O2: the state after reset is the one a reset move yields from it. -/
theorem resetMeetsInvariant : Obligations.ResetMeetsInvariant := by
  unfold Obligations.ResetMeetsInvariant
  exact inv_hostReset State.reset

/-! ### The engine's turn -/

/-- Taking the turn changes the schedule only. -/
theorem engineTurn_eq_schedule {s u : State} (h : EngineTurn s u) :
    ∃ sched, u = { s with schedule := sched } := by
  obtain ⟨_, rfl⟩ | ⟨rest, _, rfl⟩ := h
  · exact ⟨_, rfl⟩
  · exact ⟨rest, rfl⟩

section
variable {s : State} {i : Instr} {tail : List Byte} (hb : s.status = .busy)
include hb

theorem engineTurn_start (hp : s.startPending = true)
    (hd : decode .host [s.op.setWidth 8] = .ok (i, tail)) :
    engineTurn s = .run i { s with startPending := false } := by
  simp only [engineTurn, hb, hp, ↓reduceIte, fetchOp, hd]

theorem engineTurn_header (hp : s.startPending = false) (hs : s.dstate = .readingHeader)
    (hd : decode .header s.inp.bytes = .ok (i, tail)) : engineTurn s = .run i s := by
  simp only [engineTurn, hb, hp, Bool.false_eq_true, ↓reduceIte, fetchStream, hs, hd]

theorem engineTurn_field (hp : s.startPending = false) (hs : s.dstate ≠ .readingHeader)
    (hlt : s.icur < s.ilen)
    (hd : decode (.field s.curC.toNat) (s.inp.bytes.drop s.icur) = .ok (i, tail)) :
    engineTurn s = .run i (withWord s) := by
  simp only [engineTurn, hb, hp, Bool.false_eq_true, ↓reduceIte, fetchStream, hlt, hd]

end

/-- Settles O4: on the engine's turn the step runs what the turn fetched. -/
theorem stepRunsDecodedInstruction : Obligations.StepRunsDecodedInstruction := by
  unfold Obligations.StepRunsDecodedInstruction
  intro s u i tail hu hb
  rw [step_engineTurn hu]
  obtain ⟨sched, rfl⟩ := engineTurn_eq_schedule hu
  have hb' : ({ s with schedule := sched } : State).status = .busy := hb
  exact ⟨fun hp hd => congrArg Fetch.outcome (engineTurn_start hb' hp hd),
    fun hp hs hd => congrArg Fetch.outcome (engineTurn_header hb' hp hs hd),
    fun hp hs hlt hd => congrArg Fetch.outcome (engineTurn_field hb' hp hs hlt hd)⟩

/-- Settles O5. -/
theorem idleEngineWaits : Obligations.IdleEngineWaits := by
  unfold Obligations.IdleEngineWaits
  intro s u hu hb
  obtain ⟨sched, rfl⟩ := engineTurn_eq_schedule hu
  obtain ⟨_, e⟩ | ⟨h, _⟩ | ⟨h, _⟩ := step_engineTurn_cases hu
  · exact e
  · exact absurd h hb
  · exact absurd h hb

/-! ### The host's moves -/

theorem hostWrite_idle {s : State} (h : s.status ≠ .busy) (t : State) : hostWrite s t = .next t := by
  obtain ⟨_, e⟩ | ⟨hb, _⟩ := hostWrite_cases s t
  · exact e
  · exact absurd hb h

/-- The code of a host operation is none of the reserved ones, and only FINDMATCH has code 2 (R74). -/
theorem code_of_hostOp : ∀ i ∈ hostOps, ∀ op : BitVec 4, encode i = [op.setWidth 8] →
    op ≠ 0#4 ∧ op.toNat ≤ 9 ∧ (op = 2#4 ↔ i = .findmatch) := by
  decide

theorem started_started (s : State) (op : BitVec 4) (fine : Bool) (rest : List Turn) :
    Started s (started op fine { s with schedule := rest }) op fine rest := by
  obtain ⟨hc, he, hp, _⟩ := settleRequest_cases { s with schedule := rest }
  exact ⟨hc, he, hp, rfl⟩

/-- A start of a host operation with no operation running: accepted, unless FINDMATCH finds its cursor beyond
the input. -/
theorem hostStart_hostOp {s : State} {i : Instr} {op : BitVec 4} (fine : Bool) (hb : s.status ≠ .busy)
    (hi : i ∈ hostOps) (h : encode i = [op.setWidth 8]) :
    (i = .findmatch ∧ cursorBeyond (settleRequest s) = true ∧
      hostStart op fine s = .refused .posBeyondInput) ∨
    ((i = .findmatch → cursorBeyond (settleRequest s) = false) ∧
      hostStart op fine s = .next (started op fine s)) := by
  obtain ⟨h0, h9, h2⟩ := code_of_hostOp i hi op h
  obtain ⟨hb', _⟩ | ⟨_, hr, _⟩ | ⟨_, hop, hcur, e⟩ | ⟨_, _, _, hcur, e⟩ := hostStart_cases op fine s
  · exact absurd hb' hb
  · exact absurd hr (not_or.2 ⟨h0, by omega⟩)
  · exact .inl ⟨h2.1 hop, hcur, e⟩
  · exact .inr ⟨fun hf => hcur (h2.2 hf), e⟩

/-- With C_ARG and POS_ARG written, a start does not change what FINDMATCH's refusal looks at. -/
theorem cursorBeyond_settleRequest {s : State} (hc : s.written.cArg = true) (hp : s.written.posArg = true) :
    cursorBeyond (settleRequest s) = true ↔ (1 ≤ s.cArg ∧ s.cArg ≤ 15) ∧ s.ilen < s.posArg := by
  rw [cursorBeyond_iff, settleRequest_cArg, settleRequest_posArg, hc, hp]
  exact Iff.rfl

/-- Settles O56: a write is the host's move as it stands; a start is refused for FINDMATCH's cursor only. -/
theorem hostRequestsOperation : Obligations.HostRequestsOperation := by
  unfold Obligations.HostRequestsOperation
  intro s m rest hs hb
  rw [step_host hs]
  have hb' : ({ s with schedule := rest } : State).status ≠ .busy := hb
  refine ⟨?_, ?_, ?_, ?_, ?_, ?_⟩
  · rintro n rfl
    exact hostWrite_idle hb' _
  · rintro v rfl
    exact hostWrite_idle hb' _
  · rintro n rfl
    exact hostWrite_idle hb' _
  · rintro bs rfl
    exact ⟨_, hostWrite_idle hb' _, Memory.bytes_ofBytes bs, Memory.wf_ofBytes bs,
      Memory.size_ofBytes bs, rfl⟩
  · rintro ts rfl
    exact hostWrite_idle hb' _
  · rintro op fine i rfl hi hcode
    have accepted := started_started s op fine rest
    obtain ⟨hf, hcur, e⟩ | ⟨hcur, e⟩ := hostStart_hostOp fine hb' hi hcode
    · refine ⟨fun h => absurd hf h, fun _ hc hp => ⟨fun _ => e, fun h => ?_⟩, fun _ => .inl e⟩
      exact absurd ((cursorBeyond_settleRequest hc hp).1 hcur) h
    · refine ⟨fun _ => ⟨_, e, accepted⟩, fun hf hc hp => ⟨fun h => ?_, fun _ => ⟨_, e, accepted⟩⟩,
        fun _ => .inr ⟨_, e, accepted⟩⟩
      have := (cursorBeyond_settleRequest (s := { s with schedule := rest }) hc hp).2 h
      simp [hcur hf] at this

/-! ### The host's reads -/

theorem readValue_eq (s : State) (r : ReadReg) :
    readValue s r = if isSpecified s r then contentOf s r else .unspecified := by
  cases r <;> rfl

theorem readValue_schedule (s : State) (sched : List Turn) (r : ReadReg) :
    readValue { s with schedule := sched } r = readValue s r := by
  cases r <;> rfl

/-- An allowed read answers the content where it is specified, else "unspecified". -/
theorem step_read {s : State} {r : ReadReg} {rest : List Turn} (hs : s.schedule = .host (.read r) :: rest)
    (h : r = .status ∨ s.status ≠ .busy) :
    step s = .next { s with
      schedule := rest
      hostSaw := some (if isSpecified s r then contentOf s r else .unspecified) } := by
  rw [step_host hs, ← readValue_eq, ← readValue_schedule s rest]
  obtain ⟨_, e⟩ | ⟨hr, hb, _⟩ := hostRead_cases r { s with schedule := rest }
  · exact e
  · exact absurd hb (h.resolve_left hr)

/-- After an error only OLEN is specified among the results and OUT, and it is 0 (R180, R202). -/
theorem read_after_raise (cause : Cause) (pos : Nat) (s : State) (sched : List Turn) {r : ReadReg}
    (hr : r ∈ [ReadReg.olen, .outBytes, .resC, .resExt, .resLen, .resDist, .resFlag, .ly]) :
    (if isSpecified { raise cause pos s with schedule := sched } r
      then contentOf { raise cause pos s with schedule := sched } r else .unspecified) =
    if r = .olen then .num 0 else .unspecified := by
  simp only [List.mem_cons, List.not_mem_nil, or_false] at hr
  rcases hr with rfl | rfl | rfl | rfl | rfl | rfl | rfl | rfl <;> rfl

/-- Settles O58. -/
theorem hostReads : Obligations.HostReads := by
  unfold Obligations.HostReads
  refine ⟨fun s r rest hs h => ?_, fun r rest hr => ?_, fun s cause pos r rest hr => ?_⟩
  · rw [step_read hs h]
    exact ⟨fun hspec => by rw [hspec]; rfl, fun hspec => by rw [hspec]; rfl⟩
  · rw [step_read rfl (.inr (by simp [State.reset]))]
    simp only [List.mem_cons, List.not_mem_nil, or_false] at hr
    rcases hr with rfl | rfl | rfl | rfl | rfl | rfl <;> rfl
  · rw [step_read rfl (.inr (by simp)), read_after_raise _ _ _ _ hr]

end Sys2Proof.Machine
end

section
/-! The forward copy of MATCH (R47): what the copy loop does, byte by byte, as reads see it. -/

namespace Sys2Proof.Machine

open Sys2Proof.Machine.Claims

/-- A finished forward copy of `k` bytes from index `src` of `m`: what it leaves in CP_SRC, CP_REM and OUT. -/
structure ForwardCopy (k src : Nat) (m : Memory) (r : CopyRegs) : Prop where
  left : r.left = 0
  srcEnd : r.src = src + k
  size : r.out.size = m.size + k
  frame : ∀ a, a < m.size ∨ m.size + k ≤ a → r.out.read a = m.read a
  written : ∀ q, q < k → (r.out.read (m.size + q)).isSome
  copied : ∀ q, q < k → r.out.read (m.size + q) = r.out.read (src + q)

/-- In canonical form exactly the indices below the size hold a byte. -/
theorem Memory.isSome_read {m : Memory} (h : m.wf) (a : Nat) : (m.read a).isSome ↔ a < m.size := by
  simp [Memory.read_eq h]

theorem Memory.read_eq_none {m : Memory} (h : m.wf) {a : Nat} (ha : m.size ≤ a) : m.read a = none := by
  rw [Memory.read_eq h, List.getElem?_eq_none (by simpa using ha)]

/-- The copy loop finishes when its source lies below the write position, or when it has nothing to copy. -/
theorem copyLoop_forward {m : Memory} (h : m.wf) {k src : Nat} (hs : src < m.size ∨ k = 0) :
    ForwardCopy k src m (copyLoop k src m) := by
  obtain hs | rfl := hs
  · obtain ⟨left, hsrc, wf, size, old, new⟩ := copyLoop_spec k src m h hs
    refine ⟨left, hsrc, size, fun a ha => ?_, fun q hq => ?_, fun q hq => ?_⟩
    · obtain ha | ha := ha
      · rw [Memory.read_eq wf, Memory.read_eq h, old a ha]
      · rw [Memory.read_eq_none wf (by omega), Memory.read_eq_none h (by omega)]
    · rw [Memory.isSome_read wf, size]
      omega
    · rw [Memory.read_eq wf, Memory.read_eq wf, new q hq]
  · exact ⟨rfl, rfl, rfl, fun _ _ => rfl, nofun, nofun⟩

/-- MATCH completes when its source is in OUT and its copy loop finishes. -/
theorem runMatch_of_left_zero (c : Nat) {len dist : Nat} {s : State} (hd : dist ≤ s.olen)
    (hleft : (copyLoop len (s.olen - dist) s.out).left = 0) :
    runMatch c len dist s = .next { s with
      out := (copyLoop len (s.olen - dist) s.out).out
      icur := s.icur + c
      fLen := len
      fDist := dist
      cpSrc := (copyLoop len (s.olen - dist) s.out).src
      cpRem := 0
      dstate := .readingControlField } := by
  obtain ⟨h, _⟩ | ⟨_, _, e⟩ | ⟨_, h, _⟩ := runMatch_cases c len dist s
  · omega
  · exact e
  · omega

/-- An instruction that runs `runMatch` at width `c` is a forward copy. -/
theorem matchCopies_of_runMatch {c wl wd : Nat} {mk : BitVec wl → BitVec wd → Instr}
    (run : ∀ len dist s, exec (mk len dist) s = runMatch c len.toNat dist.toNat s) :
    MatchCopies c mk := by
  intro len dist s hwf hd hcopy
  have hsrc : s.olen - dist.toNat < s.out.size ∨ len.toNat = 0 :=
    hcopy.imp_left fun hpos => Nat.sub_lt (Nat.lt_of_lt_of_le hpos hd) hpos
  obtain ⟨left, srcEnd, size, frame, written, copied⟩ := copyLoop_forward hwf hsrc
  rw [run, runMatch_of_left_zero c hd left]
  exact ⟨_, rfl, size, frame, fun q hq => ⟨written q hq, copied q hq⟩, rfl, rfl, rfl, srcEnd, rfl, rfl,
    ⟨rfl, rfl, rfl, rfl⟩, ⟨rfl, rfl, fun _ => rfl⟩, rfl, ⟨rfl, rfl, rfl, rfl, rfl⟩,
    ⟨rfl, rfl, rfl, rfl⟩, ⟨rfl, rfl, rfl, rfl, rfl, rfl, rfl⟩, rfl, rfl, rfl, rfl, rfl⟩

/-- Settles O39: all fifteen widths run the one `runMatch`. -/
theorem matchCompletes : Obligations.MatchCompletes := by
  unfold Obligations.MatchCompletes
  refine ⟨?_, ?_, ?_, ?_, ?_, ?_, ?_, ?_, ?_, ?_, ?_, ?_, ?_, ?_, ?_⟩ <;>
    exact matchCopies_of_runMatch fun _ _ _ => rfl

end Sys2Proof.Machine
end

section
/-! Decode and encode: the header's nibbles, a control field read back, and a control field packed again. -/

namespace Sys2Proof.Machine

open Sys2Proof.Machine.Claims

/-! ### The header byte (R60) -/

theorem toNat_ofNat_of_lt {k n : Nat} (h : n < 2 ^ k) : (BitVec.ofNat k n).toNat = n :=
  (BitVec.toNat_ofNat n k).trans (Nat.mod_eq_of_lt h)

theorem toNat_highNibble (b : Byte) : (b.extractLsb' 4 4).toNat = b.toNat / 16 := by
  have := b.isLt
  rw [BitVec.extractLsb'_toNat, Nat.shiftRight_eq_div_pow]
  omega

theorem toNat_lowNibble (b : Byte) : (b.extractLsb' 0 4).toNat = b.toNat % 16 := by
  rw [BitVec.extractLsb'_toNat, Nat.shiftRight_zero]

theorem toNat_headerByte {c : Nat} (h : c ≤ 15) (e : BitVec 4) :
    (BitVec.ofNat 8 (c * 16 + e.toNat)).toNat = c * 16 + e.toNat :=
  toNat_ofNat_of_lt (by have := e.isLt; omega)

theorem toNat_highNibble_headerByte {c : Nat} (h : c ≤ 15) (e : BitVec 4) :
    ((BitVec.ofNat 8 (c * 16 + e.toNat)).extractLsb' 4 4).toNat = c := by
  have := e.isLt
  rw [toNat_highNibble, toNat_headerByte h]
  omega

theorem lowNibble_headerByte {c : Nat} (h : c ≤ 15) (e : BitVec 4) :
    (BitVec.ofNat 8 (c * 16 + e.toNat)).extractLsb' 0 4 = e := by
  have := e.isLt
  apply BitVec.eq_of_toNat_eq
  rw [toNat_lowNibble, toNat_headerByte h]
  omega

theorem decodeHeader_magic (b : Byte) (rest : List Byte) : decodeHeader (magic :: b :: rest) =
    .ok (.hdr (b.extractLsb' 4 4) (b.extractLsb' 0 4), rest) := by
  rw [decodeHeader, if_pos rfl]

theorem decodeHeader_headerBytes (c e : BitVec 4) (rest : List Byte) :
    decodeHeader (headerBytes c.toNat e ++ rest) = .ok (.hdr c e, rest) := by
  have hc : c.toNat ≤ 15 := Nat.le_of_lt_succ c.isLt
  refine (decodeHeader_magic _ rest).trans ?_
  rw [lowNibble_headerByte hc, BitVec.eq_of_toNat_eq (toNat_highNibble_headerByte hc e)]

/-! ### A control field is read back (R63 to R65) -/

theorem decodeWord_litWord {c n : Nat} (hn : n < 2 ^ usableBits c) :
    decodeWord c (litWord n) = litInstr c n := by
  rw [decodeWord, if_pos (signalOf_litWord hn), litLenOf_litWord hn]

theorem decodeWord_matchWord {c n d : Nat} (hn : n < 2 ^ matchLengthBits c) (hd : d < 2 ^ distanceBits c) :
    decodeWord c (matchWord c n d) = matchInstr c n d := by
  rw [decodeWord, if_neg (by simp [signalOf_matchWord hn hd]), matchLenOf_matchWord hn hd,
    matchDistOf_matchWord hd]

theorem litWord_lt {c n : Nat} (hn : n < 2 ^ usableBits c) : litWord n < 2 ^ (8 * c) :=
  Nat.lt_of_lt_of_le hn (Nat.pow_le_pow_right Nat.two_pos (Nat.sub_le _ _))

theorem decodeField_be {c w : Nat} {i : Instr} (hw : w < 2 ^ (8 * c)) (h : decodeWord c w = .ok i)
    (rest : List Byte) : decodeField c (be c w ++ rest) = .ok (i, rest) := by
  have htake : (be c w ++ rest).take c = be c w := List.take_left' (be_length c w)
  have hdrop : (be c w ++ rest).drop c = rest := List.drop_left' (be_length c w)
  rw [decodeField, if_neg (by simp), htake, hdrop, fromBe_be, Nat.mod_eq_of_lt hw, h]

/-- Each row `LIT.C<c>` is read back from its encoding. -/
theorem decodeField_litWord {c n : Nat} {i : Instr} (hn : n < 2 ^ usableBits c) (h : litInstr c n = .ok i)
    (rest : List Byte) : decodeField c (be c (litWord n) ++ rest) = .ok (i, rest) :=
  decodeField_be (litWord_lt hn) ((decodeWord_litWord hn).trans h) rest

/-- Each row `MATCH.C<c>` is read back from its encoding. -/
theorem decodeField_matchWord {c n d : Nat} {i : Instr} (hc : 1 ≤ c) (hn : n < 2 ^ matchLengthBits c)
    (hd : d < 2 ^ distanceBits c) (h : matchInstr c n d = .ok i) (rest : List Byte) :
    decodeField c (be c (matchWord c n d) ++ rest) = .ok (i, rest) :=
  decodeField_be (matchWord_lt hc hn hd) ((decodeWord_matchWord hn hd).trans h) rest

/-- Settles O8: by the instruction's family; each row is what its family's control word decodes to. -/
theorem decodeOfEncode : Obligations.DecodeOfEncode := by
  unfold Obligations.DecodeOfEncode
  intro i rest _
  cases i with
  | hdr c e => exact decodeHeader_headerBytes c e rest
  | litC1 len | litC2 len | litC3 len | litC4 len | litC5 len | litC6 len | litC7 len | litC8 len
  | litC9 len | litC10 len | litC11 len | litC12 len | litC13 len | litC14 len | litC15 len =>
    exact decodeField_litWord len.isLt (by simp [litInstr]) rest
  | matchC1 len dist | matchC2 len dist | matchC3 len dist | matchC4 len dist | matchC5 len dist
  | matchC6 len dist | matchC7 len dist | matchC8 len dist | matchC9 len dist | matchC10 len dist
  | matchC11 len dist | matchC12 len dist | matchC13 len dist | matchC14 len dist
  | matchC15 len dist =>
    exact decodeField_matchWord (by decide) len.isLt dist.isLt (by simp [matchInstr]) rest
  | layout | findmatch | tokenize | genhdr | parsehdr | hdrchk | encode | compress | decompress => rfl

/-! ### A control field is packed again (R65, R69) -/

theorem litInstr_encode {c n : Nat} (h1 : 1 ≤ c) (h2 : c ≤ 15) (hn : n < 2 ^ usableBits c) :
    ∃ i, litInstr c n = .ok i ∧ encode i = be c (litWord n) ∧ i.mode = .field c := by
  interval_cases c <;>
    exact ⟨_, rfl, congrArg (fun k => be _ (litWord k)) (toNat_ofNat_of_lt hn), rfl⟩

theorem matchInstr_encode {c n d : Nat} (h1 : 1 ≤ c) (h2 : c ≤ 15) (hn : n < 2 ^ matchLengthBits c)
    (hd : d < 2 ^ distanceBits c) :
    ∃ i, matchInstr c n d = .ok i ∧ encode i = be c (matchWord c n d) ∧ i.mode = .field c := by
  interval_cases c <;>
    exact ⟨_, rfl, congrArg₂ (fun k l => be _ (matchWord _ k l)) (toNat_ofNat_of_lt hn)
      (toNat_ofNat_of_lt hd), rfl⟩

theorem litWord_litLenOf {c w : Nat} (h : signalOf c w = 0) : litWord (litLenOf c w) = w :=
  Nat.mod_eq_of_lt ((Nat.div_eq_zero_iff_lt (Nat.two_pow_pos _)).1 h)

/-- The signal bit, the length and the distance make up the control word. -/
theorem matchWord_matchFields {c w : Nat} (hc : 1 ≤ c) (hw : w < 2 ^ (8 * c)) (h : signalOf c w ≠ 0) :
    matchWord c (matchLenOf c w) (matchDistOf c w) = w := by
  have hsignal : signalOf c w = 1 := by
    have hlt : signalOf c w < 2 := Nat.div_lt_of_lt_mul
      (by rwa [← Nat.pow_succ, ← Nat.add_one, usableBits_succ hc])
    omega
  have hhigh : w / 2 ^ distanceBits c = 2 ^ matchLengthBits c + matchLenOf c w := by
    have hdiv : w / 2 ^ distanceBits c / 2 ^ matchLengthBits c = signalOf c w := by
      rw [Nat.div_div_eq_div_mul, ← Nat.pow_add, Nat.add_comm, fieldBits_add]
      rfl
    have := Nat.div_add_mod (w / 2 ^ distanceBits c) (2 ^ matchLengthBits c)
    rw [hdiv, hsignal, Nat.mul_one] at this
    exact this.symm
  calc matchWord c (matchLenOf c w) (matchDistOf c w)
      = 2 ^ distanceBits c * (2 ^ matchLengthBits c + matchLenOf c w) + w % 2 ^ distanceBits c := by
        rw [matchWord, ← fieldBits_add, Nat.pow_add, matchDistOf]
        ring
    _ = w := by rw [← hhigh, Nat.div_add_mod]

/-- Every control word of a legal width decodes, and the instruction packs to that word. -/
theorem decodeWord_encode {c w : Nat} (h1 : 1 ≤ c) (h2 : c ≤ 15) (hw : w < 2 ^ (8 * c)) :
    ∃ i, decodeWord c w = .ok i ∧ encode i = be c w ∧ i.mode = .field c := by
  unfold decodeWord
  split
  next h =>
    obtain ⟨i, hi, henc, hmode⟩ := litInstr_encode h1 h2 (litLenOf_lt c w)
    exact ⟨i, hi, by rw [henc, litWord_litLenOf h], hmode⟩
  next h =>
    obtain ⟨i, hi, henc, hmode⟩ := matchInstr_encode h1 h2 (matchLenOf_lt c w) (matchDistOf_lt c w)
    exact ⟨i, hi, by rw [henc, matchWord_matchFields h1 hw h], hmode⟩

/-- Settles O9: the control word that `C` bytes spell decodes, and packing it spells them again. -/
theorem encodeOfDecodedField : Obligations.EncodeOfDecodedField := by
  unfold Obligations.EncodeOfDecodedField
  intro c bs h1 h2 hlen
  have htake : (bs.take c).length = c := List.length_take_of_le hlen
  have hw : fromBe (bs.take c) < 2 ^ (8 * c) := by simpa [htake] using fromBe_lt (bs.take c)
  have hbe : be c (fromBe (bs.take c)) = bs.take c := by simpa [htake] using be_fromBe (bs.take c)
  obtain ⟨i, hi, henc, hmode⟩ := decodeWord_encode h1 h2 hw
  refine ⟨i, ?_, henc.trans hbe, hmode⟩
  rw [decode, decodeField, if_neg hlen.not_gt, hi]

/-! ### The header's rejects, samples and operation codes -/

theorem decodeHeader_badMagic {m : Byte} (h : m ≠ magic) (b : Byte) (rest : List Byte) :
    decodeHeader (m :: b :: rest) = .error .badMagic :=
  if_neg h

theorem decodeHeader_short {bs : List Byte} (h : bs.length < 2) : decodeHeader bs = .error .hdrShort := by
  match bs with
  | [] | [_] => rfl
  | _ :: _ :: _ => simp at h

/-- Settles O10. -/
theorem headerDecodesByNibbles : Obligations.HeaderDecodesByNibbles := by
  unfold Obligations.HeaderDecodesByNibbles
  refine ⟨fun b rest => ⟨_, _, decodeHeader_magic b rest, toNat_highNibble b, toNat_lowNibble b, ?_⟩,
    fun m b rest hm => decodeHeader_badMagic hm b rest, fun bs hlen => decodeHeader_short hlen⟩
  rw [← toNat_highNibble, Instr.wellFormed, decide_eq_false_iff_not, not_not]
  exact BitVec.toNat_eq

/-- Settles O11: nine closed words, each decoded by evaluation. -/
theorem decodeSamples : Obligations.DecodeSamples := by
  unfold Obligations.DecodeSamples
  decide

/-- Settles O12: the nine codes by evaluation; of what a start can do only the refusal of its code is left. -/
theorem operationCodes : Obligations.OperationCodes := by
  unfold Obligations.OperationCodes
  refine ⟨by decide, by decide, fun s op fine rest hs hb hop => ?_⟩
  rw [step_host hs]
  obtain ⟨hb', _⟩ | ⟨_, _, e⟩ | ⟨_, rfl, _, _⟩ | ⟨_, h0, h9, _, _⟩ :=
    hostStart_cases op fine { s with schedule := rest }
  · exact absurd hb' hb
  · exact e
  · exact absurd hop (by decide)
  · exact absurd hop (not_or.2 ⟨h0, by omega⟩)

end Sys2Proof.Machine
end

section
/-! DECOMPRESS of an encoded token sequence: tick by tick, OUT follows the expansion of the tokens read. -/

namespace Sys2Proof.Machine

open Sys2Proof.Machine.Claims

/-! ### What the tokens of a stream append (R94, R147) -/

/-- The token turns the output `o` into the output given: `expand`'s copy, to which R147 adds the no-op of
distance 0 and length 0. -/
inductive Appends (o : List Byte) : Token → List Byte → Prop where
  | lit (bs : List Byte) : Appends o (.lit bs) (o ++ bs)
  | copy {d n : Nat} (hd : d ≤ o.length) (hcopy : 1 ≤ d ∨ n = 0) :
      Appends o (.copy d n) (copyBack d n o)

/-- `streamOutput` from an output `o`. -/
def streamOutputFrom (o : List Byte) (ts : List Token) : Option (List Byte) :=
  expandFrom o (ts.filter fun tk => decide (tk ≠ .copy 0 0))

theorem streamOutput_eq (ts : List Token) : streamOutput ts = streamOutputFrom [] ts := rfl

theorem appends_of_expandToken {o o' : List Byte} {tk : Token} (h : expandToken o tk = some o') :
    Appends o tk o' := by
  cases tk with
  | lit bs => cases h; exact .lit bs
  | copy d n =>
    rw [expandToken, Option.ite_none_right_eq_some] at h
    obtain ⟨⟨hpos, hle⟩, h⟩ := h
    cases h
    exact .copy hle (.inl hpos)

theorem streamOutputFrom_cons {o o' : List Byte} {tk : Token} {ts : List Token}
    (h : streamOutputFrom o (tk :: ts) = some o') :
    ∃ o₁, Appends o tk o₁ ∧ streamOutputFrom o₁ ts = some o' := by
  by_cases hnoop : tk = .copy 0 0
  · subst hnoop
    exact ⟨o, .copy (Nat.zero_le _) (.inr rfl), by simpa [streamOutputFrom] using h⟩
  · simp only [streamOutputFrom, ne_eq, hnoop, not_false_eq_true, decide_true, List.filter_cons_of_pos,
      expandFrom] at h
    cases htk : expandToken o tk with
    | none => simp [htk] at h
    | some o₁ => exact ⟨o₁, appends_of_expandToken htk, by simpa [htk, streamOutputFrom] using h⟩

/-- The copy loop of R146 stores what `copyBack` of R94 appends. -/
theorem bytes_copyLoop (d k : Nat) : ∀ {m : Memory}, m.wf → d ≤ m.size → 1 ≤ d ∨ k = 0 →
    (copyLoop k (m.size - d) m).out.bytes = copyBack d k m.bytes := by
  induction k with
  | zero => exact fun _ _ _ => rfl
  | succ k ih =>
    intro m hwf hd hcopy
    have hlt : m.size - d < m.bytes.length := by rw [Memory.bytes_length]; omega
    have hread : m.read (m.size - d) = some (m.bytes.getD (m.bytes.length - d) 0#8) := by
      rw [Memory.read_eq hwf, List.getElem?_eq_getElem hlt, Memory.bytes_length,
        List.getD_eq_getElem _ _ hlt]
    have hnext := ih (Memory.wf_append hwf (m.bytes.getD (m.bytes.length - d) 0#8))
      (by rw [Memory.size_append]; omega) (by omega)
    rw [Memory.size_append, Memory.bytes_append, Nat.sub_add_comm hd] at hnext
    simp only [copyLoop, hread, copyBack]
    exact hnext

/-! ### The decoder amid a stream -/

/-- The decoder past its header: `ahead` is what is left of IN, `o` what OUT holds. -/
structure Decoding (c : Nat) (e : BitVec 4) (ahead o : List Byte) (s : State) : Prop where
  busy : s.status = .busy
  pastHeader : s.dstate ≠ .readingHeader
  width : s.curC.toNat = c
  code : s.curE = e
  ahead : s.inp.bytes.drop s.icur = ahead
  out_wf : s.out.wf
  out : s.out.bytes = o

section
variable {c : Nat} {e : BitVec 4} {ahead rest o : List Byte} {s : State}

theorem Decoding.left (h : Decoding c e ahead o s) : s.ilen - s.icur = ahead.length := by
  rw [← h.ahead, List.length_drop, Memory.bytes_length]
  rfl

theorem Decoding.drop_add {bs : List Byte} {k : Nat} (h : Decoding c e (bs ++ rest) o s)
    (hk : bs.length = k) : s.inp.bytes.drop (s.icur + k) = rest := by
  rw [← List.drop_drop, h.ahead, List.drop_left' hk]

theorem Decoding.olen (h : Decoding c e ahead o s) : s.olen = o.length := by
  rw [← h.out, Memory.bytes_length]
  rfl

/-- A tick with a whole control field ahead runs LIT or MATCH, by the control word (R143). -/
theorem Decoding.tick_field {w : Nat} (h : Decoding c e (be c w ++ rest) o s) (hc : 1 ≤ c)
    (hw : w < 2 ^ (8 * c)) : decoderTick s =
      if signalOf c w = 0 then runLit c (litLenOf c w) (withWord s)
      else runMatch c (matchLenOf c w) (matchDistOf c w) (withWord s) := by
  have hleft : s.ilen - s.icur = c + rest.length := by simpa using h.left
  have hne : s.curC ≠ 0#4 := fun h0 => by simp [← h.width, h0] at hc
  have hword : controlWord s = w := by
    rw [controlWord, Memory.slice, h.width, h.ahead, List.take_left' (be_length c w), fromBe_be,
      Nat.mod_eq_of_lt hw]
  rw [decoderTick_pastHeader h.pastHeader, if_pos (by omega), tokenTick_eq, hword, h.width,
    if_neg (by omega), if_neg hne]

theorem Decoding.tick_lit {bs : List Byte} (h : Decoding c e (encToken c (.lit bs) ++ rest) o s)
    (hc : 1 ≤ c) (hfit : FieldsHold c (.lit bs)) :
    ∃ t, decoderTick s = .next t ∧ Decoding c e rest (o ++ bs) t := by
  have hn : bs.length < 2 ^ usableBits c := hfit
  simp only [encToken, tokenWord, tokenPayload, List.append_assoc] at h
  have hdrop := h.drop_add (be_length c _)
  have hleft : s.ilen - s.icur = c + (bs.length + rest.length) := by simpa using h.left
  have hslice : s.inp.slice (s.icur + c) bs.length = bs := by
    rw [Memory.slice, hdrop, List.take_left' rfl]
  rw [h.tick_field hc (litWord_lt hn), if_pos (signalOf_litWord hn), litLenOf_litWord hn]
  obtain ⟨hshort, _⟩ | ⟨_, run⟩ := runLit_cases c bs.length (withWord s)
  · have hshort : s.ilen - (s.icur + c) < bs.length := hshort
    omega
  · refine ⟨_, run, h.busy, by simp, h.width, h.code, ?_, Memory.wf_appendAll _ h.out_wf, ?_⟩
    · show s.inp.bytes.drop (s.icur + c + bs.length) = rest
      rw [← List.drop_drop, hdrop, List.drop_left' rfl]
    · show (s.out.appendAll (s.inp.slice (s.icur + c) bs.length)).bytes = o ++ bs
      rw [hslice, Memory.bytes_appendAll, h.out]

theorem Decoding.tick_match {d n : Nat} (h : Decoding c e (encToken c (.copy d n) ++ rest) o s)
    (hc : 1 ≤ c) (hfit : FieldsHold c (.copy d n)) (hd : d ≤ o.length) (hcopy : 1 ≤ d ∨ n = 0) :
    ∃ t, decoderTick s = .next t ∧ Decoding c e rest (copyBack d n o) t := by
  obtain ⟨hdist, hlen⟩ := hfit
  simp only [encToken, tokenWord, tokenPayload, List.append_nil] at h
  have hle : d ≤ s.olen := by rwa [h.olen]
  have hforward := copyLoop_forward h.out_wf (k := n) (src := s.olen - d)
    (hcopy.imp_left fun hpos => by rw [← State.olen_eq_size]; omega)
  have run := runMatch_of_left_zero c (s := withWord s) hle hforward.left
  rw [h.tick_field hc (matchWord_lt hc hlen hdist), if_neg (by simp [signalOf_matchWord hlen hdist]),
    matchLenOf_matchWord hlen hdist, matchDistOf_matchWord hdist]
  refine ⟨_, run, h.busy, by simp, h.width, h.code, h.drop_add (be_length c _),
    Memory.wf_copyLoop _ _ h.out_wf, ?_⟩
  exact (bytes_copyLoop d n h.out_wf hle hcopy).trans (congrArg _ h.out)

/-- One tick reads one token, and OUT becomes what the token makes of it. -/
theorem Decoding.tick {tk : Token} {o₁ : List Byte} (h : Decoding c e (encToken c tk ++ rest) o s)
    (hc : 1 ≤ c) (hfit : FieldsHold c tk) (happ : Appends o tk o₁) :
    ∃ t, decoderTick s = .next t ∧ Decoding c e rest o₁ t := by
  cases happ with
  | lit bs => exact h.tick_lit hc hfit
  | copy hd hcopy => exact h.tick_match hc hfit hd hcopy

/-- When IN is consumed the run ends (R141). -/
theorem Decoding.runDecoder_end (h : Decoding c e [] o s) (k : Nat) :
    runDecoder (k + 1) s = .next (finishDecompress s) := by
  have hleft : s.ilen - s.icur = 0 := h.left
  have htick : decoderTick s = .next (finishDecompress s) := by
    rw [decoderTick_pastHeader h.pastHeader, if_neg (by omega)]
  rw [runDecoder_next h.busy htick, runDecoder_ended (by simp)]

end

/-- As many ticks as there are tokens read them all; what follows them in IN is still ahead. -/
theorem runDecoder_tokens {c : Nat} {e : BitVec 4} (hc : 1 ≤ c) (tail o' : List Byte) (ts : List Token) :
    ∀ {o : List Byte} {s : State}, Decoding c e (encodeTokens c ts ++ tail) o s →
      (∀ tk ∈ ts, FieldsHold c tk) → streamOutputFrom o ts = some o' →
      ∃ t, Decoding c e tail o' t ∧ ∀ k, runDecoder (ts.length + k) s = runDecoder k t := by
  induction ts with
  | nil =>
    intro o s h _ ho
    cases ho
    exact ⟨s, h, fun k => by rw [List.length_nil, Nat.zero_add]⟩
  | cons tk ts ih =>
    intro o s h hfit ho
    obtain ⟨htk, hts⟩ := List.forall_mem_cons.1 hfit
    obtain ⟨o₁, happ, ho₁⟩ := streamOutputFrom_cons ho
    rw [encodeTokens, List.flatMap_cons, List.append_assoc] at h
    obtain ⟨s₁, htick, h₁⟩ := h.tick hc htk happ
    obtain ⟨t, ht, hrun⟩ := ih h₁ hts ho₁
    refine ⟨t, ht, fun k => ?_⟩
    rw [List.length_cons, Nat.add_right_comm, runDecoder_next h.busy htick, hrun]

/-! ### The header and the whole run -/

/-- The header's tick of a legal header starts the stream with an empty OUT (R140 step 1). -/
theorem headerTick_headerBytes {s : State} {c : Nat} {e : BitVec 4} {rest : List Byte}
    (hb : s.status = .busy) (h1 : 1 ≤ c) (h2 : c ≤ 15) (hin : s.inp.bytes = headerBytes c e ++ rest) :
    ∃ t, headerTick s = .next t ∧ Decoding c e rest [] t := by
  have hwidth := toNat_highNibble_headerByte h2 e
  have hhdr : headerTick s = execHdr ((BitVec.ofNat 8 (c * 16 + e.toNat)).extractLsb' 4 4) e s := by
    simp only [headerTick, hin, headerBytes, List.cons_append, List.nil_append, ne_eq, not_true_eq_false,
      ↓reduceIte, lowNibble_headerByte h2]
  rw [hhdr]
  obtain ⟨h0, _⟩ | ⟨_, run⟩ := execHdr_cases ((BitVec.ofNat 8 (c * 16 + e.toNat)).extractLsb' 4 4) e s
  · rw [h0, BitVec.toNat_zero] at hwidth
    omega
  · exact ⟨_, run, hb, by simp, hwidth, rfl, by simp [hin, headerBytes], Memory.wf_empty, rfl⟩

theorem length_le_length_encodeTokens {c : Nat} (hc : 1 ≤ c) (ts : List Token) :
    ts.length ≤ (encodeTokens c ts).length := by
  induction ts with
  | nil => exact Nat.zero_le _
  | cons tk ts ih =>
    simp only [encodeTokens, List.flatMap_cons, List.length_append, encToken, be_length,
      List.length_cons] at ih ⊢
    omega

/-- No tick writes RUN (R28). -/
theorem runDecoder_run (k : Nat) : ∀ {s t : State}, runDecoder k s = .next t → t.run = s.run := by
  induction k with
  | zero => intro s t h; cases h; rfl
  | succ k ih =>
    intro s t h
    by_cases hb : s.status = .busy
    · obtain ⟨u, htick, _, _, _, _, _, _, _, _, _, _, _, hrun⟩ := decoderTick_frame s
      rw [runDecoder_next hb htick] at h
      exact (ih h).trans hrun
    · rw [runDecoder_ended hb] at h
      cases h
      rfl

/-- After the header and the tokens, what follows them in IN is ahead, and at least one tick is left. -/
theorem execDecompress_tokens {s : State} {c : Nat} {e : BitVec 4} {ts : List Token} {tail o : List Byte}
    (hfine : s.fine = false) (h1 : 1 ≤ c) (h2 : c ≤ 15)
    (hin : s.inp.bytes = headerBytes c e ++ (encodeTokens c ts ++ tail))
    (hfit : ∀ tk ∈ ts, FieldsHold c tk) (ho : streamOutput ts = some o) :
    ∃ t k, Decoding c e tail o t ∧ execDecompress s = runDecoder (k + 1) t := by
  obtain ⟨t₀, htick, h⟩ := headerTick_headerBytes (s := beginDecompress s) rfl h1 h2 hin
  obtain ⟨t, ht, hrun⟩ := runDecoder_tokens h1 tail o ts h hfit ho
  have hticks : ts.length ≤ s.ilen := by
    have hlen := congrArg List.length hin
    have := length_le_length_encodeTokens h1 ts
    rw [Memory.bytes_length, ← State.ilen_eq_size, List.length_append, List.length_append] at hlen
    omega
  refine ⟨t, s.ilen - ts.length, ht, ?_⟩
  rw [execDecompress_of_whole hfine,
    show s.ilen + 2 = ts.length + (s.ilen - ts.length + 1) + 1 by omega,
    runDecoder_next rfl ((decoderTick_readingHeader rfl).trans htick), hrun]

/-- Settles O42: the ticks of the tokens, then the tick that ends the run; its frame is that of every
instruction. -/
theorem decompressExpands : Obligations.DecompressExpands := by
  unfold Obligations.DecompressExpands
  intro s c e ts o hfine h1 h2 hin hfit ho
  obtain ⟨t, k, ht, hrun⟩ := execDecompress_tokens (tail := []) hfine h1 h2 (by simpa using hin) hfit ho
  have hexec : exec .decompress s = .next (finishDecompress t) := hrun.trans (ht.runDecoder_end k)
  obtain ⟨hreq, hinp, hhost, htok, hly⟩ := execKeepsOperands .decompress s _ hexec
  have hrunReg : (finishDecompress t).run = s.run :=
    runDecoder_run (s := beginDecompress s) _ ((execDecompress_of_whole hfine).symm.trans hexec)
  exact ⟨_, hexec, ⟨rfl, rfl, rfl, rfl⟩, ht.out, ht.width, ht.code, rfl, hreq, hinp, htok (by decide),
    hhost, hly (by decide) (by simp), hrunReg⟩

end Sys2Proof.Machine
end

section
/-! LAYOUT (R80 to R87): the two field widths for every width, and the record the operation writes. -/

namespace Sys2Proof

/-! ### Field widths, a rule per case (R82, R87) -/

@[simp] theorem matchLengthBits_one : matchLengthBits 1 = 3 := rfl

@[simp] theorem distanceBits_one : distanceBits 1 = 4 := rfl

theorem matchLengthBits_of_ne_one {c : Nat} (h : c ≠ 1) : matchLengthBits c = usableBits c / 3 := if_neg h

theorem distanceBits_of_ne_one {c : Nat} (h : c ≠ 1) :
    distanceBits c = usableBits c - matchLengthBits c := if_neg h

/-- Two bits to spare, and so `C < 2 ^ match_length_bits - 1`, because `n < 2 ^ n`. -/
theorem add_two_le_matchLengthBits {c : Nat} (hc : 1 ≤ c) : c + 2 ≤ matchLengthBits c := by
  by_cases h : c = 1
  · simp [h]
  · rw [matchLengthBits_of_ne_one h]
    have := usableBits_succ hc
    omega

/-- The special split has 3 < 4; any other gives the length a third of the usable bits. -/
theorem matchLengthBits_lt_distanceBits {c : Nat} (hc : 1 ≤ c) : matchLengthBits c < distanceBits c := by
  by_cases h : c = 1
  · simp [h]
  · rw [distanceBits_of_ne_one h, matchLengthBits_of_ne_one h]
    have := usableBits_succ hc
    omega

end Sys2Proof

namespace Sys2Proof.Machine

open Sys2Proof.Machine.Claims

/-! ### Capacities (R83, R87) -/

theorem lt_maxMatchLength {c : Nat} (hc : 1 ≤ c) : c < (layout c).maxMatchLength := by
  have hbits := add_two_le_matchLengthBits hc
  have hpow : matchLengthBits c < 2 ^ matchLengthBits c := Nat.lt_two_pow_self
  show c < 2 ^ matchLengthBits c - 1
  omega

theorem maxMatchLength_lt_maxDistance {c : Nat} (hc : 1 ≤ c) :
    (layout c).maxMatchLength < (layout c).maxDistance := by
  have hpow : 2 ^ matchLengthBits c < 2 ^ distanceBits c :=
    Nat.pow_lt_pow_right Nat.one_lt_two (matchLengthBits_lt_distanceBits hc)
  exact Nat.sub_lt_sub_right Nat.one_le_two_pow hpow

/-! ### The obligations -/

/-- Settles O13: of the two ends of LAYOUT a legal width leaves the completion, with `layout(C_ARG)` in the
layout registers; the frame is that of every instruction. -/
theorem layoutWritesRecord : Obligations.LayoutWritesRecord := by
  unfold Obligations.LayoutWritesRecord
  intro s h1 h2
  obtain ⟨hbad, _⟩ | ⟨_, _, run⟩ := execLayout_cases s
  · omega
  · obtain ⟨hreq, hinp, hhost, htok, _⟩ := execKeepsOperands .layout s _ run
    have hspecial (h : s.cArg = 1) :
        (layout s.cArg).matchLengthBits = 3 ∧ (layout s.cArg).distanceBits = 4 := by
      rw [h]
      exact ⟨matchLengthBits_one, distanceBits_one⟩
    have hthird (h : s.cArg ≠ 1) :
        (layout s.cArg).matchLengthBits = (layout s.cArg).usableBits / 3 ∧
          (layout s.cArg).distanceBits = (layout s.cArg).usableBits - (layout s.cArg).matchLengthBits :=
      ⟨matchLengthBits_of_ne_one h, distanceBits_of_ne_one h⟩
    exact ⟨_, run, ⟨rfl, rfl, rfl, rfl⟩, rfl, rfl, rfl, hspecial, hthird, rfl, rfl, rfl, rfl, rfl, rfl,
      hreq, hinp, ⟨rfl, rfl, fun _ => rfl⟩, htok (by decide), hhost,
      ⟨rfl, rfl, rfl, rfl, rfl, rfl, rfl, rfl, rfl, rfl⟩⟩

/-- Settles O14: the fifteen rows are evaluated. -/
theorem layoutTable : Obligations.LayoutTable := by
  unfold Obligations.LayoutTable
  rfl

/-- Settles O15: the facts of R87 hold of every width from 1 on. -/
theorem layoutWidthFacts : Obligations.LayoutWidthFacts := by
  unfold Obligations.LayoutWidthFacts
  intro c hc _
  have hpos : 1 ≤ matchLengthBits c := by
    have := add_two_le_matchLengthBits hc
    omega
  exact ⟨fieldBits_add c, rfl, hpos, matchLengthBits_lt_distanceBits hc, rfl,
    maxMatchLength_lt_maxDistance hc, rfl, lt_maxMatchLength hc⟩

end Sys2Proof.Machine
end

section
/-! FINDMATCH (R100 to R106): what the search answers, in terms of occurrences in the window, and how the
operation ends. -/

namespace Sys2Proof.Machine

open Sys2Proof.Machine.Claims

/-! ### The search for one length, as occurrences in the window (R102) -/

theorem occurs_window_iff {d : List Byte} {w0 i j p : Nat} :
    Occurs d w0 i j p ↔ w0 ≤ p ∧ p + j ≤ i ∧ occurs d p i j = true := by
  rw [occurs_iff]
  rfl

/-- An occurrence of a length is one of every shorter length, at the same start. -/
theorem occurs_shorten {d : List Byte} {w0 i j k p : Nat} (h : Occurs d w0 i j p) (hk : k ≤ j) :
    Occurs d w0 i k p := by
  obtain ⟨hw, hend, heq⟩ := h
  exact ⟨hw, by omega, fun q hq => heq q (by omega)⟩

/-- The starts the search tries are those of the window: one that it finds is the closest occurrence. -/
theorem closest_of_lastOccurrence {d : List Byte} {w0 i j p : Nat}
    (h : lastOccurrence d w0 i j (candidates w0 i j) = some p) :
    Occurs d w0 i j p ∧ ∀ p', Occurs d w0 i j p' → p' ≤ p := by
  obtain ⟨hw, hlt, hocc, hlast⟩ := lastOccurrence_some h
  unfold candidates at hlt hlast
  refine ⟨occurs_window_iff.2 ⟨hw, by omega, hocc⟩, fun p' h' => ?_⟩
  obtain ⟨_, hend', hocc'⟩ := occurs_window_iff.1 h'
  by_contra hp
  have hnot := hlast p' (by omega) (by omega)
  simp [hocc'] at hnot

/-- Where the search finds no start, the length does not occur in the window. -/
theorem not_occurs_of_lastOccurrence {d : List Byte} {w0 i j : Nat}
    (h : lastOccurrence d w0 i j (candidates w0 i j) = none) (p : Nat) : ¬ Occurs d w0 i j p := by
  intro hp
  obtain ⟨hw, hend, hocc⟩ := occurs_window_iff.1 hp
  have hnot := lastOccurrence_none.1 h (p - w0) (by unfold candidates; omega)
  rw [Nat.add_sub_cancel' hw] at hnot
  simp [hocc] at hnot

/-! ### What `findmatch` answers (R102, R103) -/

/-- Everything `findmatch` can answer: no match, where not even one byte occurs in the window; or the closest
occurrence of a length, where the next length is out of range or does not occur. -/
theorem findmatch_cases (d : List Byte) (i : Nat) (l : BitLayout) :
    (findmatch d i l = (0, 0) ∧
      (0 < lookaheadSize l d.length i → ∀ p, ¬ Occurs d (windowStart l i) i 1 p)) ∨
    ∃ len p, findmatch d i l = (len, i - p) ∧ 1 ≤ len ∧ len ≤ lookaheadSize l d.length i ∧
      Occurs d (windowStart l i) i len p ∧ (∀ p', Occurs d (windowStart l i) i len p' → p' ≤ p) ∧
      (len < lookaheadSize l d.length i → ∀ p', ¬ Occurs d (windowStart l i) i (len + 1) p') := by
  obtain ⟨hbest, hnone⟩ | ⟨len, p, hbest, hpos, hlt, hsome, hnext⟩ :=
    grow_spec d (windowStart l i) i (lookaheadSize l d.length i) 1 (0, 0)
  · exact .inl ⟨hbest, fun hm => not_occurs_of_lastOccurrence (hnone hm)⟩
  · obtain ⟨hocc, hclosest⟩ := closest_of_lastOccurrence hsome
    exact .inr ⟨len, p, hbest, hpos, by omega, hocc, hclosest,
      fun hm => not_occurs_of_lastOccurrence (hnext (by omega))⟩

/-! ### The obligations -/

/-- Settles O18: a length beyond the one answered would occur together with the next length, at which the
search stopped. -/
theorem findmatchLongestClosest : Obligations.FindmatchLongestClosest := by
  unfold Obligations.FindmatchLongestClosest
  rintro d c i _ _ _ len dist _ _ hfound rfl rfl
  obtain ⟨hbest, hnone⟩ | ⟨len', p, hbest, hpos, hle, hocc, hclosest, hnext⟩ :=
    findmatch_cases d i (layout c)
  · obtain ⟨rfl, rfl⟩ := Prod.mk.inj (hfound.symm.trans hbest)
    refine ⟨Nat.zero_le _, fun _ => rfl, fun j hj hm ⟨p, hp⟩ => ?_, fun h => by omega⟩
    exact absurd (occurs_shorten hp hj) (hnone (Nat.lt_of_lt_of_le hj hm) p)
  · obtain ⟨rfl, rfl⟩ := Prod.mk.inj (hfound.symm.trans hbest)
    refine ⟨hle, fun h => by omega, fun j _ hm ⟨q, hq⟩ => ?_, fun _ => ?_⟩
    · by_contra hj
      have hlong : len < j := by omega
      exact hnext (Nat.lt_of_lt_of_le hlong hm) q (occurs_shorten hq hlong)
    · have ⟨_, hend, _⟩ := hocc
      rw [Nat.sub_sub_self (by omega : p ≤ i)]
      exact ⟨Nat.sub_le i p, hocc, hclosest⟩

/-- Settles O19: the occurrence lies in the window, so its start is at least `len` and at most the window's
size before the cursor. -/
theorem findmatchResultRange : Obligations.FindmatchResultRange := by
  unfold Obligations.FindmatchResultRange
  intro d c i len dist _ _ _ hfound
  obtain ⟨hbest, _⟩ | ⟨len', p, hbest, hpos, hle, ⟨hw, hend, _⟩, _, _⟩ := findmatch_cases d i (layout c)
  · obtain ⟨rfl, rfl⟩ := Prod.mk.inj (hfound.symm.trans hbest)
    exact ⟨fun h => by omega, fun _ => rfl⟩
  · obtain ⟨rfl, rfl⟩ := Prod.mk.inj (hfound.symm.trans hbest)
    have hdist : i - p ≤ (layout c).maxDistance := tsub_le_iff_tsub_le.1 hw
    have hmax : len ≤ (layout c).maxMatchLength := hle.trans (Nat.min_le_left _ _)
    exact ⟨fun _ => ⟨hle, hmax, by omega, Nat.le_min.2 ⟨Nat.sub_le i p, hdist⟩⟩, fun h => by omega⟩

/-- Settles O17: of the three ends of FINDMATCH a legal width and cursor leave the completion; the frame is
that of every instruction. -/
theorem findmatchCompletes : Obligations.FindmatchCompletes := by
  unfold Obligations.FindmatchCompletes
  intro s h1 h2 hp
  obtain ⟨hbad, _⟩ | ⟨_, _, hbeyond, _⟩ | ⟨_, _, _, run⟩ := execFindmatch_cases s
  · omega
  · omega
  · obtain ⟨hreq, hinp, hhost, htok, hly⟩ := execKeepsOperands .findmatch s _ run
    exact ⟨_, run, ⟨rfl, rfl, rfl, rfl⟩, rfl, rfl, hreq, hinp, ⟨rfl, rfl, fun _ => rfl⟩,
      htok (by decide), hhost, rfl, ⟨rfl, rfl, rfl, rfl, rfl, rfl, rfl, rfl, rfl, rfl⟩⟩

/-- Settles O20: of the three ends of FINDMATCH a legal width with the cursor beyond the input leaves the
refusal. -/
theorem findmatchRefusesBeyondInput : Obligations.FindmatchRefusesBeyondInput := by
  unfold Obligations.FindmatchRefusesBeyondInput
  intro s h1 h2 hbeyond
  obtain ⟨hbad, _⟩ | ⟨_, _, _, run⟩ | ⟨_, _, hp, _⟩ := execFindmatch_cases s
  · omega
  · exact run
  · omega

end Sys2Proof.Machine
end

section
/-! TOKENIZE (R110 to R115): what a match the loop accepts copies, what one pass keeps, and so what the
whole loop emits. -/

namespace Sys2Proof.Machine

open Sys2Proof.Machine.Claims

/-! ### The tokens of the output (R114) -/

/-- The tokenizer's bounds on a token, tighter than those of R92. -/
def InBounds (c : Nat) : Token → Prop
  | .lit bs => 1 ≤ bs.length ∧ bs.length ≤ (layout c).maxLiteralRun
  | .copy dist len => c < len ∧ len ≤ (layout c).maxMatchLength ∧ len ≤ dist ∧ dist ≤ (layout c).maxDistance

theorem InBounds.wf {c : Nat} {tk : Token} (h : InBounds c tk) : tk.wf (layout c) = true := by
  cases tk with
  | lit bs =>
    obtain ⟨_, hmax⟩ := h
    exact decide_eq_true hmax
  | copy dist len =>
    obtain ⟨hlong, hmax, hle, hdist⟩ := h
    exact decide_eq_true ⟨by omega, hdist, hmax⟩

/-- Of two adjacent Literals the first is full; any other pair may stand in the output. -/
def MayPrecede (c : Nat) : Token → Token → Prop
  | .lit bs, .lit _ => bs.length = (layout c).maxLiteralRun
  | _, _ => True

theorem mayPrecede_copy (c : Nat) (tk : Token) (dist len : Nat) : MayPrecede c tk (.copy dist len) := by
  cases tk <;> trivial

/-- The shape that R114 gives the whole output. -/
structure Shaped (c : Nat) (ts : List Token) : Prop where
  inBounds : ∀ tk ∈ ts, InBounds c tk
  adjacent : ts.IsChain (MayPrecede c)

/-- The last of the tokens is not a Literal with room for another byte. -/
def LitMayFollow (c : Nat) (ts : List Token) : Prop := ∀ tk ∈ ts.getLast?, ∀ bs, MayPrecede c tk (.lit bs)

theorem litMayFollow_concat_copy (c : Nat) (ts : List Token) (dist len : Nat) :
    LitMayFollow c (ts ++ [.copy dist len]) := by
  intro tk htk bs
  obtain rfl : Token.copy dist len = tk := by simpa using htk
  trivial

theorem litMayFollow_concat_lit {c : Nat} {bs : List Byte} (ts : List Token)
    (h : bs.length = (layout c).maxLiteralRun) : LitMayFollow c (ts ++ [.lit bs]) := by
  intro tk htk _
  obtain rfl : Token.lit bs = tk := by simpa using htk
  exact h

theorem Shaped.concat {c : Nat} {ts : List Token} {tk : Token} (h : Shaped c ts) (hb : InBounds c tk)
    (hlast : ∀ a ∈ ts.getLast?, MayPrecede c a tk) : Shaped c (ts ++ [tk]) where
  inBounds a ha := by
    obtain ha | ha := List.mem_append.1 ha
    · exact h.inBounds a ha
    · exact List.mem_singleton.1 ha ▸ hb
  adjacent := List.isChain_append.2 ⟨h.adjacent, .singleton tk, by simpa using hlast⟩

/-! ### The pending run (R111) -/

@[simp] theorem flushRun_zero (d : List Byte) (e : Nat) (ts : List Token) : flushRun d e 0 ts = ts := rfl

theorem flushRun_of_pos {d : List Byte} {e run : Nat} {ts : List Token} (h : 0 < run) :
    flushRun d e run ts = ts ++ [.lit (sliceOf d (e - run) run)] := if_pos h

theorem length_sliceOf {d : List Byte} {a n : Nat} (h : a + n ≤ d.length) : (sliceOf d a n).length = n := by
  simp only [sliceOf, List.length_take, List.length_drop]
  omega

theorem inBounds_lit_sliceOf {d : List Byte} {c a n : Nat} (h : a + n ≤ d.length) (hpos : 1 ≤ n)
    (hmax : n ≤ (layout c).maxLiteralRun) : InBounds c (.lit (sliceOf d a n)) := by
  simp only [InBounds, length_sliceOf h]
  exact ⟨hpos, hmax⟩

theorem Shaped.flushRun {d : List Byte} {c e run : Nat} {ts : List Token} (h : Shaped c ts)
    (hend : LitMayFollow c ts) (hrun : run ≤ e) (he : e ≤ d.length) (hmax : run ≤ (layout c).maxLiteralRun) :
    Shaped c (flushRun d e run ts) := by
  obtain rfl | hpos := Nat.eq_zero_or_pos run
  · exact h
  · rw [flushRun_of_pos hpos]
    exact h.concat (inBounds_lit_sliceOf (by omega) hpos hmax) fun a ha => hend a ha _

/-! ### What a token appends to the expansion (R94) -/

theorem expandFrom_concat {o o' : List Byte} {ts : List Token} (tk : Token) (h : expandFrom o ts = some o') :
    expandFrom o (ts ++ [tk]) = expandToken o' tk := by
  induction ts generalizing o with
  | nil =>
    cases h
    cases htk : expandToken o' tk <;> simp [expandFrom, htk]
  | cons a ts ih =>
    cases ha : expandToken o a with
    | none => simp [expandFrom, ha] at h
    | some o₁ => simpa [expandFrom, ha] using ih (by simpa [expandFrom, ha] using h)

theorem expand_concat_lit {d : List Byte} {a : Nat} {ts : List Token} (n : Nat)
    (h : expand ts = some (d.take a)) : expand (ts ++ [.lit (sliceOf d a n)]) = some (d.take (a + n)) := by
  rw [List.take_add]
  exact expandFrom_concat _ h

theorem expand_flushRun {d : List Byte} {e run : Nat} {ts : List Token} (hrun : run ≤ e)
    (h : expand ts = some (d.take (e - run))) : expand (flushRun d e run ts) = some (d.take e) := by
  obtain rfl | hpos := Nat.eq_zero_or_pos run
  · exact h
  · rw [flushRun_of_pos hpos, expand_concat_lit run h, Nat.sub_add_cancel hrun]

/-- Where each of the next `n` bytes repeats the one `dist` back, the copy appends these bytes. -/
theorem copyBack_take {d : List Byte} {dist : Nat} (hpos : 1 ≤ dist) (n : Nat) : ∀ {i : Nat}, dist ≤ i →
    i + n ≤ d.length → (∀ k, i ≤ k → k < i + n → d[k - dist]? = d[k]?) →
    copyBack dist n (d.take i) = d.take (i + n) := by
  induction n with
  | zero => exact fun _ _ _ => rfl
  | succ n ih =>
    intro i hi hend hrep
    have hlen : (d.take i).length = i := List.length_take_of_le (by omega)
    have hbyte : (d.take i).getD (i - dist) 0#8 = d[i] := by
      rw [List.getD_eq_getElem?_getD, List.getElem?_take_of_lt (by omega), hrep i le_rfl (by omega),
        List.getElem?_eq_getElem (by omega), Option.getD_some]
    rw [copyBack, hlen, hbyte, List.take_concat_get', ih (by omega) (by omega) fun k h1 h2 =>
      hrep k (by omega) (by omega), Nat.add_right_comm, Nat.add_assoc]

theorem expand_concat_copy {d : List Byte} {i dist n : Nat} {ts : List Token} (hpos : 1 ≤ dist)
    (hi : dist ≤ i) (hend : i + n ≤ d.length) (hrep : ∀ k, i ≤ k → k < i + n → d[k - dist]? = d[k]?)
    (h : expand ts = some (d.take i)) : expand (ts ++ [.copy dist n]) = some (d.take (i + n)) := by
  have hlen : (d.take i).length = i := List.length_take_of_le (by omega)
  refine (expandFrom_concat _ h).trans ?_
  rw [expandToken, hlen, if_pos ⟨hpos, hi⟩, copyBack_take hpos n hi hend hrep]

/-! ### One pass of the loop (R111, R112) -/

/-- The cursor is in the input, the pending run behind it, and the run is not full. -/
structure InInput (d : List Byte) (c : Nat) (r : TokRegs) : Prop where
  icur_le : r.icur ≤ d.length
  run_le : r.run ≤ r.icur
  run_lt : r.run < (layout c).maxLiteralRun

/-- A Literal of one byte fits every width. -/
theorem maxLiteralRun_pos {c : Nat} (hc : 1 ≤ c) : 0 < (layout c).maxLiteralRun := by
  have hbits := usableBits_succ hc
  exact Nat.sub_pos_of_lt (Nat.one_lt_two_pow (by omega))

/-- A match longer than `c` at `i`: its token is in bounds, it copies bytes that stand before `i`, and these
are the bytes that follow `i`. -/
structure Accepted (d : List Byte) (c i dist len : Nat) : Prop where
  inBounds : InBounds c (.copy dist len)
  dist_le : dist ≤ i
  end_le : i + len ≤ d.length
  repeats : ∀ k, i ≤ k → k < i + len → d[k - dist]? = d[k]?

section
variable {d : List Byte} {c : Nat} (h1 : 1 ≤ c) (h2 : c ≤ 15)
include h1 h2

/-- The match finder's answer is such a match once it passes the threshold. -/
theorem accepted_of_findmatch {i len dist : Nat} (hi : i ≤ d.length)
    (hfound : findmatch d i (layout c) = (len, dist)) (hlong : c < len) : Accepted d c i dist len := by
  obtain ⟨hrange, _⟩ := findmatchResultRange d c i len dist h1 h2 hi hfound
  obtain ⟨hwin, hmax, hle, hdist⟩ := hrange (by omega)
  obtain ⟨_, _, _, hclosest⟩ := findmatchLongestClosest d c i h1 h2 hi len dist _ _ hfound rfl rfl
  obtain ⟨hback, ⟨_, _, heq⟩, _⟩ := hclosest (by omega)
  refine ⟨⟨hlong, hmax, hle, hdist.trans (Nat.min_le_right _ _)⟩, hback, ?_, fun k hk hlt => ?_⟩
  · have := hwin.trans (Nat.min_le_right _ _)
    omega
  · have hq := heq (k - i) (by omega)
    have hsrc : i - dist + (k - i) = k - dist := by omega
    rwa [Nat.add_sub_of_le hk, hsrc] at hq

/-- Everything a pass can do inside the input: accept a match, flush the run that its byte fills, or take
the byte into the run. -/
theorem tokPass_inInput_cases {r : TokRegs} (h : InInput d c r) :
    (∃ dist len, Accepted d c r.icur dist len ∧ tokPass d c (layout c) r =
      ⟨r.icur + len, 0, flushRun d r.icur r.run r.toks ++ [.copy dist len]⟩) ∨
    (r.run + 1 = (layout c).maxLiteralRun ∧ tokPass d c (layout c) r =
      ⟨r.icur + 1, 0, r.toks ++ [.lit (sliceOf d (r.icur - r.run) (r.run + 1))]⟩) ∨
    (r.run + 1 < (layout c).maxLiteralRun ∧ tokPass d c (layout c) r = ⟨r.icur + 1, r.run + 1, r.toks⟩) := by
  have hroom := h.run_lt
  obtain ⟨hlong, e⟩ | ⟨_, hfull, e⟩ | ⟨_, hne, e⟩ := tokPass_cases d c (layout c) r
  · exact .inl ⟨_, _, accepted_of_findmatch h1 h2 h.icur_le rfl hlong, e⟩
  · exact .inr (.inl ⟨hfull, e⟩)
  · exact .inr (.inr ⟨by omega, e⟩)

theorem tokPass_inInput {r : TokRegs} (h : InInput d c r) (hlt : r.icur < d.length) :
    InInput d c (tokPass d c (layout c) r) := by
  have hpos := maxLiteralRun_pos h1
  have hrun := h.run_le
  obtain ⟨_, _, hm, e⟩ | ⟨_, e⟩ | ⟨hroom, e⟩ := tokPass_inInput_cases h1 h2 h <;> rw [e]
  · exact ⟨hm.end_le, Nat.zero_le _, hpos⟩
  · exact ⟨hlt, Nat.zero_le _, hpos⟩
  · exact ⟨hlt, Nat.succ_le_succ hrun, hroom⟩

/-- What holds at the start and is kept by every pass inside the input holds when the loop has ended. -/
theorem tokRun_invariant {P : TokRegs → Prop} (hinit : P ⟨0, 0, []⟩)
    (hpass : ∀ r, InInput d c r → r.icur < d.length → P r → P (tokPass d c (layout c) r)) :
    InInput d c (tokRun d c) ∧ P (tokRun d c) :=
  tokLoop_invariant (P := fun r => InInput d c r ∧ P r)
    (fun r ⟨hin, hp⟩ hlt => ⟨tokPass_inInput h1 h2 hin hlt, hpass r hin hlt hp⟩) d.length ⟨0, 0, []⟩
    ⟨⟨Nat.zero_le _, le_rfl, maxLiteralRun_pos h1⟩, hinit⟩

/-- The loop ends at the end of the input. -/
theorem tokRun_icur : (tokRun d c).icur = d.length := by
  obtain ⟨hin, _⟩ := tokRun_invariant (d := d) h1 h2 (P := fun _ => True) trivial fun _ _ _ _ => trivial
  exact Nat.le_antisymm hin.icur_le (tokLoop_consumes d c (layout c) d.length ⟨0, 0, []⟩ (by simp))

/-- The output is the tokens emitted and the pending run at the cursor. -/
theorem tokenize_eq : tokenize d c = flushRun d (tokRun d c).icur (tokRun d c).run (tokRun d c).toks := by
  rw [tokRun_icur h1 h2, tokenize]

end

/-! ### What the passes keep -/

/-- The tokens emitted expand to the input before the pending run. -/
def ExpandsToRun (d : List Byte) (r : TokRegs) : Prop := expand r.toks = some (d.take (r.icur - r.run))

/-- The tokens emitted have the shape of R114, and the next may be a Literal. -/
def ShapedSoFar (c : Nat) (r : TokRegs) : Prop := Shaped c r.toks ∧ LitMayFollow c r.toks

/-- Before the first token every byte read is in the pending run; the first token is a Literal. -/
def StartsWithLit (r : TokRegs) : Prop :=
  (r.toks = [] ∧ r.run = r.icur) ∨ ∃ bs ts, r.toks = .lit bs :: ts

theorem StartsWithLit.flushRun {r : TokRegs} (h : StartsWithLit r) (d : List Byte) (hpos : 0 < r.icur) :
    ∃ bs ts, flushRun d r.icur r.run r.toks = .lit bs :: ts := by
  obtain ⟨htoks, hrun⟩ | ⟨bs, ts, htoks⟩ := h
  · exact ⟨_, [], by rw [flushRun_of_pos (hrun ▸ hpos), htoks]; rfl⟩
  · obtain hzero | hrun := Nat.eq_zero_or_pos r.run
    · exact ⟨bs, ts, by rw [hzero, flushRun_zero, htoks]⟩
    · exact ⟨bs, _, by rw [flushRun_of_pos hrun, htoks]; rfl⟩

section
variable {d : List Byte} {c : Nat} (h1 : 1 ≤ c) (h2 : c ≤ 15) {r : TokRegs} (h : InInput d c r)
include h1 h2 h

theorem tokPass_expandsToRun (hexp : ExpandsToRun d r) : ExpandsToRun d (tokPass d c (layout c) r) := by
  unfold ExpandsToRun at hexp ⊢
  have hrun := h.run_le
  obtain ⟨dist, len, hm, e⟩ | ⟨_, e⟩ | ⟨_, e⟩ := tokPass_inInput_cases h1 h2 h <;> rw [e]
  · obtain ⟨hlong, _, hle, _⟩ := hm.inBounds
    exact expand_concat_copy (by omega) hm.dist_le hm.end_le hm.repeats (expand_flushRun hrun hexp)
  · have hlit := expand_concat_lit (r.run + 1) hexp
    have hend : r.icur - r.run + (r.run + 1) = r.icur + 1 := by omega
    rwa [hend] at hlit
  · rw [hexp, Nat.add_sub_add_right]

theorem tokPass_shapedSoFar (hlt : r.icur < d.length) (hshape : ShapedSoFar c r) :
    ShapedSoFar c (tokPass d c (layout c) r) := by
  obtain ⟨hsh, hend⟩ := hshape
  have hrun := h.run_le
  obtain ⟨dist, len, hm, e⟩ | ⟨hfull, e⟩ | ⟨_, e⟩ := tokPass_inInput_cases h1 h2 h <;> rw [e]
  · have hflush := hsh.flushRun hend hrun h.icur_le h.run_lt.le
    exact ⟨hflush.concat hm.inBounds fun a _ => mayPrecede_copy c a dist len,
      litMayFollow_concat_copy c _ dist len⟩
  · have hin : r.icur - r.run + (r.run + 1) ≤ d.length := by omega
    exact ⟨hsh.concat (inBounds_lit_sliceOf hin (by omega) hfull.le) fun a ha => hend a ha _,
      litMayFollow_concat_lit _ ((length_sliceOf hin).trans hfull)⟩
  · exact ⟨hsh, hend⟩

/-- At the start of the input there is nothing to match. -/
theorem tokPass_startsWithLit (hstart : StartsWithLit r) : StartsWithLit (tokPass d c (layout c) r) := by
  obtain ⟨dist, len, hm, e⟩ | ⟨_, e⟩ | ⟨_, e⟩ := tokPass_inInput_cases h1 h2 h <;> rw [e]
  · obtain ⟨hlong, _, hle, _⟩ := hm.inBounds
    have hback := hm.dist_le
    obtain ⟨bs, ts, hflush⟩ := hstart.flushRun d (by omega)
    exact .inr ⟨bs, ts ++ [.copy dist len], by rw [hflush]; rfl⟩
  · obtain ⟨htoks, _⟩ | ⟨bs, ts, htoks⟩ := hstart
    · exact .inr ⟨_, [], by rw [htoks]; rfl⟩
    · exact .inr ⟨bs, _, by rw [htoks]; rfl⟩
  · obtain ⟨htoks, hrun⟩ | hlit := hstart
    · exact .inl ⟨htoks, congrArg (· + 1) hrun⟩
    · exact .inr hlit

end

/-! ### The obligations -/

/-- Settles O22: the tokens emitted always expand to the input before the pending run, and the last flush
appends the run. -/
theorem tokenizeExpandsToInput : Obligations.TokenizeExpandsToInput := by
  unfold Obligations.TokenizeExpandsToInput
  intro d c h1 h2
  obtain ⟨hin, hexp⟩ := tokRun_invariant (P := ExpandsToRun d) h1 h2 rfl
    fun r hin _ hexp => tokPass_expandsToRun h1 h2 hin hexp
  rw [tokenize_eq h1 h2, expand_flushRun hin.run_le hexp, tokRun_icur h1 h2, List.take_length]

theorem tokenize_shaped {d : List Byte} {c : Nat} (h1 : 1 ≤ c) (h2 : c ≤ 15) : Shaped c (tokenize d c) := by
  obtain ⟨hin, hsh, hend⟩ := tokRun_invariant (d := d) (P := ShapedSoFar c) h1 h2
    ⟨⟨by simp, .nil⟩, by simp [LitMayFollow]⟩ fun r hin hlt hshape => tokPass_shapedSoFar h1 h2 hin hlt hshape
  rw [tokenize_eq h1 h2]
  exact hsh.flushRun hend hin.run_le hin.icur_le hin.run_lt.le

/-- Settles O23: a token is emitted in bounds, and a Literal that is not full is followed by a Match or by
the end of the input. -/
theorem tokenizeOutputShape : Obligations.TokenizeOutputShape := by
  unfold Obligations.TokenizeOutputShape
  intro d c h1 h2
  obtain ⟨hbounds, hadj⟩ := tokenize_shaped (d := d) h1 h2
  refine ⟨fun bs => hbounds (.lit bs), fun dist len => hbounds (.copy dist len),
    fun tk htk => (hbounds tk htk).wf, fun k a b ha hb => ?_⟩
  obtain ⟨hk, ha⟩ := List.getElem?_eq_some_iff.1 ha
  obtain ⟨hk', hb⟩ := List.getElem?_eq_some_iff.1 hb
  have hpair := hadj.getElem k hk'
  rwa [ha, hb] at hpair

/-- Settles O24: an empty input needs no pass; on any other the cursor has moved when the last flush is
made. -/
theorem tokenizeStartsWithLiteral : Obligations.TokenizeStartsWithLiteral := by
  unfold Obligations.TokenizeStartsWithLiteral
  intro d c h1 h2
  refine ⟨fun hd => by subst hd; rfl, fun hd => ?_⟩
  obtain ⟨_, hstart⟩ := tokRun_invariant (d := d) (P := StartsWithLit) h1 h2 (.inl ⟨rfl, rfl⟩)
    fun r hin _ hstart => tokPass_startsWithLit h1 h2 hin hstart
  rw [tokenize_eq h1 h2]
  exact hstart.flushRun d (by rw [tokRun_icur h1 h2]; exact List.length_pos_iff.2 hd)

/-- Settles O21: of the two ends of TOKENIZE a legal width leaves the completion; the frame is that of every
instruction. -/
theorem tokenizeCompletes : Obligations.TokenizeCompletes := by
  unfold Obligations.TokenizeCompletes
  intro s h1 h2
  obtain ⟨hbad, _⟩ | ⟨_, _, run⟩ := execTokenize_cases s
  · omega
  · obtain ⟨hreq, hinp, hhost, _, hly⟩ := execKeepsOperands .tokenize s _ run
    exact ⟨_, run, ⟨rfl, rfl, rfl, rfl⟩, rfl, rfl, hreq, hinp, ⟨rfl, rfl, fun _ => rfl⟩, hhost,
      hly (by decide) nofun, rfl, ⟨rfl, rfl, rfl, rfl, rfl, rfl, rfl⟩⟩

end Sys2Proof.Machine
end

section
/-! The header codec (R120 to R126): an extension string and its code determine each other, and
the three operations on the two header bytes. -/

namespace Sys2Proof.Machine

open Sys2Proof.Machine.Claims

/-! ### The extension table (R10) -/

theorem entryBelow_eq_true {v : List Byte} {k : Nat} :
    entryBelow v k = true ↔ ∃ j, 1 ≤ j ∧ j ≤ k ∧ Config.rawExtTable j = v := by
  induction k with
  | zero => exact ⟨nofun, fun ⟨j, h1, h0, _⟩ => by omega⟩
  | succ k ih =>
    rw [entryBelow, Bool.or_eq_true, beq_iff_eq, ih]
    constructor
    · rintro (h | ⟨j, h1, hk, h⟩)
      · exact ⟨k + 1, by omega, le_rfl, h⟩
      · exact ⟨j, h1, by omega, h⟩
    · rintro ⟨j, h1, hk, h⟩
      obtain rfl | hlt := hk.eq_or_lt
      · exact .inl h
      · exact .inr ⟨j, h1, by omega, h⟩

@[simp] theorem extTable_zero : extTable 0 = [] := rfl

/-- A non-empty entry is the one printed for its code, and no lower code has the same. -/
theorem extTable_ne_nil {e : Nat} (h : extTable e ≠ []) :
    1 ≤ e ∧ extTable e = Config.rawExtTable e ∧
      ∀ j, 1 ≤ j → j < e → Config.rawExtTable j ≠ Config.rawExtTable e := by
  cases e with
  | zero => exact absurd rfl h
  | succ k =>
    have hnew : ¬ entryBelow (Config.rawExtTable (k + 1)) k = true := fun hrep => h (if_pos hrep)
    exact ⟨by omega, if_neg hnew,
      fun j h1 hj he => hnew (entryBelow_eq_true.2 ⟨j, h1, by omega, he⟩)⟩

theorem extTable_injective {e e' : Nat} (h : extTable e = extTable e') (hne : extTable e ≠ []) : e = e' := by
  obtain ⟨h1, hraw, hnew⟩ := extTable_ne_nil hne
  obtain ⟨h1', hraw', hnew'⟩ := extTable_ne_nil (h ▸ hne)
  have heq : Config.rawExtTable e = Config.rawExtTable e' := hraw.symm.trans (h.trans hraw')
  obtain hlt | rfl | hgt := Nat.lt_trichotomy e e'
  · exact absurd heq (hnew' e h1 hlt)
  · rfl
  · exact absurd heq.symm (hnew e' h1' hgt)

/-! ### The code of a string (R121) -/

theorem searchExt_cases (s : List Byte) (k : Nat) : ∀ e,
    (searchExt s e k = 0 ∧ ∀ j, e ≤ j → j < e + k → extTable j ≠ s) ∨
    (e ≤ searchExt s e k ∧ searchExt s e k < e + k ∧ extTable (searchExt s e k) = s) := by
  induction k with
  | zero => exact fun e => .inl ⟨rfl, fun j _ _ => by omega⟩
  | succ k ih =>
    intro e
    by_cases he : extTable e = s
    · rw [searchExt, if_pos he]
      exact .inr ⟨le_rfl, by omega, he⟩
    · rw [searchExt, if_neg he]
      obtain ⟨h0, hnone⟩ | ⟨hle, hlt, hfound⟩ := ih (e + 1)
      · refine .inl ⟨h0, fun j hj hlt => ?_⟩
        obtain rfl | hgt := hj.eq_or_lt
        · exact he
        · exact hnone j hgt (by omega)
      · exact .inr ⟨by omega, by omega, hfound⟩

/-- Everything `ext_to_code` can answer: 0 for a string that is no non-empty entry, else the code of the
entry. -/
theorem extToCode_cases (v : List Byte) :
    ((v = [] ∨ ∀ e, 1 ≤ e → e ≤ 15 → extTable e ≠ v) ∧ extToCode v = 0#4) ∨
    (v ≠ [] ∧ 1 ≤ (extToCode v).toNat ∧ extTable (extToCode v).toNat = v) := by
  by_cases hv : v = []
  · exact .inl ⟨.inl hv, if_pos hv⟩
  · rw [extToCode, if_neg hv]
    obtain ⟨h0, hnone⟩ | ⟨h1, hlt, hfound⟩ := searchExt_cases v 15 1
    · exact .inl ⟨.inr fun e h1 h15 => hnone e h1 (by omega), by rw [h0]⟩
    · rw [toNat_ofNat_of_lt (k := 4) (by omega)]
      exact .inr ⟨hv, h1, hfound⟩

/-- Settles O26: the search answers the code of an entry with that string, and of two equal non-empty entries
one would repeat a lower code's. -/
theorem extensionLookup : Obligations.ExtensionLookup := by
  unfold Obligations.ExtensionLookup
  refine ⟨extTable_zero, fun e e' => extTable_injective, if_pos rfl, fun v e hv h1 h15 he => ?_,
    fun v hnone => ?_⟩
  · obtain ⟨hv' | hnone, _⟩ | ⟨_, _, hfound⟩ := extToCode_cases v
    · exact absurd hv' hv
    · exact absurd he (hnone e h1 h15)
    · exact extTable_injective (hfound.trans he.symm) (by rwa [hfound])
  · obtain ⟨_, h0⟩ | ⟨_, h1, hfound⟩ := extToCode_cases v
    · exact h0
    · exact absurd hfound (hnone _ h1 (Nat.le_of_lt_succ (extToCode v).isLt))

/-- Settles O27: the code of a string is an entry's with that string, or 0, whose entry is empty. -/
theorem extensionRoundTrip : Obligations.ExtensionRoundTrip := by
  unfold Obligations.ExtensionRoundTrip
  refine ⟨fun _ => rfl, rfl, fun v => ?_⟩
  obtain ⟨hno, h0⟩ | ⟨hv, h1, hfound⟩ := extToCode_cases v
  · rw [h0]
    refine ⟨fun ⟨hv, e, h1, h15, he⟩ => ?_, fun _ => rfl⟩
    obtain hv' | hnone := hno
    · exact absurd hv' hv
    · exact absurd he (hnone e h1 h15)
  · exact ⟨fun _ => hfound,
      fun hno => absurd ⟨hv, _, h1, Nat.le_of_lt_succ (extToCode v).isLt, hfound⟩ hno⟩

/-! ### GENHDR and PARSEHDR (R120, R123, R125) -/

/-- Settles O25: of the two ends of GENHDR a legal width leaves the completion; the frame is that of every
instruction. -/
theorem genhdrCompletes : Obligations.GenhdrCompletes := by
  unfold Obligations.GenhdrCompletes
  intro s h1 h2
  obtain ⟨hbad, _⟩ | ⟨_, _, run⟩ := execGenhdr_cases s
  · omega
  · obtain ⟨hreq, hinp, hhost, htok, _⟩ := execKeepsOperands .genhdr s _ run
    exact ⟨_, _, run, ⟨rfl, rfl, rfl, rfl⟩, Memory.bytes_ofBytes _, toNat_headerByte h2 _,
      Memory.size_ofBytes _, rfl, rfl, hreq, hinp, htok (by decide), hhost, rfl,
      ⟨rfl, rfl, rfl, rfl, rfl, rfl, rfl, rfl, rfl, rfl⟩⟩

theorem parseHeader_magic {b : Byte} (h : 1 ≤ b.toNat / 16) (rest : List Byte) :
    parseHeader (magic :: b :: rest) = .ok (b.extractLsb' 4 4, b.extractLsb' 0 4) := by
  have hwidth : b.extractLsb' 4 4 ≠ 0#4 := by
    intro h0
    rw [← toNat_highNibble, h0] at h
    exact absurd h (by decide)
  simp only [parseHeader, ne_eq, not_true_eq_false, ↓reduceIte, hwidth]

/-- Settles O28: of the two ends of PARSEHDR a legal header leaves the completion; the frame is that of every
instruction. -/
theorem parsehdrCompletes : Obligations.ParsehdrCompletes := by
  unfold Obligations.ParsehdrCompletes
  intro s b rest hin hb
  have hparse := parseHeader_magic hb rest
  rw [← hin] at hparse
  obtain ⟨_, _, herr, _⟩ | ⟨c, e, hok, run⟩ := execParsehdr_cases s
  · exact nomatch herr.symm.trans hparse
  · obtain ⟨rfl, rfl⟩ : c = b.extractLsb' 4 4 ∧ e = b.extractLsb' 0 4 := by simpa using hok.symm.trans hparse
    obtain ⟨hreq, hinp, hhost, htok, _⟩ := execKeepsOperands .parsehdr s _ run
    have hrest : s.inp.bytes.drop 2 = rest := by rw [hin]; rfl
    have holen : (s.inp.bytes.drop 2).length = s.ilen - 2 := by
      rw [List.length_drop, Memory.bytes_length, State.ilen_eq_size]
    exact ⟨_, run, ⟨rfl, rfl, rfl, rfl⟩, toNat_highNibble b, toNat_lowNibble b,
      (Memory.bytes_ofBytes _).trans hrest, (Memory.size_ofBytes _).trans holen, rfl, hreq, hinp,
      htok (by decide), hhost, rfl, ⟨rfl, rfl, rfl, rfl, rfl, rfl, rfl, rfl, rfl, rfl⟩⟩

/-- Settles O30: the byte GENHDR writes has the width and the code as its nibbles, which PARSEHDR reads
back. -/
theorem headerDeterminism : Obligations.HeaderDeterminism := by
  unfold Obligations.HeaderDeterminism
  intro s h1 h2
  obtain ⟨t, b, hgen, _, hout, hb, _⟩ := genhdrCompletes s h1 h2
  refine ⟨t, hgen, fun u hu => ?_⟩
  rw [hout] at hu
  have he := (extToCode s.extArg).isLt
  obtain ⟨v, hparse, hdone, hc, hext, hrest, _⟩ := parsehdrCompletes u b [] hu (by omega)
  have hcode : v.resExt = extToCode s.extArg := BitVec.eq_of_toNat_eq (by omega)
  refine ⟨v, hparse, hdone, by omega, by rw [hcode], ?_⟩
  rw [State.olen_eq_size, ← Memory.bytes_length, hrest, List.length_nil]

/-! ### HDRCHK (R126) -/

/-- Settles O31: HDRCHK has one end, and its flag is the conjunction of the two tests; the frame is that of
every instruction. -/
theorem hdrchkCompletes : Obligations.HdrchkCompletes := by
  unfold Obligations.HdrchkCompletes
  intro s
  obtain ⟨hreq, hinp, hhost, htok, _⟩ := execKeepsOperands .hdrchk s _ rfl
  refine ⟨_, rfl, ⟨rfl, rfl, rfl, rfl⟩, fun hlen hmagic => ?_, fun hfail => ?_, rfl, hreq, hinp,
    ⟨rfl, rfl, fun _ => rfl⟩, htok (by decide), hhost, rfl,
    ⟨rfl, rfl, rfl, rfl, rfl, rfl, rfl, rfl, rfl, rfl⟩⟩
  · exact if_pos ⟨hlen, List.head?_eq_getElem?.trans hmagic⟩
  · refine if_neg fun ⟨hlen, hmagic⟩ => ?_
    obtain hshort | hother := hfail
    · omega
    · exact hother (List.head?_eq_getElem?.symm.trans hmagic)

end Sys2Proof.Machine
end

section
/-! The stream encoder (R130 to R134): the bytes of a token and of a token sequence, the tokens that fit,
and ENCODE. -/

namespace Sys2Proof.Machine

open Sys2Proof.Machine.Claims

/-! ### The bytes of a token (R131 to R133) -/

theorem encToken_lit (c : Nat) (bs : List Byte) : encToken c (.lit bs) = be c bs.length ++ bs := rfl

theorem encToken_copy (c d n : Nat) :
    encToken c (.copy d n) = be c (2 ^ (8 * c - 1) + n * 2 ^ distanceBits c + d) := List.append_nil _

theorem encToken_length (c : Nat) (tk : Token) : (encToken c tk).length = c + literalBytes tk := by
  cases tk with
  | lit bs => rw [encToken_lit, List.length_append, be_length, literalBytes]
  | copy d n => rw [encToken_copy, be_length, literalBytes, Nat.add_zero]

theorem encodeTokens_cons (c : Nat) (tk : Token) (ts : List Token) :
    encodeTokens c (tk :: ts) = encToken c tk ++ encodeTokens c ts := List.flatMap_cons

theorem encodeTokens_length (c : Nat) (ts : List Token) :
    (encodeTokens c ts).length = c * ts.length + (ts.map literalBytes).sum := by
  induction ts with
  | nil => rfl
  | cons tk ts ih =>
    rw [encodeTokens_cons, List.length_append, encToken_length, ih, List.length_cons, List.map_cons,
      List.sum_cons, Nat.mul_succ]
    omega

/-- Settles O36: the length is a sum over the tokens, each its control field and its literal bytes. -/
theorem encodedLength : Obligations.EncodedLength := by
  unfold Obligations.EncodedLength
  exact fun c ts us => ⟨encodeTokens_length c ts, List.flatMap_append, rfl⟩

/-! ### The tokens that fit (R92, R134) -/

/-- R92's test against the layout's maxima is that the fields fit the control field. -/
theorem token_wf_layout_iff {c : Nat} {tk : Token} : tk.wf (layout c) = true ↔ FieldsFit c tk := by
  cases tk with
  | lit bs =>
    rw [Token.wf, decide_eq_true_iff]
    exact Nat.le_sub_one_iff_lt (Nat.two_pow_pos _)
  | copy d n =>
    rw [Token.wf, decide_eq_true_iff]
    exact and_congr_right' (and_congr (Nat.le_sub_one_iff_lt (Nat.two_pow_pos _))
      (Nat.le_sub_one_iff_lt (Nat.two_pow_pos _)))

theorem firstBad_eq_none_iff {l : BitLayout} {ts : List Token} :
    ∀ {k : Nat}, firstBad l k ts = none ↔ ∀ tk ∈ ts, tk.wf l = true := by
  induction ts with
  | nil => exact ⟨nofun, fun _ => rfl⟩
  | cons tk ts ih =>
    intro k
    rw [firstBad, List.forall_mem_cons]
    by_cases h : tk.wf l = true
    · rw [if_pos h, ih, and_iff_right h]
    · rw [if_neg h]
      exact ⟨nofun, fun hall => absurd hall.1 h⟩

/-! ### ENCODE -/

/-- Settles O34: of the three ends of ENCODE a legal width and tokens that fit leave the completion; the
frame is that of every instruction. -/
theorem encodeCompletes : Obligations.EncodeCompletes := by
  unfold Obligations.EncodeCompletes
  intro s h1 h2 hfit
  have hnone : firstBad (layout s.cArg) 0 s.tok = none :=
    firstBad_eq_none_iff.2 fun tk htk => token_wf_layout_iff.2 (hfit tk htk)
  obtain ⟨hbad, _⟩ | ⟨_, _, k, hk, _⟩ | ⟨_, _, _, run⟩ := execEncode_cases s
  · omega
  · exact nomatch hnone.symm.trans hk
  · obtain ⟨hreq, hinp, hhost, htok, _⟩ := execKeepsOperands .encode s _ run
    refine ⟨_, run, ⟨rfl, rfl, rfl, rfl⟩, (Memory.bytes_ofBytes _).trans ?_, rfl, hreq, hinp,
      htok (by decide), hhost, rfl, rfl, rfl, ⟨rfl, rfl, rfl, rfl, rfl, rfl, rfl⟩⟩
    refine congrArg s.tok.flatMap (funext fun tk => ?_)
    cases tk with
    | lit bs => exact encToken_lit s.cArg bs
    | copy d n => exact encToken_copy s.cArg d n

end Sys2Proof.Machine
end

section
/-! The stream decoder's instructions and how DECOMPRESS ends: HDR, LIT of every width, the end of the
stream, the position of each stream error, and that every run ends. -/

namespace Sys2Proof.Machine

open Sys2Proof.Machine.Claims

/-! ### The error entry (R180) -/

/-- An instruction other than TOKENIZE that raises an error makes the entry of R180, TOK unchanged: the record
is `raise`'s, the frame that of every instruction. -/
theorem exec_raises {i : Instr} {s u : State} {cause : Cause} {pos : Nat} (hi : i ≠ .tokenize)
    (h : exec i s = .next (raise cause pos u)) :
    ∃ t, exec i s = .next t ∧ ErrorEntry s t cause pos ∧ t.tok = s.tok := by
  obtain ⟨hreq, hin, hhost, htok, _⟩ := execKeepsOperands i s _ h
  exact ⟨_, h, ⟨rfl, ⟨rfl, rfl, rfl⟩, rfl, rfl, hreq, hin, hhost⟩, htok hi⟩

/-! ### HDR (R140 step 1, R175) -/

/-- Settles O32: of the two ends of HDR a legal width leaves the completion. -/
theorem hdrCompletes : Obligations.HdrCompletes := by
  unfold Obligations.HdrCompletes
  intro s c e hc
  obtain ⟨h0, _⟩ | ⟨_, run⟩ := execHdr_cases c e s
  · exact absurd h0 hc
  · exact ⟨_, run, rfl, rfl, rfl, rfl, rfl, ⟨rfl, rfl, rfl, rfl⟩, ⟨rfl, rfl, fun _ => rfl⟩, rfl,
      ⟨rfl, rfl, rfl, rfl, rfl⟩, ⟨rfl, rfl, rfl, rfl⟩, ⟨rfl, rfl, rfl, rfl, rfl, rfl, rfl⟩, rfl, rfl, rfl,
      rfl, rfl, rfl, rfl⟩

/-- Settles O33: of the two ends of HDR a width of 0 leaves the error. -/
theorem hdrZeroWidthRaises : Obligations.HdrZeroWidthRaises := by
  unfold Obligations.HdrZeroWidthRaises
  intro s e
  obtain ⟨_, run⟩ | ⟨h0, _⟩ := execHdr_cases 0#4 e s
  · exact exec_raises (i := .hdr 0#4 e) nofun run
  · exact absurd rfl h0

/-! ### LIT (R144, R145) -/

theorem Memory.length_slice {m : Memory} {a n : Nat} (h : a + n ≤ m.size) : (m.slice a n).length = n := by
  rw [Memory.slice, List.length_take, List.length_drop, Memory.bytes_length]
  omega

theorem runLit_of_whole (c : Nat) {len : Nat} {s : State} (h : s.icur + c + len ≤ s.ilen) :
    runLit c len s = .next { s with
      out := s.out.appendAll (s.inp.slice (s.icur + c) len)
      icur := s.icur + c + len
      fLen := len
      dstate := .readingControlField } := by
  obtain ⟨hshort, _⟩ | ⟨_, run⟩ := runLit_cases c len s
  · omega
  · exact run

theorem runLit_of_truncated {c len : Nat} {s : State} (h : s.ilen - (s.icur + c) < len) :
    ∃ u, runLit c len s = .next (raise .litTrunc s.icur u) := by
  obtain ⟨_, run⟩ | ⟨hwhole, _⟩ := runLit_cases c len s
  · exact ⟨_, run⟩
  · omega

section
variable {c w : Nat} {mk : BitVec w → Instr} (run : ∀ len s, exec (mk len) s = runLit c len.toNat s)
include run

/-- An instruction that runs `runLit` at width `c` appends its payload. -/
theorem litAppends_of_runLit : LitAppends c mk := by
  intro len s h
  have hslice : (s.inp.slice (s.icur + c) len.toNat).length = len.toNat := Memory.length_slice h
  have hsize := Memory.size_appendAll s.out (s.inp.slice (s.icur + c) len.toNat)
  have hread := fun a => Memory.read_appendAll_other (s.inp.slice (s.icur + c) len.toNat) s.out (a := a)
  rw [hslice] at hsize hread
  rw [run, runLit_of_whole c h]
  exact ⟨_, rfl, Memory.bytes_appendAll _ _, hsize, hread, rfl, rfl, rfl, ⟨rfl, rfl, rfl, rfl⟩,
    ⟨rfl, rfl, fun _ => rfl⟩, rfl, ⟨rfl, rfl, rfl, rfl, rfl⟩, ⟨rfl, rfl, rfl, rfl⟩,
    ⟨rfl, rfl, rfl, rfl, rfl, rfl, rfl⟩, rfl, rfl, rfl, rfl, rfl, rfl, rfl, rfl⟩

/-- An instruction that runs `runLit` at width `c` raises LIT_TRUNC when its payload is cut short. -/
theorem litTruncated_of_runLit (hmk : ∀ len, mk len ≠ .tokenize) : LitTruncated c mk := by
  intro len s h
  obtain ⟨u, hraise⟩ := runLit_of_truncated h
  exact exec_raises (hmk len) ((run len s).trans hraise)

end

/-- Settles O37: all fifteen widths run the one `runLit`. -/
theorem litCompletes : Obligations.LitCompletes := by
  unfold Obligations.LitCompletes
  refine ⟨?_, ?_, ?_, ?_, ?_, ?_, ?_, ?_, ?_, ?_, ?_, ?_, ?_, ?_, ?_⟩ <;>
    exact litAppends_of_runLit fun _ _ => rfl

/-- Settles O38: all fifteen widths run the one `runLit`. -/
theorem litTruncatedRaises : Obligations.LitTruncatedRaises := by
  unfold Obligations.LitTruncatedRaises
  refine ⟨?_, ?_, ?_, ?_, ?_, ?_, ?_, ?_, ?_, ?_, ?_, ?_, ?_, ?_, ?_⟩ <;>
    exact litTruncated_of_runLit (fun _ _ => rfl) nofun

/-! ### The end of the stream (R140 step 3, R141) -/

theorem decoderTick_atEnd {s : State} (hd : s.dstate ≠ .readingHeader) (h : s.ilen ≤ s.icur) :
    decoderTick s = .next (finishDecompress s) :=
  (decoderTick_pastHeader hd).trans (if_neg h.not_gt)

/-- Settles O6: of what the engine's turn can do only the tick of the running DECOMPRESS is left, and with IN
consumed that tick finishes. -/
theorem streamEndsAtInputEnd : Obligations.StreamEndsAtInputEnd := by
  unfold Obligations.StreamEndsAtInputEnd
  intro s u hu hb hp hd hend
  obtain ⟨sched, rfl⟩ := engineTurn_eq_schedule hu
  obtain ⟨hidle, _⟩ | ⟨_, hstart, _⟩ | ⟨_, _, e⟩ := step_engineTurn_cases hu
  · exact absurd hb hidle
  · exact nomatch hp.symm.trans hstart
  · exact ⟨_, e.trans (decoderTick_atEnd hd hend), ⟨rfl, rfl, rfl, rfl⟩, rfl, rfl, rfl,
      ⟨rfl, rfl, rfl, rfl⟩, ⟨rfl, rfl, fun _ => rfl⟩, ⟨rfl, rfl, fun _ => rfl⟩, rfl,
      ⟨rfl, rfl, rfl, rfl, rfl⟩, rfl, rfl, rfl, rfl, ⟨rfl, rfl, rfl, rfl, rfl, rfl, rfl⟩⟩

/-! ### Every run ends (R148) -/

/-- The outcome is a next state in which the operation has ended. -/
def Ends (o : Out) : Prop := ∃ t, o = .next t ∧ (t.status = .done ∨ t.status = .error)

/-- A run ends if its next tick raises an error, or moves the cursor on in a stream from which the run ends. -/
theorem runDecoder_ends_of_tick {s : State} {o : Out} (hb : s.status = .busy) {k : Nat}
    (h : StepAlike s.ilen s.icur (decoderTick s) o)
    (go : ∀ t t', SameStream t t' → t.ilen = s.ilen → s.icur < t.icur → Ends (runDecoder k t)) :
    Ends (runDecoder (k + 1) s) := by
  generalize htick : decoderTick s = o' at h
  cases h with
  | on same hlen hcur =>
    rw [runDecoder_next hb htick]
    exact go _ _ same hlen hcur
  | fail cause pos u u' =>
    rw [runDecoder_next hb htick, runDecoder_ended (by simp)]
    exact ⟨_, rfl, .inr rfl⟩

theorem runDecoder_ends_atEnd {s s' : State} (h : SameStream s s') (hend : s.ilen ≤ s.icur) (k : Nat) :
    Ends (runDecoder (k + 1) s) := by
  obtain ⟨⟨hb, _⟩, ⟨hd, _⟩, _⟩ := h
  rw [runDecoder_next hb (decoderTick_atEnd hd hend), runDecoder_ended (by simp)]
  exact ⟨_, rfl, .inl rfl⟩

/-- A tick per byte that is left, and one more, end the run: each token's tick moves the cursor on. -/
theorem runDecoder_ends (k : Nat) : ∀ {s s' : State}, SameStream s s' → s.ilen ≤ s.icur + k →
    Ends (runDecoder (k + 1) s) := by
  induction k with
  | zero => exact fun h hk => runDecoder_ends_atEnd h hk 0
  | succ k ih =>
    intro s s' h hk
    by_cases hlt : s.icur < s.ilen
    · have htick : StepAlike s.ilen s.icur (decoderTick s) (tokenTick s') := by
        rw [decoderTick_pastHeader h.pastHeader.1, if_pos hlt]
        exact tokenTick_alike h
      exact runDecoder_ends_of_tick h.busy.1 htick fun t t' same hlen hcur => ih same (by omega)
    · exact runDecoder_ends_atEnd h (by omega) _

/-- Settles O43: the header's tick raises an error or moves the cursor on, and then the ticks that are left
are one more than the bytes that are left. -/
theorem decompressAlwaysEnds : Obligations.DecompressAlwaysEnds := by
  unfold Obligations.DecompressAlwaysEnds
  intro s hfine
  have hends : Ends (runDecoder (s.ilen + 2) (beginDecompress s)) := by
    refine runDecoder_ends_of_tick rfl (headerTick_alike (s := beginDecompress s)
      (s' := beginDecompress s) ⟨rfl, rfl⟩ rfl rfl) fun t t' same hlen _ => runDecoder_ends _ same ?_
    have : t.ilen = s.ilen := hlen
    omega
  rwa [← execDecompress_of_whole hfine] at hends

/-! ### The position of a stream error (R143, R145 to R147, R181) -/

theorem runMatch_beforeOutput {c len dist : Nat} {s : State} (h : s.olen < dist) :
    ∃ u, runMatch c len dist s = .next (raise .backrefRange s.icur u) := by
  obtain ⟨_, run⟩ | ⟨hle, _⟩ | ⟨hle, _⟩ := runMatch_cases c len dist s
  · exact ⟨_, run⟩
  · omega
  · omega

/-- With distance 0 the copy loop stops before its first byte. -/
theorem runMatch_unwritten {c len : Nat} {s : State} (hwf : s.out.wf) (hlen : 1 ≤ len) :
    ∃ u, runMatch c len 0 s = .next (raise .srcNotWritten s.icur u) := by
  have hleft : (copyLoop len (s.olen - 0) s.out).left = len :=
    congrArg CopyRegs.left (copyLoop_unwritten hwf len)
  obtain ⟨hlt, _⟩ | ⟨_, hzero, _⟩ | ⟨_, _, run⟩ := runMatch_cases c len 0 s
  · omega
  · omega
  · exact ⟨_, run⟩

section
variable {c : Nat} {e : BitVec 4} {ahead rest o : List Byte} {s : State}

theorem Decoding.tick_cfTrunc (h : Decoding c e ahead o s) (h1 : 1 ≤ ahead.length)
    (h2 : ahead.length < c) : ∃ u, decoderTick s = .next (raise .cfTrunc s.icur u) := by
  have hleft := h.left
  refine ⟨s, ?_⟩
  rw [decoderTick_pastHeader h.pastHeader, if_pos (by omega), tokenTick_eq, h.width, if_pos (by omega)]

theorem Decoding.tick_litTrunc {n : Nat} (h : Decoding c e (be c (litWord n) ++ rest) o s) (hc : 1 ≤ c)
    (hn : n < 2 ^ usableBits c) (hshort : rest.length < n) :
    ∃ u, decoderTick s = .next (raise .litTrunc s.icur u) := by
  have hleft : s.ilen - s.icur = c + rest.length := by simpa using h.left
  rw [h.tick_field hc (litWord_lt hn), if_pos (signalOf_litWord hn), litLenOf_litWord hn]
  exact runLit_of_truncated (s := withWord s) (by show s.ilen - (s.icur + c) < n; omega)

section
variable {n d : Nat} (h : Decoding c e (be c (matchWord c n d) ++ rest) o s) (hc : 1 ≤ c)
  (hn : n < 2 ^ matchLengthBits c) (hd : d < 2 ^ distanceBits c)
include h hc hn hd

theorem Decoding.tick_runMatch : decoderTick s = runMatch c n d (withWord s) := by
  rw [h.tick_field hc (matchWord_lt hc hn hd), if_neg (by simp [signalOf_matchWord hn hd]),
    matchLenOf_matchWord hn hd, matchDistOf_matchWord hd]

theorem Decoding.tick_backrefRange (hfar : o.length < d) :
    ∃ u, decoderTick s = .next (raise .backrefRange s.icur u) := by
  rw [h.tick_runMatch hc hn hd]
  exact runMatch_beforeOutput (s := withWord s) (h.olen.trans_lt hfar)

theorem Decoding.tick_srcNotWritten (h0 : d = 0) (hlen : 1 ≤ n) :
    ∃ u, decoderTick s = .next (raise .srcNotWritten s.icur u) := by
  rw [h.tick_runMatch hc hn hd, h0]
  exact runMatch_unwritten (s := withWord s) h.out_wf hlen

end

end

/-- A run that reaches `t` and fails there at its cursor reports the offset of what was ahead in IN. -/
theorem decompress_raises {s t : State} {c k pos : Nat} {e : BitVec 4} {tail o : List Byte} {cause : Cause}
    (ht : Decoding c e tail o t) (hrun : execDecompress s = runDecoder (k + 1) t)
    (hlen : s.ilen = pos + tail.length) (htail : 1 ≤ tail.length)
    (hraise : ∃ u, decoderTick t = .next (raise cause t.icur u)) :
    ∃ v, exec .decompress s = .next v ∧ ErrorEntry s v cause pos ∧ v.tok = s.tok := by
  obtain ⟨u, htick⟩ := hraise
  have hexec : exec .decompress s = .next (raise cause t.icur u) :=
    hrun.trans ((runDecoder_next ht.busy htick k).trans (runDecoder_ended (by simp) k))
  have hilen : t.ilen = s.ilen := by
    obtain ⟨_, ⟨_, hkeep, _⟩, _⟩ := execKeepsOperands .decompress s _ hexec
    obtain ⟨_, hframe, _, _, _, hinp, _⟩ := decoderTick_frame t
    cases htick.symm.trans hframe
    rw [← hkeep, State.ilen, State.ilen, hinp]
  have hpos : t.icur = pos := by
    have := ht.left
    omega
  exact exec_raises (by decide) (hpos ▸ hexec)

/-- Settles O60: the ticks of the header and of the tokens that decode leave the tail ahead, and the next tick
raises the tail's error at its cursor. -/
theorem decompressErrorPositions : Obligations.DecompressErrorPositions := by
  unfold Obligations.DecompressErrorPositions
  intro s c e ts o tail pos hfine h1 h2 hin hfit ho hpos
  rw [List.append_assoc] at hin
  obtain ⟨t, k, ht, hrun⟩ := execDecompress_tokens hfine h1 h2 hin hfit ho
  have hlen : s.ilen = pos + tail.length := by
    rw [State.ilen_eq_size, ← Memory.bytes_length, hin, hpos, List.length_append, List.length_append,
      Nat.add_assoc]
    rfl
  have raises {cause : Cause} := decompress_raises (cause := cause) ht hrun hlen
  refine ⟨fun htail hshort => raises htail (ht.tick_cfTrunc htail hshort), ?_, ?_⟩
  · rintro n payload rfl hn hshort
    have htail : 1 ≤ (be c n ++ payload).length := by simp; omega
    exact raises htail (ht.tick_litTrunc h1 hn hshort)
  · rintro n d more rfl hn hd
    have htail : 1 ≤ (be c (2 ^ (8 * c - 1) + n * 2 ^ distanceBits c + d) ++ more).length := by
      simp; omega
    exact ⟨fun hfar => raises htail (ht.tick_backrefRange h1 hn hd hfar),
      fun h0 hn0 => raises htail (ht.tick_srcNotWritten h1 hn hd h0 hn0)⟩

end Sys2Proof.Machine
end

section
/-! The codec (R155 to R162): COMPRESS, the size and the first byte of its stream, and the round trip. -/

namespace Sys2Proof.Machine

open Sys2Proof.Machine.Claims

/-! ### COMPRESS -/

/-- Settles O45: of the two ends of COMPRESS a legal width leaves the completion; the frame is that of every
instruction. -/
theorem compressCompletes : Obligations.CompressCompletes := by
  unfold Obligations.CompressCompletes
  intro s h1 h2
  obtain ⟨hbad, _⟩ | ⟨_, _, run⟩ := execCompress_cases s
  · omega
  · obtain ⟨hreq, hinp, hhost, htok, _⟩ := execKeepsOperands .compress s _ run
    exact ⟨_, _, run, ⟨rfl, rfl, rfl, rfl⟩, Memory.bytes_ofBytes _, toNat_headerByte h2 _, rfl, rfl, hreq,
      hinp, htok (by decide), hhost, rfl, ⟨rfl, rfl, rfl, rfl, rfl, rfl, rfl⟩⟩

/-- Settles O48: the two header bytes and the length of the token stream. -/
theorem compressedSize : Obligations.CompressedSize := by
  unfold Obligations.CompressedSize
  intro s h1 h2
  obtain ⟨t, b, hcompress, _, hout, _⟩ := compressCompletes s h1 h2
  refine ⟨t, hcompress, ?_⟩
  rw [State.olen_eq_size, ← Memory.bytes_length, hout, List.length_append, encodeTokens_length,
    ← Nat.add_assoc]
  rfl

/-! ### The first byte after the header (R162) -/

/-- The signal bit of a Literal is bit 7 of the first byte of its control field. -/
theorem be_eq_cons_of_lt {c n : Nat} (hc : 1 ≤ c) (hn : n < 2 ^ usableBits c) :
    ∃ b rest, be c n = b :: rest ∧ b.toNat < 128 := by
  obtain ⟨k, rfl⟩ := Nat.exists_eq_add_of_le' hc
  have hbits : usableBits (k + 1) = 8 * k + 7 := by have := usableBits_succ hc; omega
  rw [hbits, Nat.pow_add] at hn
  have htop : n / 2 ^ (8 * k) < 128 := Nat.div_lt_of_lt_mul hn
  refine ⟨_, _, rfl, ?_⟩
  rwa [toNat_ofNat_of_lt (by omega)]

section
variable {d : List Byte} {c : Nat} (h1 : 1 ≤ c) (h2 : c ≤ 15)
include h1 h2

theorem fieldsFit_of_mem_tokenize {tk : Token} (h : tk ∈ tokenize d c) : FieldsFit c tk :=
  token_wf_layout_iff.1 ((tokenize_shaped h1 h2).inBounds tk h).wf

theorem encodeTokens_tokenize_eq_cons (hd : d ≠ []) :
    ∃ b rest, encodeTokens c (tokenize d c) = b :: rest ∧ b.toNat < 128 := by
  obtain ⟨_, hlit⟩ := tokenizeStartsWithLiteral d c h1 h2
  obtain ⟨bs, ts, htoks⟩ := hlit hd
  have hfit : FieldsFit c (.lit bs) := fieldsFit_of_mem_tokenize (d := d) h1 h2 (by simp [htoks])
  obtain ⟨b, rest, hbe, hb⟩ := be_eq_cons_of_lt h1 hfit
  exact ⟨b, rest ++ bs ++ encodeTokens c ts, by rw [htoks, encodeTokens_cons, encToken_lit, hbe]; rfl, hb⟩

end

/-- Settles O47: the first token is a Literal, and the signal bit is the top bit of its first byte. -/
theorem firstTokenOnWireIsLiteral : Obligations.FirstTokenOnWireIsLiteral := by
  unfold Obligations.FirstTokenOnWireIsLiteral
  intro s h1 h2 hd
  obtain ⟨t, _, hcompress, _, hout, _⟩ := compressCompletes s h1 h2
  obtain ⟨b, rest, henc, hb⟩ := encodeTokens_tokenize_eq_cons h1 h2 hd
  exact ⟨t, b, hcompress, by rw [hout, henc]; rfl, hb⟩

/-! ### The round trip (R161) -/

theorem fieldsHold_of_fieldsFit {c : Nat} {tk : Token} (h : FieldsFit c tk) : FieldsHold c tk := by
  cases tk with
  | lit bs => exact h
  | copy d n =>
    obtain ⟨_, hdist, hlen⟩ := h
    exact ⟨hdist, hlen⟩

theorem ne_noop_of_fieldsFit {c : Nat} {tk : Token} (h : FieldsFit c tk) : tk ≠ .copy 0 0 := by
  rintro rfl
  obtain ⟨hpos, _⟩ := h
  exact absurd hpos (by decide)

/-- Without the no-op among them, tokens decode to their expansion. -/
theorem streamOutput_eq_expand {c : Nat} {ts : List Token} (h : ∀ tk ∈ ts, FieldsFit c tk) :
    streamOutput ts = expand ts :=
  congrArg expand (List.filter_eq_self.2 fun tk htk => decide_eq_true (ne_noop_of_fieldsFit (h tk htk)))

theorem eq_headerBytes {c : Nat} {e : BitVec 4} {b : Byte} (hb : b.toNat = c * 16 + e.toNat) :
    [magic, b] = headerBytes c e := by
  rw [headerBytes, ← hb, BitVec.ofNat_toNat, BitVec.setWidth_eq]

/-- Settles O46: the tokens COMPRESS encodes fit their fields and expand to the input, so DECOMPRESS, which
expands what it reads, answers the input. -/
theorem compressDecompressRoundTrip : Obligations.CompressDecompressRoundTrip := by
  unfold Obligations.CompressDecompressRoundTrip
  intro s h1 h2
  obtain ⟨t, b, hcompress, _, hout, hb, _⟩ := compressCompletes s h1 h2
  rw [eq_headerBytes hb] at hout
  refine ⟨t, hcompress, fun u hfine hu => ?_⟩
  have hfit : ∀ tk ∈ tokenize s.inp.bytes s.cArg, FieldsFit s.cArg tk :=
    fun _ => fieldsFit_of_mem_tokenize h1 h2
  have hexpand := (streamOutput_eq_expand hfit).trans (tokenizeExpandsToInput s.inp.bytes s.cArg h1 h2)
  obtain ⟨v, hdecompress, hdone, hbytes, hwidth, hcode, _⟩ :=
    decompressExpands u _ _ _ _ hfine h1 h2 (hu.trans hout)
      (fun tk htk => fieldsHold_of_fieldsFit (hfit tk htk)) hexpand
  exact ⟨v, hdecompress, hdone, hbytes, hwidth, by rw [hcode]⟩

end Sys2Proof.Machine
end

section
/-! The errors (R170 to R185): the entry each test makes, and that every instruction raises only its own
causes and never stops with a fault. -/

namespace Sys2Proof.Machine

open Sys2Proof.Machine.Claims

/-! ### The error entry (R180) -/

/-- The entry of R180 as far as it speaks of the state it leaves: ERROR, the record, an empty OUT and no
specified result. -/
def Failed (t : State) (cause : Cause) (pos : Nat) : Prop :=
  t.status = .error ∧ ErrorRecord t cause pos ∧ t.olen = 0 ∧ t.valid = {}

theorem failed_raise (cause : Cause) (pos : Nat) (s : State) : Failed (raise cause pos s) cause pos :=
  ⟨rfl, ⟨rfl, rfl, rfl⟩, rfl, rfl⟩

/-- The entry as TOKENIZE makes it, which also writes TOK. -/
theorem failed_raise_tok (cause : Cause) (pos : Nat) (s : State) (ts : List Token) :
    Failed { raise cause pos s with tok := ts } cause pos :=
  failed_raise cause pos s

/-- What else the entry of R180 says is the frame of the instruction that fails. -/
theorem Failed.errorEntry {i : Instr} {s t : State} {cause : Cause} {pos : Nat} (h : Failed t cause pos)
    (run : exec i s = .next t) : ErrorEntry s t cause pos := by
  obtain ⟨hstatus, hrecord, holen, hvalid⟩ := h
  obtain ⟨hreq, hin, hhost, _⟩ := execKeepsOperands i s t run
  exact ⟨hstatus, hrecord, holen, hvalid, hreq, hin, hhost⟩

theorem tok_of_tokenize_error {s t : State} (run : execTokenize s = .next t) (h : t.status = .error) :
    t.tok = [] := by
  obtain ⟨_, e⟩ | ⟨_, _, e⟩ := execTokenize_cases s <;> cases run.symm.trans e
  · rfl
  · exact nomatch h

/-! ### The width operand (R171) -/

theorem exec_widthRange {s : State} (h : s.cArg = 0 ∨ 15 < s.cArg) :
    ∀ i ∈ [Instr.layout, .genhdr, .compress, .findmatch, .encode],
      exec i s = .next (raise .widthRange 0 s) := by
  simp only [List.forall_mem_cons]
  exact ⟨((execLayout_cases s).resolve_right (by omega)).2,
    ((execGenhdr_cases s).resolve_right (by omega)).2,
    ((execCompress_cases s).resolve_right (by omega)).2,
    ((execFindmatch_cases s).resolve_right (by omega)).2,
    ((execEncode_cases s).resolve_right (by omega)).2, nofun⟩

theorem execTokenize_widthRange {s : State} (h : s.cArg = 0 ∨ 15 < s.cArg) :
    execTokenize s = .next { raise .widthRange 0 s with tok := [] } :=
  ((execTokenize_cases s).resolve_right (by omega)).2

/-- Settles O16: a width out of range leaves each of the six operations its first end; TOKENIZE's also
empties TOK. -/
theorem widthOutOfRangeRaises : Obligations.WidthOutOfRangeRaises := by
  unfold Obligations.WidthOutOfRangeRaises
  intro s h i hi
  by_cases htok : i = .tokenize
  · subst htok
    have run : exec .tokenize s = _ := execTokenize_widthRange h
    exact ⟨_, run, (failed_raise_tok _ _ s []).errorEntry run, fun _ => rfl, fun hne => absurd rfl hne⟩
  · have run := exec_widthRange h i (by simpa [htok] using hi)
    obtain ⟨t, e, hentry, hkeep⟩ := exec_raises htok run
    exact ⟨t, e, hentry, fun heq => absurd heq htok, fun _ => hkeep⟩

/-! ### ENCODE's first bad token (R134, R172) -/

/-- The index of the first token that is not well-formed, counted from `n`. -/
theorem firstBad_eq_some {l : BitLayout} {tk : Token} (hbad : ¬ tk.wf l = true) (ts : List Token) :
    ∀ {n k : Nat}, ts[k]? = some tk → (∀ j tj, j < k → ts[j]? = some tj → tj.wf l = true) →
      firstBad l n ts = some (n + k) := by
  induction ts with
  | nil => exact fun hk => nomatch hk
  | cons t ts ih =>
    intro n k hk hgood
    cases k with
    | zero =>
      obtain rfl : t = tk := by simpa using hk
      rw [firstBad, if_neg hbad, Nat.add_zero]
    | succ k =>
      rw [firstBad, if_pos (hgood 0 t k.succ_pos rfl),
        ih hk fun j tj hj htj => hgood (j + 1) tj (Nat.succ_lt_succ hj) htj, Nat.add_right_comm,
        Nat.add_assoc]

/-- Settles O35: of the three ends of ENCODE a legal width and a token that does not fit leave TOKEN_RANGE, at
the first such token. -/
theorem encodeRejectsFirstBadToken : Obligations.EncodeRejectsFirstBadToken := by
  unfold Obligations.EncodeRejectsFirstBadToken
  intro s k tk h1 h2 hk hbad hgood
  have hfirst : firstBad (layout s.cArg) 0 s.tok = some (0 + k) :=
    firstBad_eq_some (mt token_wf_layout_iff.1 hbad) s.tok hk
      fun j tj hj htj => token_wf_layout_iff.2 (hgood j tj hj htj)
  rw [Nat.zero_add] at hfirst
  obtain ⟨hwidth, _⟩ | ⟨_, _, k', hk', run⟩ | ⟨_, _, hnone, _⟩ := execEncode_cases s
  · omega
  · cases hk'.symm.trans hfirst
    exact exec_raises (i := .encode) (by decide) run
  · exact nomatch hnone.symm.trans hfirst

/-! ### The header's errors (R173 to R175) -/

theorem parseHeader_short {bs : List Byte} (h : bs.length < 2) :
    parseHeader bs = .error (.hdrShort, 0) := by
  match bs with
  | [] | [_] => rfl
  | _ :: _ :: _ => simp at h

theorem parseHeader_badMagic {bs : List Byte} (h : 2 ≤ bs.length) (hm : bs[0]? ≠ some magic) :
    parseHeader bs = .error (.badMagic, 0) := by
  match bs with
  | [] | [_] => simp at h
  | m :: b :: _ => exact if_pos (by simpa using hm)

theorem parseHeader_zeroWidth {bs : List Byte} {b : Byte} (h0 : bs[0]? = some magic)
    (h1 : bs[1]? = some b) (hb : b.toNat / 16 = 0) : parseHeader bs = .error (.hdrWidth, 1) := by
  have hwidth : b.extractLsb' 4 4 = 0#4 := BitVec.eq_of_toNat_eq ((toNat_highNibble b).trans hb)
  match bs with
  | [] | [_] => simp at h1
  | m :: b' :: _ =>
    obtain rfl : m = magic := by simpa using h0
    obtain rfl : b' = b := by simpa using h1
    simp only [parseHeader, ne_eq, not_true_eq_false, ↓reduceIte, hwidth]

theorem cause_of_parseHeader {bs : List Byte} {cause : Cause} {pos : Nat}
    (h : parseHeader bs = .error (cause, pos)) : cause ∈ [Cause.hdrShort, .badMagic, .hdrWidth] := by
  unfold parseHeader at h
  split at h
  · split at h
    · cases h; decide
    · split at h
      · cases h; decide
      · exact nomatch h
  · cases h; decide

theorem headerTick_short {s : State} (h : s.inp.bytes.length < 2) :
    headerTick s = .next (raise .hdrShort 0 s) := by
  unfold headerTick
  split
  next _ _ _ hbytes => simp [hbytes] at h
  next => rfl

theorem headerTick_cons {s : State} {m b : Byte} {rest : List Byte} (h : s.inp.bytes = m :: b :: rest) :
    headerTick s = if m ≠ magic then .next (raise .badMagic 0 s)
      else execHdr (b.extractLsb' 4 4) (b.extractLsb' 0 4) s := by
  simp only [headerTick, h]

theorem parseHeader_cons (m b : Byte) (rest : List Byte) :
    parseHeader (m :: b :: rest) = if m ≠ magic then .error (.badMagic, 0)
      else if b.extractLsb' 4 4 = 0#4 then .error (.hdrWidth, 1)
      else .ok (b.extractLsb' 4 4, b.extractLsb' 0 4) := rfl

/-- Everything the header's tick can do, by what PARSEHDR's tests find. -/
theorem headerTick_parseHeader_cases (s : State) :
    (∃ cause pos, parseHeader s.inp.bytes = .error (cause, pos) ∧
      headerTick s = .next (raise cause pos s)) ∨
    (∃ c e, parseHeader s.inp.bytes = .ok (c, e) ∧ headerTick s = .next { s with
      curC := c
      curE := e
      out := Memory.empty
      icur := 2
      dstate := .readingControlField }) := by
  by_cases hlen : s.inp.bytes.length < 2
  · exact .inl ⟨_, _, parseHeader_short hlen, headerTick_short hlen⟩
  · obtain ⟨m, b, rest, hbytes⟩ : ∃ m b rest, s.inp.bytes = m :: b :: rest := by
      match h : s.inp.bytes with
      | [] | [_] => simp [h] at hlen
      | m :: b :: rest => exact ⟨m, b, rest, rfl⟩
    rw [headerTick_cons hbytes, hbytes, parseHeader_cons]
    by_cases hm : m ≠ magic
    · exact .inl ⟨_, _, if_pos hm, if_pos hm⟩
    · rw [if_neg hm, if_neg hm]
      obtain ⟨hc, e⟩ | ⟨hc, e⟩ := execHdr_cases (b.extractLsb' 4 4) (b.extractLsb' 0 4) s
      · exact .inl ⟨_, _, if_pos hc, e⟩
      · exact .inr ⟨_, _, if_neg hc, e⟩

/-- DECOMPRESS run whole ends in the error its header's tests find. -/
theorem execDecompress_badHeader {s : State} (hf : s.fine = false) {cause : Cause} {pos : Nat}
    (h : parseHeader s.inp.bytes = .error (cause, pos)) :
    execDecompress s = .next (raise cause pos (beginDecompress s)) := by
  obtain ⟨_, _, h', htick⟩ | ⟨_, _, h', _⟩ := headerTick_parseHeader_cases (beginDecompress s)
  · cases h'.symm.trans h
    rw [execDecompress_of_whole hf, runDecoder_next rfl ((decoderTick_readingHeader rfl).trans htick),
      runDecoder_ended (by simp)]
  · exact nomatch h'.symm.trans h

/-- Settles O29: PARSEHDR and DECOMPRESS report what the three tests of `parseHeader` find. -/
theorem headerErrorsInOrder : Obligations.HeaderErrorsInOrder := by
  unfold Obligations.HeaderErrorsInOrder
  intro s i hi
  have hlen : s.inp.bytes.length = s.ilen := Memory.bytes_length _
  have raises {cause : Cause} {pos : Nat} (h : parseHeader s.inp.bytes = .error (cause, pos)) :
      ∃ t, exec i s = .next t ∧ ErrorEntry s t cause pos ∧ t.tok = s.tok := by
    obtain rfl | ⟨rfl, hf⟩ := hi
    · obtain ⟨_, _, h', run⟩ | ⟨_, _, h', _⟩ := execParsehdr_cases s
      · cases h'.symm.trans h
        exact exec_raises (i := .parsehdr) (by decide) run
      · exact nomatch h'.symm.trans h
    · exact exec_raises (by decide) (execDecompress_badHeader hf h)
  exact ⟨fun hshort => raises (parseHeader_short (by omega)),
    fun h2 hm => raises (parseHeader_badMagic (by omega) hm),
    fun b h0 h1 hb => raises (parseHeader_zeroWidth h0 h1 hb)⟩

/-! ### The errors of a control field (R176, R178, R179) -/

theorem decoderTick_cfTrunc {s : State} (hd : s.dstate ≠ .readingHeader) (hlt : s.icur < s.ilen)
    (hshort : s.ilen - s.icur < s.curC.toNat) : decoderTick s = .next (raise .cfTrunc s.icur s) := by
  rw [decoderTick_pastHeader hd, if_pos hlt, tokenTick_eq, if_pos hshort]

/-- Settles O7: of what the engine's turn can do only the tick of the running DECOMPRESS is left. -/
theorem truncatedControlFieldRaises : Obligations.TruncatedControlFieldRaises := by
  unfold Obligations.TruncatedControlFieldRaises
  intro s u hu hb hp hd hlt hshort
  obtain ⟨sched, rfl⟩ := engineTurn_eq_schedule hu
  obtain ⟨hidle, _⟩ | ⟨_, hstart, _⟩ | ⟨_, _, e⟩ := step_engineTurn_cases hu
  · exact absurd hb hidle
  · exact nomatch hp.symm.trans hstart
  · exact ⟨_, e.trans (decoderTick_cfTrunc hd hlt hshort), ⟨rfl, ⟨rfl, rfl, rfl⟩, rfl, rfl,
      ⟨rfl, rfl, rfl, rfl⟩, ⟨rfl, rfl, fun _ => rfl⟩, ⟨rfl, rfl, rfl, rfl, rfl⟩⟩, rfl⟩

section
variable {c wl wd : Nat} {mk : BitVec wl → BitVec wd → Instr} (hmk : ∀ len dist, mk len dist ≠ .tokenize)
  (run : ∀ len dist s, exec (mk len dist) s = runMatch c len.toNat dist.toNat s)
include hmk run

/-- An instruction that runs `runMatch` raises BACKREF_RANGE at a distance beyond the output. -/
theorem matchBeforeOutput_of_runMatch : MatchBeforeOutput mk := by
  intro len dist s h
  obtain ⟨u, hraise⟩ := runMatch_beforeOutput h
  exact exec_raises (hmk len dist) ((run len dist s).trans hraise)

/-- An instruction that runs `runMatch` raises SRC_NOT_WRITTEN at distance 0 with something to copy. -/
theorem matchUnwritten_of_runMatch : MatchUnwritten mk := by
  intro len dist s hwf h0 hlen
  obtain ⟨u, hraise⟩ := runMatch_unwritten (c := c) hwf hlen
  rw [← h0] at hraise
  exact exec_raises (hmk len dist) ((run len dist s).trans hraise)

end

/-- Settles O40: all fifteen widths run the one `runMatch`. -/
theorem matchBeforeOutputRaises : Obligations.MatchBeforeOutputRaises := by
  unfold Obligations.MatchBeforeOutputRaises
  refine ⟨?_, ?_, ?_, ?_, ?_, ?_, ?_, ?_, ?_, ?_, ?_, ?_, ?_, ?_, ?_⟩ <;>
    exact matchBeforeOutput_of_runMatch nofun fun _ _ _ => rfl

/-- Settles O41: all fifteen widths run the one `runMatch`. -/
theorem matchUnwrittenSourceRaises : Obligations.MatchUnwrittenSourceRaises := by
  unfold Obligations.MatchUnwrittenSourceRaises
  refine ⟨?_, ?_, ?_, ?_, ?_, ?_, ?_, ?_, ?_, ?_, ?_, ?_, ?_, ?_, ?_⟩ <;>
    exact matchUnwritten_of_runMatch nofun fun _ _ _ => rfl

/-! ### What an outcome raises (R170, R185) -/

/-- What an outcome in `s` can be where only the causes `cs` are raised: a refusal, a state in which no error
is new, or a failure with one of `cs`. It is never a fault. -/
inductive RaisesOnly (cs : List Cause) (s : State) : Out → Prop where
  | refused (r : Refusal) : RaisesOnly cs s (.refused r)
  | on {t : State} (h : t.status = .error → s.status = .error) : RaisesOnly cs s (.next t)
  | failed {t : State} {cause : Cause} {pos : Nat} (mem : cause ∈ cs) (h : Failed t cause pos) :
      RaisesOnly cs s (.next t)

theorem raisesOnly_raise {cs : List Cause} {cause : Cause} (h : cause ∈ cs) (pos : Nat) (s u : State) :
    RaisesOnly cs s (.next (raise cause pos u)) :=
  .failed h (failed_raise cause pos u)

theorem RaisesOnly.after {cs : List Cause} {s t : State} {o : Out}
    (hst : t.status = .error → s.status = .error) (h : RaisesOnly cs t o) : RaisesOnly cs s o := by
  cases h with
  | refused r => exact .refused r
  | on h => exact .on fun e => hst (h e)
  | failed mem h => exact .failed mem h

section
variable {cs : List Cause} (s : State)

theorem runLit_raisesOnly (h : .litTrunc ∈ cs) (c len : Nat) : RaisesOnly cs s (runLit c len s) := by
  obtain ⟨_, e⟩ | ⟨_, e⟩ := runLit_cases c len s <;> rw [e]
  · exact raisesOnly_raise h _ _ _
  · exact .on id

theorem runMatch_raisesOnly (h : .backrefRange ∈ cs) (h' : .srcNotWritten ∈ cs) (c len dist : Nat) :
    RaisesOnly cs s (runMatch c len dist s) := by
  obtain ⟨_, e⟩ | ⟨_, _, e⟩ | ⟨_, _, e⟩ := runMatch_cases c len dist s <;> rw [e]
  · exact raisesOnly_raise h _ _ _
  · exact .on id
  · exact raisesOnly_raise h' _ _ _

theorem execHdr_raisesOnly (c e : BitVec 4) : RaisesOnly (causesOf (.hdr c e)) s (execHdr c e s) := by
  obtain ⟨_, h⟩ | ⟨_, h⟩ := execHdr_cases c e s <;> rw [h]
  · exact raisesOnly_raise (List.mem_singleton_self _) _ _ _
  · exact .on id

/-! ### DECOMPRESS raises only its own causes -/

theorem tokenTick_raisesOnly : RaisesOnly (causesOf .decompress) s (tokenTick s) := by
  have hword : (withWord s).status = .error → s.status = .error := id
  rw [tokenTick_eq]
  split
  · exact raisesOnly_raise (by decide) _ _ _
  · split
    · exact raisesOnly_raise (by decide) _ _ _
    · split
      · exact (runLit_raisesOnly _ (by decide) _ _).after hword
      · exact (runMatch_raisesOnly _ (by decide) (by decide) _ _ _).after hword

theorem decoderTick_raisesOnly : RaisesOnly (causesOf .decompress) s (decoderTick s) := by
  by_cases hd : s.dstate = .readingHeader
  · rw [decoderTick_readingHeader hd]
    obtain ⟨_, _, h, e⟩ | ⟨_, _, _, e⟩ := headerTick_parseHeader_cases s <;> rw [e]
    · exact raisesOnly_raise (List.mem_append_left _ (cause_of_parseHeader h)) _ _ _
    · exact .on id
  · rw [decoderTick_pastHeader hd]
    split
    · exact tokenTick_raisesOnly s
    · exact .on nofun

end

theorem runDecoder_raisesOnly (k : Nat) :
    ∀ s : State, RaisesOnly (causesOf .decompress) s (runDecoder k s) := by
  induction k with
  | zero => exact fun s => .on id
  | succ k ih =>
    intro s
    by_cases hb : s.status = .busy
    · obtain ⟨t, htick, _⟩ := decoderTick_frame s
      have h := decoderTick_raisesOnly s
      rw [htick] at h
      rw [runDecoder_next hb htick]
      cases h with
      | on h => exact (ih t).after h
      | failed mem h =>
        have hstatus : t.status = .error := h.1
        rw [runDecoder_ended (by simp [hstatus])]
        exact .failed mem h
    · rw [runDecoder_ended hb]
      exact .on id

theorem execDecompress_raisesOnly (s : State) : RaisesOnly (causesOf .decompress) s (execDecompress s) := by
  cases hf : s.fine with
  | true => rw [execDecompress_of_fine hf]; exact .on nofun
  | false => rw [execDecompress_of_whole hf]; exact (runDecoder_raisesOnly _ _).after (by simp)

/-! ### The other host operations raise only their own causes -/

section
variable (s : State)

theorem execLayout_raisesOnly : RaisesOnly (causesOf .layout) s (execLayout s) := by
  obtain ⟨_, e⟩ | ⟨_, _, e⟩ := execLayout_cases s <;> rw [e]
  · exact raisesOnly_raise (by decide) _ _ _
  · exact .on nofun

theorem execFindmatch_raisesOnly : RaisesOnly (causesOf .findmatch) s (execFindmatch s) := by
  obtain ⟨_, e⟩ | ⟨_, _, _, e⟩ | ⟨_, _, _, e⟩ := execFindmatch_cases s <;> rw [e]
  · exact raisesOnly_raise (by decide) _ _ _
  · exact .refused _
  · exact .on nofun

theorem execTokenize_raisesOnly : RaisesOnly (causesOf .tokenize) s (execTokenize s) := by
  obtain ⟨_, e⟩ | ⟨_, _, e⟩ := execTokenize_cases s <;> rw [e]
  · exact .failed (cause := .widthRange) (by decide) (failed_raise_tok _ 0 s [])
  · exact .on nofun

theorem execGenhdr_raisesOnly : RaisesOnly (causesOf .genhdr) s (execGenhdr s) := by
  obtain ⟨_, e⟩ | ⟨_, _, e⟩ := execGenhdr_cases s <;> rw [e]
  · exact raisesOnly_raise (by decide) _ _ _
  · exact .on nofun

theorem execParsehdr_raisesOnly : RaisesOnly (causesOf .parsehdr) s (execParsehdr s) := by
  obtain ⟨_, _, h, e⟩ | ⟨_, _, _, e⟩ := execParsehdr_cases s <;> rw [e]
  · exact raisesOnly_raise (cause_of_parseHeader h) _ _ _
  · exact .on nofun

theorem execEncode_raisesOnly : RaisesOnly (causesOf .encode) s (execEncode s) := by
  obtain ⟨_, e⟩ | ⟨_, _, _, _, e⟩ | ⟨_, _, _, e⟩ := execEncode_cases s <;> rw [e]
  · exact raisesOnly_raise (by decide) _ _ _
  · exact raisesOnly_raise (by decide) _ _ _
  · exact .on nofun

theorem execCompress_raisesOnly : RaisesOnly (causesOf .compress) s (execCompress s) := by
  obtain ⟨_, e⟩ | ⟨_, _, e⟩ := execCompress_cases s <;> rw [e]
  · exact raisesOnly_raise (by decide) _ _ _
  · exact .on nofun

end

/-! ### Every instruction raises only its own causes -/

theorem exec_raisesOnly (i : Instr) (s : State) : RaisesOnly (causesOf i) s (exec i s) := by
  cases i with
  | hdr c e => exact execHdr_raisesOnly s c e
  | litC1 len | litC2 len | litC3 len | litC4 len | litC5 len | litC6 len | litC7 len | litC8 len
  | litC9 len | litC10 len | litC11 len | litC12 len | litC13 len | litC14 len | litC15 len =>
    exact runLit_raisesOnly s (List.mem_singleton_self _) _ len.toNat
  | matchC1 len dist | matchC2 len dist | matchC3 len dist | matchC4 len dist | matchC5 len dist
  | matchC6 len dist | matchC7 len dist | matchC8 len dist | matchC9 len dist | matchC10 len dist
  | matchC11 len dist | matchC12 len dist | matchC13 len dist | matchC14 len dist
  | matchC15 len dist =>
    exact runMatch_raisesOnly s (.head _) (.tail _ (.head _)) _ len.toNat dist.toNat
  | layout => exact execLayout_raisesOnly s
  | findmatch => exact execFindmatch_raisesOnly s
  | tokenize => exact execTokenize_raisesOnly s
  | genhdr => exact execGenhdr_raisesOnly s
  | parsehdr => exact execParsehdr_raisesOnly s
  | hdrchk => exact .on nofun
  | encode => exact execEncode_raisesOnly s
  | compress => exact execCompress_raisesOnly s
  | decompress => exact execDecompress_raisesOnly s

/-- Settles O49: an error that is new is a failure with one of the instruction's causes. -/
theorem errorsByInstruction : Obligations.ErrorsByInstruction := by
  unfold Obligations.ErrorsByInstruction
  intro i s t run hs ht
  have h := exec_raisesOnly i s
  rw [run] at h
  cases h with
  | on h => exact absurd (h ht) hs
  | failed mem h =>
    obtain ⟨_, _, _, htok, _⟩ := execKeepsOperands i s t run
    refine ⟨_, _, mem, h.errorEntry run, ?_, htok⟩
    rintro rfl
    exact tok_of_tokenize_error run ht

/-- Settles O51: what an instruction can answer holds no fault. -/
theorem execNeverFaults : Obligations.ExecNeverFaults := by
  unfold Obligations.ExecNeverFaults
  intro i s r run
  have h := exec_raisesOnly i s
  rw [run] at h
  cases h

end Sys2Proof.Machine
end

section
/-! The host while an operation runs (R196, R200, R201). -/

namespace Sys2Proof.Machine

open Sys2Proof.Machine.Claims

/-- Settles O55: of what a start can do BUSY leaves nothing to do. -/
theorem startWhileBusyIgnored : Obligations.StartWhileBusyIgnored := by
  unfold Obligations.StartWhileBusyIgnored
  intro s op fine rest hs hb
  rw [step_host hs]
  obtain ⟨_, e⟩ | ⟨hidle, _⟩ | ⟨hidle, _⟩ | ⟨hidle, _⟩ := hostStart_cases op fine { s with schedule := rest }
  · exact e
  all_goals exact absurd hb hidle

/-- Settles O57: a reset move answers `hostReset`, whatever STATUS is. -/
theorem resetAbandonsOperation : Obligations.ResetAbandonsOperation := by
  unfold Obligations.ResetAbandonsOperation
  intro s rest hs
  exact ⟨hostReset { s with schedule := rest }, step_host hs, rfl, ⟨rfl, rfl, rfl⟩, rfl, rfl, rfl, rfl, rfl,
    rfl⟩

theorem hostWrite_busy {s : State} (h : s.status = .busy) (t : State) :
    hostWrite s t = .fault .hostNoMove := by
  obtain ⟨hidle, _⟩ | ⟨_, e⟩ := hostWrite_cases s t
  · exact absurd h hidle
  · exact e

theorem hostRead_busy {s : State} (h : s.status = .busy) {r : ReadReg} (hr : r ≠ .status) :
    hostRead r s = .fault .hostNoMove := by
  obtain ⟨hread, _⟩ | ⟨_, _, e⟩ := hostRead_cases r s
  · exact absurd h (hread.resolve_left hr)
  · exact e

/-- Settles O59: every write is one `hostWrite`, and STATUS is the one register `hostRead` still answers. -/
theorem hostBlockedWhileBusy : Obligations.HostBlockedWhileBusy := by
  unfold Obligations.HostBlockedWhileBusy
  intro s m rest hs hb
  have hb' : ({ s with schedule := rest } : State).status = .busy := hb
  refine ⟨fun hm => ?_, ?_⟩
  · rw [step_host hs]
    obtain ⟨n, rfl⟩ | ⟨e, rfl⟩ | ⟨n, rfl⟩ | ⟨bs, rfl⟩ | ⟨ts, rfl⟩ | ⟨r, hr, rfl⟩ := hm
    · exact hostWrite_busy hb' _
    · exact hostWrite_busy hb' _
    · exact hostWrite_busy hb' _
    · exact hostWrite_busy hb' _
    · exact hostWrite_busy hb' _
    · exact hostRead_busy hb' hr
  · rintro rfl
    rw [step_read hs (.inl rfl)]
    simp only [isSpecified, contentOf, hb, ↓reduceIte]
    rfl

end Sys2Proof.Machine
end
